-- ==== Sys2Proof/Word.lean ====
section
/-! DEFINITION. The widths of CBP-INTERP (00_scope.md rule R5, 10_state.md rule R21): bytes on the bus,
10-bit temperature points, 16-bit codes, and the 64-bit pattern of a binary64 number (30_encoding.md rule R77). -/

namespace Sys2Proof

/-- Bus data, register offsets, and the `u8` device address argument (20_memory.md rules R40 and R42). -/
abbrev Byte := BitVec 8

/-- A temperature calibration point, unsigned (42_calibration_unpack.md rule R143). -/
abbrev Code10 := BitVec 10

/-- A raw sample or a calibration output code, unsigned (42_calibration_unpack.md rule R141). -/
abbrev Code16 := BitVec 16

/-- The IEEE 754 binary64 pattern of a number of `NUM_B64` (30_encoding.md rule R77). -/
abbrev B64 := BitVec 64

end Sys2Proof
end

