-- ==== Sys2Proof/Machine/Operands.lean ====
section
/-! DEFINITION. The unpacking of codes from bytes (42_calibration_unpack.md rules R141 to R145) and the integers of the PT formulas
(40_pressure_temp.md rules R101 and R102). A command word has no operand but `A` (30_encoding.md rule R71). -/

namespace Sys2Proof.Machine

/-- `COMPOSE16(lo, hi) = lo | (hi << 8)`, unsigned (42_calibration_unpack.md rule R141). -/
def compose16 (lo hi : Byte) : Code16 := lo.setWidth 16 ||| (hi.setWidth 16 <<< 8)

/-- `LOW8(r) = r[7:0]` (42_calibration_unpack.md rule R142). The block never computes it. -/
def low8 (r : Code16) : Byte := r.extractLsb' 0 8

/-- `HIGH8(r) = r[15:8]` (42_calibration_unpack.md rule R142). The block never computes it. -/
def high8 (r : Code16) : Byte := r.extractLsb' 8 8

/-- `ASSEMBLE10(lo8, msb2) = (msb2 << 8) | lo8`, unsigned (42_calibration_unpack.md rule R143). -/
def assemble10 (lo8 : Byte) (msb2 : BitVec 2) : Code10 := (msb2.setWidth 10 <<< 8) ||| lo8.setWidth 10

/-- `MSB0(m) = m[1:0]` (42_calibration_unpack.md rule R144). -/
def msb0 (m : Byte) : BitVec 2 := m.extractLsb' 0 2

/-- `MSB1(m) = m[3:2]` (42_calibration_unpack.md rule R144). -/
def msb1 (m : Byte) : BitVec 2 := m.extractLsb' 2 2

end Sys2Proof.Machine
end

