-- ==== Sys2Proof/Machine/Binary64.lean ====
section
/-! DEFINITION. `NUM_B64`: the operations of IEEE 754 binary64, round to nearest, ties to even, one rounding each
(00_scope.md rule R8). Each operation takes its operands apart into exact fractions, computes exactly, and rounds once. -/

namespace Sys2Proof.Machine

/-- What a 64-bit pattern stands for. A finite number has the magnitude `num / den`. -/
inductive B64View where
  | nan
  | inf (neg : Bool)
  | finite (neg : Bool) (num den : Nat)
  deriving DecidableEq, Repr

def b64Sign (x : B64) : Bool := x.getLsbD 63
def b64ExpField (x : B64) : Nat := x.toNat / 2 ^ 52 % 2 ^ 11
def b64FracField (x : B64) : Nat := x.toNat % 2 ^ 52

/-- The number behind a pattern: exponent field 0 is a zero or a subnormal number, 2047 an infinity or a NaN. -/
def b64View (x : B64) : B64View :=
  let e := b64ExpField x
  let f := b64FracField x
  if e = 2047 then (if f = 0 then .inf (b64Sign x) else .nan)
  else if e = 0 then .finite (b64Sign x) f (if f = 0 then 1 else 2 ^ 1074)
  else .finite (b64Sign x) ((2 ^ 52 + f) * 2 ^ (e - 1075)) (2 ^ (1075 - e))

def b64SignBit (neg : Bool) : Nat := if neg then 2 ^ 63 else 0

/-- The pattern with the given sign and the given 63 bits of magnitude. -/
def b64Pack (neg : Bool) (magnitude : Nat) : B64 := BitVec.ofNat 64 (b64SignBit neg + magnitude)

def b64Zero (neg : Bool) : B64 := b64Pack neg 0
def b64Inf (neg : Bool) : B64 := b64Pack neg (2047 * 2 ^ 52)

/-- The NaN an invalid operation gives. No command meets one (30_encoding.md rule R77); DESIGN CHOICE, log entry 11. -/
def b64NaN : B64 := b64Pack false (2047 * 2 ^ 52 + 2 ^ 51)

/-- `n / d` rounded to the nearest integer, ties to the even one. -/
def roundHalfEven (n d : Nat) : Nat :=
  let q := n / d
  let r := n % d
  if 2 * r < d then q
  else if d < 2 * r then q + 1
  else if q % 2 = 0 then q else q + 1

/-- The greatest `k` with `2 ^ k ≤ n / d`, for positive `n` and `d`. -/
def floorLog2 (n d : Nat) : Int :=
  let k : Int := (Nat.log2 n : Int) - (Nat.log2 d : Int)
  if d * 2 ^ k.toNat ≤ n * 2 ^ (-k).toNat then k else k - 1

/-- The exponent of the unit in the last place of the binary64 numbers around `n / d`. -/
def b64UlpExp (n d : Nat) : Int := max (-1074) (floorLog2 n d - 52)

/-- The 63 bits of magnitude of the binary64 number nearest to `n / d`, ties to even, `d` positive. A significand that
rounds up to `2 ^ 53` carries into the exponent field, and a magnitude past the largest finite one is an infinity. -/
def b64RoundMag (n d : Nat) : Nat :=
  if n = 0 then 0
  else
    let e := b64UlpExp n d
    let m := roundHalfEven (n * 2 ^ (-e).toNat) (d * 2 ^ e.toNat)
    min ((e + 1074).toNat * 2 ^ 52 + m) (2047 * 2 ^ 52)

/-- The binary64 number nearest to `± n / d`, ties to even. -/
def b64Round (neg : Bool) (n d : Nat) : B64 := b64Pack neg (b64RoundMag n d)

/-- `n` with a sign. -/
def signedInt (neg : Bool) (n : Nat) : Int := if neg then -(n : Int) else n

/-- `F.ofInt` of `NUM_B64` (00_scope.md rule R8). -/
def b64OfInt (z : Int) : B64 := b64Round (decide (z < 0)) z.natAbs 1

/-- `F.lit` of `NUM_B64`, for the decimal `mantissa / 10 ^ scale` (00_scope.md rule R8). -/
def b64OfDecimal (mantissa : Int) (scale : Nat) : B64 :=
  b64Round (decide (mantissa < 0)) mantissa.natAbs (10 ^ scale)

/-- `F.add` of `NUM_B64`. An exact sum of zero is `+0` unless both operands are negative. -/
def b64Add (x y : B64) : B64 :=
  match b64View x, b64View y with
  | .nan, _ => b64NaN
  | _, .nan => b64NaN
  | .inf a, .inf b => if a = b then b64Inf a else b64NaN
  | .inf a, .finite _ _ _ => b64Inf a
  | .finite _ _ _, .inf b => b64Inf b
  | .finite a n d, .finite b m k =>
    let z := signedInt a n * k + signedInt b m * d
    if z = 0 then b64Zero (a && b) else b64Round (decide (z < 0)) z.natAbs (d * k)

/-- `y` with its sign changed. -/
def b64Neg (y : B64) : B64 := y ^^^ b64Zero true

/-- `F.sub` of `NUM_B64`. -/
def b64Sub (x y : B64) : B64 := b64Add x (b64Neg y)

/-- `F.mul` of `NUM_B64`. -/
def b64Mul (x y : B64) : B64 :=
  match b64View x, b64View y with
  | .nan, _ => b64NaN
  | _, .nan => b64NaN
  | .inf a, .inf b => b64Inf (a ^^ b)
  | .inf a, .finite b m _ => if m = 0 then b64NaN else b64Inf (a ^^ b)
  | .finite a n _, .inf b => if n = 0 then b64NaN else b64Inf (a ^^ b)
  | .finite a n d, .finite b m k => b64Round (a ^^ b) (n * m) (d * k)

/-- `F.div` of `NUM_B64`. No rule divides by zero (00_scope.md rule R8). -/
def b64Div (x y : B64) : B64 :=
  match b64View x, b64View y with
  | .nan, _ => b64NaN
  | _, .nan => b64NaN
  | .inf _, .inf _ => b64NaN
  | .inf a, .finite b _ _ => b64Inf (a ^^ b)
  | .finite a _ _, .inf b => b64Zero (a ^^ b)
  | .finite a n d, .finite b m k =>
    if m = 0 then (if n = 0 then b64NaN else b64Inf (a ^^ b)) else b64Round (a ^^ b) (n * k) (d * m)

end Sys2Proof.Machine
end

