-- ==== Sys2Proof/Config.lean ====
section
/-! DEFINITION. What the block does not fix itself: the environment behind BUS (20_memory.md rules R40 and R44),
the parameters of 00_scope.md rule R5, and the two free values of the model, which have no body. -/

namespace Sys2Proof

/-- A bus transaction as the block requests it: one byte read, or one byte written
(20_memory.md rule R40: kind, dev, reg, and for a write the value). -/
inductive Txn where
  | read (dev reg : Byte)
  | write (dev reg value : Byte)
  deriving DecidableEq, Repr

/-- The environment's answer to a transaction (20_memory.md rules R40 and R44). A read answered `ok b` delivers the
byte `b`. A write answered `ok b` succeeds, and the byte of that answer is not looked at. `error` is the
transport error of either. -/
inductive Answer where
  | ok (byte : Byte)
  | error
  deriving DecidableEq, Repr, Inhabited

/-- One transaction as it went over BUS, with the value of LOCK during it (20_memory.md rules R47 and R52). -/
structure Event where
  lock : Bool
  txn : Txn
  answer : Answer
  deriving DecidableEq, Repr

/-- `NUMERICS` (00_scope.md rules R5 and R8): the chosen instance `NUM_B64` and the reference instance `NUM_Q`. -/
inductive Numerics where
  | b64
  | q
  deriving DecidableEq, Repr

/-- `POLL_LIMIT` (00_scope.md rule R5): `INF`, or the largest number of status reads of one HT read command. -/
inductive PollLimit where
  | inf
  | reads (n : Nat)
  deriving DecidableEq, Repr

/-- The `CAL_A_*` parameters (00_scope.md rule R5): the address of each calibration item; for the last four it is the
address of the low byte, and the high byte is at the next address. -/
structure CalMap where
  hp0 : Byte
  hp1 : Byte
  tp0 : Byte
  tp1 : Byte
  tmsb : Byte
  ho0 : Byte
  ho1 : Byte
  to0 : Byte
  to1 : Byte
  deriving DecidableEq, Repr

/-- The parameters a model takes as arguments (00_scope.md rule R5). -/
structure Params where
  numerics : Numerics
  pollLimit : PollLimit
  calMap : CalMap
  deriving DecidableEq, Repr

/-- FREE VALUE (log entry 2; 20_memory.md rule R44): what the environment answers to a transaction that the queue
`State.answers` says nothing about. It may depend on the whole history of the bus. No body: nothing can be proved
of its value. -/
opaque Config.busAnswer : List Event → Txn → Answer

/-- FREE VALUE (log entry 3; 00_scope.md rule R5, `POLL_LIMIT` is OPEN). No body. -/
opaque Config.pollLimitChoice : Option Nat

/-- `POLL_LIMIT` of the machine after reset: `INF` or a positive integer, and nothing says which. -/
def Config.pollLimit : PollLimit :=
  match Config.pollLimitChoice with
  | none => .inf
  | some n => .reads (n + 1)

end Sys2Proof
end

