-- ==== Sys2Proof/Machine/Regs.lean ====
section
/-! DEFINITION. The constants of the block: device addresses, identity bytes, register offsets, masks, multipliers
(00_scope.md rule R5, 10_state.md rule R31, 20_memory.md rule R43). -/

namespace Sys2Proof.Machine

/-- `PT_DEV` (00_scope.md rule R5). -/
def ptDev : Byte := 0x5D
/-- `HT_DEV` (00_scope.md rule R5). -/
def htDev : Byte := 0x5F
/-- `PT_ID`, which the block itself never compares (00_scope.md rule R5, 40_pressure_temp.md rule R105). -/
def ptId : Byte := 0xBD
/-- `HT_ID` (00_scope.md rule R5). -/
def htId : Byte := 0xBC
/-- `MUL8` (00_scope.md rule R5). -/
def mul8 : Int := 255
/-- `MUL16` (00_scope.md rule R5). -/
def mul16 : Int := 65535

/-- `PT_WHOAMI` and `HT_WHOAMI`: the identity register of either sensor (20_memory.md rule R43). -/
def regWhoami : Byte := 0x0F
/-- `PT_CTRL` and `HT_CTRL1`: the control register of either sensor (20_memory.md rule R43). -/
def regCtrl : Byte := 0x20
/-- `PT_STATUS` and `HT_STATUS`: the status register of either sensor (20_memory.md rule R43). -/
def regStatus : Byte := 0x27
/-- `PT_P_LO` (20_memory.md rule R43). -/
def ptPLo : Byte := 0x28
/-- `PT_P_MID` (20_memory.md rule R43). -/
def ptPMid : Byte := 0x29
/-- `PT_P_HI` (20_memory.md rule R43). -/
def ptPHi : Byte := 0x2A
/-- `PT_T_LO` (20_memory.md rule R43). -/
def ptTLo : Byte := 0x2B
/-- `PT_T_HI` (20_memory.md rule R43). -/
def ptTHi : Byte := 0x2C
/-- `HT_H_LO` (20_memory.md rule R43). -/
def htHLo : Byte := 0x28
/-- `HT_H_HI` (20_memory.md rule R43). -/
def htHHi : Byte := 0x29
/-- `HT_T_LO` (20_memory.md rule R43). -/
def htTLo : Byte := 0x2A
/-- `HT_T_HI` (20_memory.md rule R43). -/
def htTHi : Byte := 0x2B

/-- The power-up and output-data-rate bits of the PT control register (10_state.md rule R31). -/
def ptPowerOdr : Byte := 0xB0
/-- The power-up bit of HT control register 1 (10_state.md rule R31). -/
def htPower : Byte := 0x80
/-- The power-up and ODR bits of HT control register 1 (41_humidity_control.md rule R122). -/
def htPowerOdr : Byte := 0x81
/-- The block-data-update bit of HT control register 1 (10_state.md rule R31). -/
def htBdu : Byte := 0x04

/-- The default `CAL_A_*` addresses (00_scope.md rule R5, 20_memory.md rule R43; PRESUMED by the spec, log entry 4). -/
def defaultCalMap : CalMap where
  hp0 := 0x30
  hp1 := 0x31
  tp0 := 0x32
  tp1 := 0x33
  tmsb := 0x35
  ho0 := 0x36
  ho1 := 0x3A
  to0 := 0x3C
  to1 := 0x3E

end Sys2Proof.Machine
end

