-- ==== Sys2Proof/Syntax.lean ====
section
/-! DEFINITION. The commands of the block, one constructor per row of the opcode table (30_encoding.md rule R72). -/

namespace Sys2Proof

/-- The rows of 30_encoding.md rule R72. Only HT.SETBDU has an operand, the argument bit `A` (rule R71). HT.CAL is
the internal sequence of 42_calibration_unpack.md rule R146. -/
inductive Instr where
  | ptInit
  | ptIdent
  | ptRdtc
  | ptRdtf
  | ptRdpm
  | htInit
  | htPdown
  | htAct
  | htSetbdu (a : Bool)
  | htCal
  | htRdh
  | htRdtc
  deriving DecidableEq, Repr

end Sys2Proof
end

