-- ==== Sys2Proof/Machine/State.lean ====
section
/-! DEFINITION. The state of the block (10_state.md rule R20) with the model's own fields beside it, the reasons a step can
stop, and the reset state (10_state.md rule R34). -/

namespace Sys2Proof.Machine

/-- `HT_STATE` (10_state.md rule R23). -/
inductive HtState where
  | uninit
  | inited
  | active
  | pdown
  deriving DecidableEq, Repr

/-- `RES.status` (60_exceptions.md rule R200). -/
inductive Status where
  | ok
  | notReady
  | idMismatch
  | transportErr
  | calErr
  | timeout
  | stateErr
  | illegalCmd
  deriving DecidableEq, Repr

/-- One number of type `F` (00_scope.md rule R8): a binary64 pattern under `NUM_B64`, a rational under `NUM_Q`
(30_encoding.md rule R77). -/
inductive FNum where
  | b64 (bits : B64)
  | q (r : Rat)
  deriving DecidableEq, Repr

/-- The calibration register file `CAL` (10_state.md rule R21). `none`: nothing written since it was last emptied. -/
structure Cal where
  hp0 : Option Byte
  hp1 : Option Byte
  tp0 : Option Code10
  tp1 : Option Code10
  ho0 : Option Code16
  ho1 : Option Code16
  to0 : Option Code16
  to1 : Option Code16
  deriving DecidableEq, Repr

/-- The result register `RES` (10_state.md rule R28). -/
structure Res where
  status : Option Status
  byte : Option Byte
  value : Option FNum
  deriving DecidableEq, Repr

/-- The whole state. The first six fields are the block's (10_state.md rule R20); the others are the model's own: the
command in execution (rule R27), the words the host has still to present (30_encoding.md rule R70), the environment's
answers fixed in advance and the history of the bus (20_memory.md rules R44 and R47), the parameters (00_scope.md rule R5). -/
structure State where
  cal : Cal
  htState : HtState
  res : Res
  busy : Bool
  lock : Bool
  pollCnt : Nat
  running : Option Instr
  cmd : List Byte
  answers : List Answer
  events : List Event
  params : Params
  deriving DecidableEq, Repr

/-- Why the machine stops. No run from reset that goes through `step` reaches any of the four. -/
inductive Fault where
  /-- Raised by every command presented while `BUSY = 1`: it has no step (60_exceptions.md rule R212). Safe: the machine stops. -/
  | commandWhileBusy
  /-- Raised by HT.RDH and HT.RDTC in `ACTIVE` with an empty `CAL` register, which 10_state.md rule R24 excludes, by `step` and
  by `blockStep` alike. Safe. -/
  | emptyCalRead
  /-- Raised by a step with `BUSY = 1` and no status poll in progress, and by a step of the transaction level with `BUSY = 1` and
  no line left; no step leaves either behind. Safe. -/
  | lostPosition
  /-- Raised by the host's read of RES while `BUSY = 1` (10_state.md rule R28); no step raises it. Safe. -/
  | resReadWhileBusy
  deriving DecidableEq, Repr

/-- Why something is given no meaning. -/
inductive Refusal where
  /-- Raised by an arm of `exec` whose instruction has no meaning yet; no arm is left so. Safe. -/
  | notModelled (mnemonic : String)
  /-- Raised by the host's read of RES before the first command has finished (93_implementation_defined.md U12); no step
  raises it. Safe. -/
  | resNotYetWritten
  deriving DecidableEq, Repr

/-- `CAL[*]` all `none` (10_state.md rule R22). -/
def Cal.empty : Cal := ⟨none, none, none, none, none, none, none, none⟩

/-- The state after reset (10_state.md rule R34, 70_reset_and_hazards.md rule R240). `pollCnt`: DESIGN CHOICE, the spec leaves
it unspecified (log entry 6). The fields after it are the model's own (log entries 2 to 5, 12, 14). -/
def State.reset : State where
  cal := Cal.empty
  htState := .uninit
  res := ⟨none, none, none⟩
  busy := false
  lock := false
  pollCnt := 0
  running := none
  cmd := []
  answers := []
  events := []
  params := ⟨.b64, Config.pollLimit, defaultCalMap⟩

end Sys2Proof.Machine
end

