-- ==== Sys2Proof/Machine/Number.lean ====
section
/-! DEFINITION. Numbers of type `F` (00_scope.md rule R8). A formula of a rule is a tree of the six operations, so that its
order of evaluation and its roundings are fixed; the tree is evaluated in the instance that `NUMERICS` names. -/

namespace Sys2Proof.Machine

/-- A decimal literal `mantissa / 10 ^ scale`: `F.lit("-273.15")` is `⟨-27315, 2⟩`. -/
structure Decimal where
  mantissa : Int
  scale : Nat
  deriving DecidableEq, Repr

/-- The trees of operations of 00_scope.md rule R8. -/
inductive FExpr where
  | ofInt (z : Int)
  | lit (d : Decimal)
  | add (a b : FExpr)
  | sub (a b : FExpr)
  | mul (a b : FExpr)
  | div (a b : FExpr)
  deriving DecidableEq, Repr

/-- The value of a tree in `NUM_B64`. -/
def evalB64 : FExpr → B64
  | .ofInt z => b64OfInt z
  | .lit d => b64OfDecimal d.mantissa d.scale
  | .add a b => b64Add (evalB64 a) (evalB64 b)
  | .sub a b => b64Sub (evalB64 a) (evalB64 b)
  | .mul a b => b64Mul (evalB64 a) (evalB64 b)
  | .div a b => b64Div (evalB64 a) (evalB64 b)

/-- The value of a tree in `NUM_Q`: all six operations are exact. -/
def evalQ : FExpr → Rat
  | .ofInt z => z
  | .lit d => (d.mantissa : Rat) / ((10 ^ d.scale : Nat) : Rat)
  | .add a b => evalQ a + evalQ b
  | .sub a b => evalQ a - evalQ b
  | .mul a b => evalQ a * evalQ b
  | .div a b => evalQ a / evalQ b

/-- The value of a tree in the instance `NUMERICS` names. -/
def evalF (n : Numerics) (e : FExpr) : FNum :=
  match n with
  | .b64 => .b64 (evalB64 e)
  | .q => .q (evalQ e)

end Sys2Proof.Machine
end

