-- ==== Sys2Proof/Machine/Ops.lean ====
section
/-! DEFINITION. The named operations over the state: field writes, `finish` and `raise` (00_scope.md rule R9), acceptance of a
command (10_state.md rule R29), the two bus transactions (20_memory.md rule R40), the locked sequences (rules R52 and R53). -/

namespace Sys2Proof.Machine

/-! Field writes. -/

def State.setCal (c : Cal) (s : State) : State := { s with cal := c }
def State.setHtState (h : HtState) (s : State) : State := { s with htState := h }
def State.setLock (b : Bool) (s : State) : State := { s with lock := b }
def State.setPollCnt (n : Nat) (s : State) : State := { s with pollCnt := n }
def State.setCmd (c : List Byte) (s : State) : State := { s with cmd := c }

/-- Acceptance of a command (10_state.md rule R29): `BUSY` is 1 from here until the command's `finish`. -/
def State.accept (i : Instr) (s : State) : State := { s with busy := true, running := some i }

/-- `finish(status, byte, value)` (00_scope.md rule R9). -/
def State.finish (st : Status) (byte : Option Byte) (value : Option FNum) (s : State) : State :=
  { s with res := ⟨some st, byte, value⟩, lock := false, busy := false, running := none }

/-- TAKING AN EXCEPTION (60_exceptions.md rule R210): nothing is saved and control goes nowhere. The command ends with the
exception's status, no byte and no value; `LOCK` and `BUSY` are cleared. What else the raising rule changes it has changed
before. There is no return from an exception (rule R211): the block is idle and takes the next command. -/
def State.raise (st : Status) (s : State) : State := s.finish st none none

/-- `finish` with a reading: the value of the formula's tree in the instance `NUMERICS` names (00_scope.md rule R8). -/
def State.deliver (st : Status) (e : FExpr) (s : State) : State :=
  s.finish st none (some (evalF s.params.numerics e))

/-! The bus. -/

/-- The environment's answer to a transaction (20_memory.md rule R44): the next one of the queue, and where the queue is
empty the free value `Config.busAnswer` of the history so far. -/
def nextAnswer (q : List Answer) (h : List Event) (t : Txn) : Answer :=
  match q with
  | a :: _ => a
  | [] => Config.busAnswer h t

/-- One transaction over BUS, with its answer taken and the history extended (20_memory.md rules R40 and R48). -/
def State.transact (t : Txn) (s : State) : State :=
  { s with
    answers := s.answers.tail
    events := s.events ++ [⟨s.lock, t, nextAnswer s.answers s.events t⟩] }

/-- What a sequence of transactions gives: its result, or a transport error at the transaction where the state stands
(20_memory.md rule R51: nothing later is issued). -/
inductive Reply (α : Type) where
  | ok (a : α) (s : State)
  | err (s : State)
  deriving DecidableEq, Repr

/-- Go on where there was no transport error (20_memory.md rules R48 and R51). -/
def Reply.andThen {α β : Type} (r : Reply α) (k : α → State → Reply β) : Reply β :=
  match r with
  | .ok a s => k a s
  | .err s => .err s

/-- The end of a command whose transport error has no effect of its own (60_exceptions.md rule R203). -/
def Reply.close {α : Type} (r : Reply α) (k : α → State → State) : State :=
  match r with
  | .ok a s => k a s
  | .err s => s.raise .transportErr

/-- `BusRead(dev, reg)` (00_scope.md rule R9, 20_memory.md rule R40). A failed read delivers no byte
(92_eei_decisions.md D26). -/
def busRead (dev reg : Byte) (s : State) : Reply Byte :=
  match nextAnswer s.answers s.events (.read dev reg) with
  | .ok b => .ok b (s.transact (.read dev reg))
  | .error => .err (s.transact (.read dev reg))

/-- `BusWrite(dev, reg, v)` (00_scope.md rule R9, 20_memory.md rule R40). -/
def busWrite (dev reg v : Byte) (s : State) : Reply Unit :=
  match nextAnswer s.answers s.events (.write dev reg v) with
  | .ok _ => .ok () (s.transact (.write dev reg v))
  | .error => .err (s.transact (.write dev reg v))

/-- The byte a read-modify-write writes (20_memory.md rule R53). -/
def rmwByte (old setmask clrmask : Byte) : Byte := (old ||| setmask) &&& ~~~clrmask

/-- `RMW(dev, reg, setmask, clrmask)` (20_memory.md rule R53), locked (rule R52). -/
def rmw (dev reg setmask clrmask : Byte) (s : State) : Reply Unit :=
  (busRead dev reg (s.setLock true)).andThen fun old s =>
  (busWrite dev reg (rmwByte old setmask clrmask) s).andThen fun _ s =>
  .ok () (s.setLock false)

/-- The locked fetch of two bytes, in the order given (20_memory.md rules R49 and R52). -/
def fetch2 (dev r0 r1 : Byte) (s : State) : Reply (Byte × Byte) :=
  (busRead dev r0 (s.setLock true)).andThen fun b0 s =>
  (busRead dev r1 s).andThen fun b1 s =>
  .ok (b0, b1) (s.setLock false)

/-- The locked fetch of three bytes, in the order given (20_memory.md rules R49 and R52). -/
def fetch3 (dev r0 r1 r2 : Byte) (s : State) : Reply (Byte × Byte × Byte) :=
  (busRead dev r0 (s.setLock true)).andThen fun b0 s =>
  (busRead dev r1 s).andThen fun b1 s =>
  (busRead dev r2 s).andThen fun b2 s =>
  .ok (b0, b1, b2) (s.setLock false)

/-! Commands. -/

/-- A command presented on CMD: with `BUSY = 1` it has no step (60_exceptions.md rule R212), else it is accepted. -/
def startCommand (i : Instr) (s : State) (body : State → Host.Outcome State Fault Refusal) :
    Host.Outcome State Fault Refusal :=
  if s.busy then .fault .commandWhileBusy else body (s.accept i)

/-- A command whose body always comes to an end. -/
def runCommand (i : Instr) (s : State) (body : State → State) : Host.Outcome State Fault Refusal :=
  startCommand i s fun s => .next (body s)

/-- `HT_REQUIRE({INITED, ACTIVE, PDOWN})` (41_humidity_control.md rule R125). -/
def requireInited (s : State) (body : State → State) : State :=
  if s.htState = .uninit then s.raise .stateErr else body s

/-- `HT_REQUIRE({ACTIVE})` (41_humidity_control.md rule R125). -/
def requireActive (s : State) (body : State → Host.Outcome State Fault Refusal) :
    Host.Outcome State Fault Refusal :=
  if s.htState = .active then body s else .next (s.raise .stateErr)

/-- An illegal command word (30_encoding.md rule R74): no transaction, and nothing but `RES` changes. -/
def illegalCommand (s : State) : State := s.raise .illegalCmd

/-! The host's side of RES. -/

/-- The host's read of RES (10_state.md rule R28): only while `BUSY = 0`, and not before the first command has finished
(rule R34, 93_implementation_defined.md U12). It changes nothing. -/
def hostReadRes (s : State) : Host.Outcome Res Fault Refusal :=
  if s.busy then .fault .resReadWhileBusy
  else if s.res.status = none then .refused .resNotYetWritten
  else .next s.res

end Sys2Proof.Machine
end

