-- ==== Sys2Proof/Machine/HtCal.lean ====
section
/-! DEFINITION. The calibration sequence HT.CAL (42_calibration_unpack.md rules R144 to R147). -/

namespace Sys2Proof.Machine

/-- The nine calibration items of 00_scope.md rule R5. -/
inductive CalItem where
  | hp0 | hp1 | tp0 | tp1 | tmsb | ho0 | ho1 | to0 | to1
  deriving DecidableEq, Repr

/-- The items in the order in which 00_scope.md rule R5 names them. -/
def calItems : List CalItem := [.hp0, .hp1, .tp0, .tp1, .tmsb, .ho0, .ho1, .to0, .to1]

/-- The parameter `CAL_A_*` of an item. -/
def calItemAddr (m : CalMap) : CalItem → Byte
  | .hp0 => m.hp0
  | .hp1 => m.hp1
  | .tp0 => m.tp0
  | .tp1 => m.tp1
  | .tmsb => m.tmsb
  | .ho0 => m.ho0
  | .ho1 => m.ho1
  | .to0 => m.to0
  | .to1 => m.to1

/-- The items that are a pair of bytes, the low one at the parameter and the high one after it (00_scope.md rule R5). -/
def calItemPaired : CalItem → Bool
  | .ho0 => true
  | .ho1 => true
  | .to0 => true
  | .to1 => true
  | _ => false

/-- Put an item among items in ascending address. -/
def insertItem (m : CalMap) (i : CalItem) : List CalItem → List CalItem
  | [] => [i]
  | j :: js => if calItemAddr m i ≤ calItemAddr m j then i :: j :: js else j :: insertItem m i js

/-- The items in ascending register address (42_calibration_unpack.md rule R146). -/
def calOrder (m : CalMap) : List CalItem := calItems.foldr (insertItem m) []

/-- The thirteen bytes, under the names of 42_calibration_unpack.md rule R146. -/
structure CalBytes where
  h0 : Byte
  h1 : Byte
  t0 : Byte
  t1 : Byte
  m : Byte
  a0 : Byte
  a1 : Byte
  b0 : Byte
  b1 : Byte
  c0 : Byte
  c1 : Byte
  d0 : Byte
  d1 : Byte
  deriving DecidableEq, Repr

/-- Where the collection starts; every item is read, so none of these bytes is left. -/
def noCalBytes : CalBytes := ⟨0, 0, 0, 0, 0, 0, 0, 0, 0, 0, 0, 0, 0⟩

/-- The bytes with those of one item put in (`hi` only for a pair). -/
def putItem (i : CalItem) (lo hi : Byte) (r : CalBytes) : CalBytes :=
  match i with
  | .hp0 => { r with h0 := lo }
  | .hp1 => { r with h1 := lo }
  | .tp0 => { r with t0 := lo }
  | .tp1 => { r with t1 := lo }
  | .tmsb => { r with m := lo }
  | .ho0 => { r with a0 := lo, a1 := hi }
  | .ho1 => { r with b0 := lo, b1 := hi }
  | .to0 => { r with c0 := lo, c1 := hi }
  | .to1 => { r with d0 := lo, d1 := hi }

/-- Read one item: a pair inside a critical section of its own, a single byte outside any (20_memory.md rule R52). -/
def readItem (m : CalMap) (i : CalItem) (r : CalBytes) (s : State) : Reply CalBytes :=
  if calItemPaired i then
    (fetch2 htDev (calItemAddr m i) (calItemAddr m i + 1) s).andThen fun b s => .ok (putItem i b.1 b.2 r) s
  else
    (busRead htDev (calItemAddr m i) s).andThen fun b s => .ok (putItem i b 0 r) s

/-- Read the items of a list, one after the other. -/
def readItems (m : CalMap) : List CalItem → CalBytes → State → Reply CalBytes
  | [], r, s => .ok r s
  | i :: is, r, s => (readItem m i r s).andThen fun r s => readItems m is r s

/-- The eight registers from the thirteen bytes (42_calibration_unpack.md rule R146). -/
def unpackCal (r : CalBytes) : Cal where
  hp0 := some r.h0
  hp1 := some r.h1
  tp0 := some (assemble10 r.t0 (msb0 r.m))
  tp1 := some (assemble10 r.t1 (msb1 r.m))
  ho0 := some (compose16 r.a0 r.a1)
  ho1 := some (compose16 r.b0 r.b1)
  to0 := some (compose16 r.c0 r.c1)
  to1 := some (compose16 r.d0 r.d1)

/-- The sequence of 42_calibration_unpack.md rule R146: thirteen reads, and only when all have succeeded the eight
writes of `CAL`. -/
def calibrate (s : State) : Reply Unit :=
  (readItems s.params.calMap (calOrder s.params.calMap) noCalBytes s).andThen fun r s =>
    .ok () (s.setCal (unpackCal r))

/-- What a transport error does inside HT.ACT (41_humidity_control.md rule R122): `INITED`, `CAL` empty. -/
def activationFails (s : State) : State :=
  ((s.setHtState .inited).setCal Cal.empty).raise .transportErr

/-- HT.CAL (42_calibration_unpack.md rule R146). It runs only as a step of HT.ACT; presented on CMD it is illegal
(30_encoding.md rule R74). On success it writes no `RES` and makes no `finish`; a transport error is handled as HT.ACT
does (log entry 7). -/
def execHtCal (s : State) : Host.Outcome State Fault Refusal :=
  if s.busy then
    if s.running = some .htAct then
      match calibrate s with
      | .ok _ s => .next s
      | .err s => .next (activationFails s)
    else .fault .commandWhileBusy
  else .next (illegalCommand s)

end Sys2Proof.Machine
end

