-- ==== Sys2Proof/Machine/HtControl.lean ====
section
/-! DEFINITION. The control commands of the HT unit (41_humidity_control.md rules R120 to R125). -/

namespace Sys2Proof.Machine

/-- The state HT.INIT leaves: from `UNINIT` it is `INITED`, any other is unchanged (41_humidity_control.md rule R120). -/
def initedFrom (h : HtState) : HtState := if h = .uninit then .inited else h

/-- HT.INIT (41_humidity_control.md rule R120): the state moves whether or not the byte matches. -/
def execHtInit (s : State) : Host.Outcome State Fault Refusal :=
  runCommand .htInit s fun s =>
    (busRead htDev regWhoami s).close fun b s =>
      (s.setHtState (initedFrom s.htState)).finish (if b = htId then .ok else .idMismatch) (some b) none

/-- HT.PDOWN (41_humidity_control.md rule R121): the calibration is stale from the read on, whatever the write answers. -/
def execHtPdown (s : State) : Host.Outcome State Fault Refusal :=
  runCommand .htPdown s fun s => requireInited s fun s =>
    ((busRead htDev regCtrl (s.setLock true)).andThen fun old s =>
      (busWrite htDev regCtrl (rmwByte old 0 htPower) ((s.setCal Cal.empty).setHtState .pdown)).andThen fun _ s =>
        .ok () (s.setLock false)).close fun _ s => s.finish .ok none none

/-- HT.ACT (41_humidity_control.md rule R122). -/
def execHtAct (s : State) : Host.Outcome State Fault Refusal :=
  runCommand .htAct s fun s => requireInited s fun s =>
    match (rmw htDev regCtrl htPowerOdr 0 (s.setCal Cal.empty)).andThen fun _ s => calibrate s with
    | .ok _ s => (s.setHtState .active).finish .ok none none
    | .err s => activationFails s

/-- HT.SETBDU (41_humidity_control.md rule R123). -/
def execHtSetbdu (a : Bool) (s : State) : Host.Outcome State Fault Refusal :=
  runCommand (.htSetbdu a) s fun s => requireInited s fun s =>
    (if a then rmw htDev regCtrl htBdu 0 s else rmw htDev regCtrl 0 htBdu s).close fun _ s => s.finish .ok none none

end Sys2Proof.Machine
end

