-- ==== Sys2Proof/Machine/Convert.lean ====
section
/-! DEFINITION. The conversion formulas, each the tree of operations its rule writes (40_pressure_temp.md rules R101 to R103,
43_interpolation.md rules R160 to R163). Integers are unbounded (00_scope.md rule R7). -/

namespace Sys2Proof.Machine

/-- `F.lit("42.5")` -/
def lit42p5 : FExpr := .lit ⟨425, 1⟩
/-- `F.lit("480.0")` -/
def lit480p0 : FExpr := .lit ⟨4800, 1⟩
/-- `F.lit("4096.0")` -/
def lit4096p0 : FExpr := .lit ⟨40960, 1⟩
/-- `F.lit("1.8")` -/
def lit1p8 : FExpr := .lit ⟨18, 1⟩
/-- `F.lit("32")` -/
def lit32 : FExpr := .lit ⟨32, 0⟩
/-- `F.lit("-273.15")`, the temperature sentinel (60_exceptions.md rule R201) -/
def sentinelC : FExpr := .lit ⟨-27315, 2⟩
/-- `F.lit("-1")`, the pressure sentinel (60_exceptions.md rule R201) -/
def sentinelMbar : FExpr := .lit ⟨-1, 0⟩
/-- `"8.0"`, the scale of the temperature points (43_interpolation.md rule R162) -/
def scaleTemp : Decimal := ⟨80, 1⟩
/-- `"2"`, the scale of the humidity points (43_interpolation.md rule R163) -/
def scaleHum : Decimal := ⟨2, 0⟩

/-- The integer `v` of 40_pressure_temp.md rule R101. -/
def ptTempInt (lo hi : Byte) : Int := hi.toNat * mul8 + lo.toNat - 65536

/-- `PT_TEMP_C(lo, hi)` (40_pressure_temp.md rule R101). -/
def ptTempC (lo hi : Byte) : FExpr := .add lit42p5 (.div (.ofInt (ptTempInt lo hi)) lit480p0)

/-- The integer `n` of 40_pressure_temp.md rule R102. -/
def ptPressInt (lo mid hi : Byte) : Int := hi.toNat * mul16 + mid.toNat * mul8 + lo.toNat

/-- `PT_PRESS_MBAR(lo, mid, hi)` (40_pressure_temp.md rule R102). -/
def ptPressMbar (lo mid hi : Byte) : FExpr := .div (.ofInt (ptPressInt lo mid hi)) lit4096p0

/-- `C2F(c)` (40_pressure_temp.md rule R103), for the number the tree `c` stands for. -/
def c2f (c : FExpr) : FExpr := .add (.mul c lit1p8) lit32

/-- `INTERP2(raw, out0, out1, p0, p1, S)` (43_interpolation.md rule R161): integer differences first, then
`((raw - out0) * span) / (out1 - out0) + p0 / S` from left to right. -/
def interp2 (raw out0 out1 p0 p1 : Int) (scale : Decimal) : FExpr :=
  .add
    (.div (.mul (.ofInt (raw - out0)) (.div (.ofInt (p1 - p0)) (.lit scale))) (.ofInt (out1 - out0)))
    (.div (.ofInt p0) (.lit scale))

/-- The two channels of the HT unit. -/
inductive Channel where
  | hum
  | temp
  deriving DecidableEq, Repr

/-- The calibration of one channel: the four codes its conversion reads (10_state.md rule R22), as unsigned integers. -/
structure ChannelCal where
  out0 : Int
  out1 : Int
  p0 : Int
  p1 : Int
  deriving DecidableEq, Repr

/-- The registers of `CAL` a channel's conversion reads (10_state.md rule R22); `none` if one of them is empty. -/
def channelCal (ch : Channel) (c : Cal) : Option ChannelCal :=
  match ch with
  | .hum =>
    match c.ho0, c.ho1, c.hp0, c.hp1 with
    | some o0, some o1, some p0, some p1 => some ⟨o0.toNat, o1.toNat, p0.toNat, p1.toNat⟩
    | _, _, _, _ => none
  | .temp =>
    match c.to0, c.to1, c.tp0, c.tp1 with
    | some o0, some o1, some p0, some p1 => some ⟨o0.toNat, o1.toNat, p0.toNat, p1.toNat⟩
    | _, _, _, _ => none

/-- The scale literal of a channel (43_interpolation.md rules R162 and R163). -/
def channelScale : Channel → Decimal
  | .hum => scaleHum
  | .temp => scaleTemp

/-- The span `d = out1 - out0` (43_interpolation.md rule R160). -/
def ChannelCal.span (k : ChannelCal) : Int := k.out1 - k.out0

/-- `INTERP_H(raw)` and `INTERP_T(raw)` (43_interpolation.md rules R162 and R163). -/
def interpChannel (ch : Channel) (k : ChannelCal) (raw : Code16) : FExpr :=
  interp2 raw.toNat k.out0 k.out1 k.p0 k.p1 (channelScale ch)

end Sys2Proof.Machine
end

