-- ==== Sys2Proof/Machine/Flags.lean ====
section
/-! DEFINITION. The block has no flags (10_state.md rule R30). Here stand the codes of the two small registers, `RES.status` and
`HT_STATE`, and the ready bits of a sensor's status byte, which are looked at and never held. -/

namespace Sys2Proof.Machine

/-- The 4-bit code of a status (30_encoding.md rule R76, 60_exceptions.md rule R200). -/
def statusCode : Status → BitVec 4
  | .ok => 0
  | .notReady => 1
  | .idMismatch => 2
  | .transportErr => 3
  | .calErr => 4
  | .timeout => 5
  | .stateErr => 6
  | .illegalCmd => 7

/-- The 2-bit code of a state (10_state.md rule R23). -/
def htStateCode : HtState → BitVec 2
  | .uninit => 0
  | .inited => 1
  | .active => 2
  | .pdown => 3

/-- Bit 0 of a status byte: a temperature sample is ready, on either sensor (10_state.md rule R31). -/
def tempReady (s : Byte) : Bool := s.getLsbD 0

/-- Bit 1 of the PT status byte: a pressure sample is ready (10_state.md rule R31). -/
def pressReady (s : Byte) : Bool := s.getLsbD 1

/-- Bit 1 of the HT status byte: a humidity sample is ready (10_state.md rule R31). -/
def humReady (s : Byte) : Bool := s.getLsbD 1

end Sys2Proof.Machine
end

