-- ==== Sys2Proof/Machine/HtRead.lean ====
section
/-! DEFINITION. The read commands of the HT unit (43_interpolation.md rules R160 to R168). The status poll of rule R165 is a
loop that need not end: one turn of it is one step of the machine, and between two turns `BUSY` is 1 (log entry 1). -/

namespace Sys2Proof.Machine

/-- The ready bit a channel polls (43_interpolation.md rules R166 and R167). -/
def channelReady : Channel → Byte → Bool
  | .hum => humReady
  | .temp => tempReady

/-- The register of the low byte of a channel's sample (20_memory.md rule R43). -/
def channelLo : Channel → Byte
  | .hum => htHLo
  | .temp => htTLo

/-- The register of the high byte of a channel's sample (20_memory.md rule R43). -/
def channelHi : Channel → Byte
  | .hum => htHHi
  | .temp => htTHi

/-- The end of a read command once the raw code is composed: the span check of 43_interpolation.md rule R160, then the
interpolation. An empty register of `CAL` is excluded by 10_state.md rule R24 (log entry 9). -/
def convertSample (ch : Channel) (raw : Code16) (s : State) : Host.Outcome State Fault Refusal :=
  match channelCal ch s.cal with
  | none => .fault .emptyCalRead
  | some k => .next (if k.span = 0 then s.raise .calErr else s.deliver .ok (interpChannel ch k raw))

/-- The locked fetch of the sample, and its conversion (43_interpolation.md rules R166 and R167). -/
def fetchSample (ch : Channel) (s : State) : Host.Outcome State Fault Refusal :=
  match fetch2 htDev (channelLo ch) (channelHi ch) s with
  | .ok b s => convertSample ch (compose16 b.1 b.2) s
  | .err s => .next (s.raise .transportErr)

/-- `POLL_LIMIT != INF and POLLCNT = POLL_LIMIT` (43_interpolation.md rule R165). -/
def pollExhausted (s : State) : Bool :=
  match s.params.pollLimit with
  | .inf => false
  | .reads n => s.pollCnt == n

/-- One turn of the loop of 43_interpolation.md rule R165. If the bit is 1 the command runs to its end; if not, the next
step makes the next turn. -/
def pollTurn (ch : Channel) (s : State) : Host.Outcome State Fault Refusal :=
  if pollExhausted s then .next (s.raise .timeout)
  else
    match busRead htDev regStatus s with
    | .err s => .next (s.raise .transportErr)
    | .ok b s =>
      if channelReady ch b then fetchSample ch (s.setPollCnt (s.pollCnt + 1))
      else .next (s.setPollCnt (s.pollCnt + 1))

/-- HT.RDH (43_interpolation.md rule R166). -/
def execHtRdh (s : State) : Host.Outcome State Fault Refusal :=
  startCommand .htRdh s fun s => requireActive s fun s => pollTurn .hum (s.setPollCnt 0)

/-- HT.RDTC (43_interpolation.md rule R167). -/
def execHtRdtc (s : State) : Host.Outcome State Fault Refusal :=
  startCommand .htRdtc s fun s => requireActive s fun s => pollTurn .temp (s.setPollCnt 0)

/-- The step of a block with `BUSY = 1`: the next turn of the poll of the command in execution. -/
def resumePoll (s : State) : Host.Outcome State Fault Refusal :=
  match s.running with
  | some .htRdh => pollTurn .hum s
  | some .htRdtc => pollTurn .temp s
  | _ => .fault .lostPosition

end Sys2Proof.Machine
end

