-- ==== Sys2Proof/Machine/Pt.lean ====
section
/-! DEFINITION. The commands of the PT unit (40_pressure_temp.md rules R104 to R108). They hold no state and are legal in every
`HT_STATE` (10_state.md rule R25). -/

namespace Sys2Proof.Machine

/-- PT.INIT (40_pressure_temp.md rule R104). -/
def execPtInit (s : State) : Host.Outcome State Fault Refusal :=
  runCommand .ptInit s fun s =>
    (rmw ptDev regCtrl ptPowerOdr 0 s).close fun _ s => s.finish .ok none none

/-- PT.IDENT (40_pressure_temp.md rule R105): the byte is reported and not compared. -/
def execPtIdent (s : State) : Host.Outcome State Fault Refusal :=
  runCommand .ptIdent s fun s =>
    (busRead ptDev regWhoami s).close fun b s => s.finish .ok (some b) none

/-- The body of PT.RDTC up to its `finish` (40_pressure_temp.md rule R106): the status, and the Celsius reading or the
sentinel. -/
def ptTempReading (s : State) : Reply (Status × FExpr) :=
  (busRead ptDev regStatus s).andThen fun st s =>
    if tempReady st then
      (fetch2 ptDev ptTLo ptTHi s).andThen fun b s => .ok (.ok, ptTempC b.1 b.2) s
    else .ok (.notReady, sentinelC) s

/-- PT.RDTC (40_pressure_temp.md rule R106). -/
def execPtRdtc (s : State) : Host.Outcome State Fault Refusal :=
  runCommand .ptRdtc s fun s => (ptTempReading s).close fun r s => s.deliver r.1 r.2

/-- PT.RDTF (40_pressure_temp.md rule R107): the body of PT.RDTC, its value or sentinel converted. -/
def execPtRdtf (s : State) : Host.Outcome State Fault Refusal :=
  runCommand .ptRdtf s fun s => (ptTempReading s).close fun r s => s.deliver r.1 (c2f r.2)

/-- The body of PT.RDPM up to its `finish` (40_pressure_temp.md rule R108). -/
def ptPressReading (s : State) : Reply (Status × FExpr) :=
  (busRead ptDev regStatus s).andThen fun st s =>
    if pressReady st then
      (fetch3 ptDev ptPLo ptPMid ptPHi s).andThen fun b s => .ok (.ok, ptPressMbar b.1 b.2.1 b.2.2) s
    else .ok (.notReady, sentinelMbar) s

/-- PT.RDPM (40_pressure_temp.md rule R108). -/
def execPtRdpm (s : State) : Host.Outcome State Fault Refusal :=
  runCommand .ptRdpm s fun s => (ptPressReading s).close fun r s => s.deliver r.1 r.2

end Sys2Proof.Machine
end

