-- ==== Sys2Proof/Machine/Dispatch.lean ====
section
/-! DEFINITION. The meaning of every command, one arm per constructor. -/

namespace Sys2Proof.Machine

/-- A command run on the block: to its `finish`, or, for the HT reads, to the first status read without the ready bit. -/
def exec (i : Instr) (s : State) : Host.Outcome State Fault Refusal :=
  match i with
  | .ptInit => Sys2Proof.Machine.execPtInit s
  | .ptIdent => Sys2Proof.Machine.execPtIdent s
  | .ptRdtc => Sys2Proof.Machine.execPtRdtc s
  | .ptRdtf => Sys2Proof.Machine.execPtRdtf s
  | .ptRdpm => Sys2Proof.Machine.execPtRdpm s
  | .htInit => Sys2Proof.Machine.execHtInit s
  | .htPdown => Sys2Proof.Machine.execHtPdown s
  | .htAct => Sys2Proof.Machine.execHtAct s
  | .htSetbdu a => Sys2Proof.Machine.execHtSetbdu a s
  | .htCal => Sys2Proof.Machine.execHtCal s
  | .htRdh => Sys2Proof.Machine.execHtRdh s
  | .htRdtc => Sys2Proof.Machine.execHtRdtc s

end Sys2Proof.Machine
end

