-- ==== Sys2Proof/WellFormed.lean ====
section
/-! DEFINITION. Which commands the host may present (30_encoding.md rules R73 and R74), and which parameter values the spec
allows (00_scope.md rule R5, 20_memory.md rule R43). -/

namespace Sys2Proof

/-- A command the port accepts: every row of rule R72 but HT.CAL, which is internal (30_encoding.md rule R74). -/
def Instr.wellFormed : Instr → Bool
  | .ptInit => true
  | .ptIdent => true
  | .ptRdtc => true
  | .ptRdtf => true
  | .ptRdpm => true
  | .htInit => true
  | .htPdown => true
  | .htAct => true
  | .htSetbdu _ => true
  | .htCal => false
  | .htRdh => true
  | .htRdtc => true

/-- The thirteen calibration locations of a choice of the parameters (20_memory.md rule R43). -/
def CalMap.locations (m : CalMap) : List Byte :=
  [m.hp0, m.hp1, m.tp0, m.tp1, m.tmsb, m.ho0, m.ho0 + 1, m.ho1, m.ho1 + 1, m.to0, m.to0 + 1, m.to1, m.to1 + 1]

/-- All thirteen locations lie in 0x30..0x3F and are pairwise distinct (20_memory.md rule R43). -/
def CalMap.wellFormed (m : CalMap) : Bool :=
  m.locations.all (fun a => decide (0x30#8 ≤ a) && decide (a ≤ 0x3F#8)) && decide m.locations.Nodup

/-- A positive integer or `INF` (00_scope.md rule R5). -/
def PollLimit.wellFormed : PollLimit → Bool
  | .inf => true
  | .reads n => decide (0 < n)

/-- The parameter values 00_scope.md rule R5 allows. -/
def Params.wellFormed (p : Params) : Bool :=
  p.pollLimit.wellFormed && p.calMap.wellFormed

end Sys2Proof
end

