-- ==== Sys2Proof/Decode.lean ====
section
/-! DEFINITION. The command word `000UPPPA` (30_encoding.md rules R70 to R75): its fields, the decoder of rule R73, total
over the 256 words, and the encoder. -/

namespace Sys2Proof

/-- Bits [7:5], which must be 0 (30_encoding.md rule R70). -/
def wordZ (w : Byte) : BitVec 3 := w.extractLsb' 5 3

/-- Bit [4], the unit: `false` is PT, `true` is HT. -/
def wordU (w : Byte) : Bool := w.getLsbD 4

/-- Bits [3:1], the operation within the unit. -/
def wordOP (w : Byte) : BitVec 3 := w.extractLsb' 1 3

/-- Bit [0], the argument. -/
def wordA (w : Byte) : Bool := w.getLsbD 0

/-- The row of 30_encoding.md rule R72 at `(U, OP)`, with the argument bit. -/
def opcodeRow (u : Bool) (op : BitVec 3) (a : Bool) : Option Instr :=
  match u, op.toNat with
  | false, 0 => some .ptInit
  | false, 1 => some .ptIdent
  | false, 2 => some .ptRdtc
  | false, 3 => some .ptRdtf
  | false, 4 => some .ptRdpm
  | false, _ => none
  | true, 0 => some .htInit
  | true, 1 => some .htPdown
  | true, 2 => some .htAct
  | true, 3 => some (.htSetbdu a)
  | true, 4 => some .htCal
  | true, 5 => some .htRdh
  | true, 6 => some .htRdtc
  | true, _ => none

/-- 30_encoding.md rule R73, in its own order. `none` is "illegal" (rule R74). -/
def decode (w : Byte) : Option Instr :=
  if wordZ w ≠ 0 then none
  else
    match opcodeRow (wordU w) (wordOP w) (wordA w) with
    | none => none
    | some i =>
      if wordA w && !(wordU w && wordOP w == 3) then none
      else if wordU w && wordOP w == 4 then none
      else some i

/-- The word with the given fields and `Z` = 0 (30_encoding.md rule R70). -/
def fieldsWord (u : Bool) (op : BitVec 3) (a : Bool) : Byte :=
  0#3 ++ BitVec.ofBool u ++ op ++ BitVec.ofBool a

/-- The word of a command (30_encoding.md rule R72). HT.CAL has a code point, which the decoder refuses. -/
def encode : Instr → Byte
  | .ptInit => fieldsWord false 0 false
  | .ptIdent => fieldsWord false 1 false
  | .ptRdtc => fieldsWord false 2 false
  | .ptRdtf => fieldsWord false 3 false
  | .ptRdpm => fieldsWord false 4 false
  | .htInit => fieldsWord true 0 false
  | .htPdown => fieldsWord true 1 false
  | .htAct => fieldsWord true 2 false
  | .htSetbdu a => fieldsWord true 3 a
  | .htCal => fieldsWord true 4 false
  | .htRdh => fieldsWord true 5 false
  | .htRdtc => fieldsWord true 6 false

/-- The command the decoder reads from the table's bits; every row has 8 (30_encoding.md rules R70 and R75). -/
def decodeTableWord (nbits w : Nat) : Option Instr :=
  decode (BitVec.ofNat 8 (w % 2 ^ nbits))

end Sys2Proof
end

