-- ==== Sys2Proof/Machine/Fetch.lean ====
section
/-! DEFINITION. How a command word comes from CMD (30_encoding.md rules R70 and R73, 10_state.md rules R27 and R29). -/

namespace Sys2Proof.Machine

/-- What an idle block finds on CMD. -/
inductive Fetched where
  | waiting
  | command (i : Instr) (s : State)
  | illegal (s : State)
  deriving DecidableEq, Repr

/-- The next command word, taken from CMD and decoded. With no word the block waits for one (10_state.md rule R34). -/
def fetchCommand (s : State) : Fetched :=
  match s.cmd with
  | [] => .waiting
  | w :: rest =>
    match decode w with
    | some i => .command i (s.setCmd rest)
    | none => .illegal (s.setCmd rest)

/-- `s` with a command word placed first on CMD and the block idle, so that the next step takes it (log entry 12). -/
def presentWord (w : Byte) (s : State) : State :=
  { s with cmd := w :: s.cmd, busy := false, running := none }

end Sys2Proof.Machine
end

