-- ==== Sys2Proof/Machine/Step.lean ====
section
/-! DEFINITION. One step of the machine: the next turn of a running poll, or the next command on CMD (log entry 1). -/

namespace Sys2Proof.Machine

/-- With `BUSY = 1` the running command goes on, and what the host presents waits (10_state.md rule R29). With `BUSY = 0` the
next command word is taken: a command runs, an illegal word finishes with `ILLEGAL_CMD`, and with no word the block waits. -/
def step (s : State) : Host.Outcome State Fault Refusal :=
  if s.busy then resumePoll s
  else
    match fetchCommand s with
    | .waiting => .next s
    | .command i s => exec i s
    | .illegal s => .next (illegalCommand s)

/-- `s` with the command word of the table's bits on CMD, to be taken by the next step. -/
def State.withFetchWord (s : State) (nbits w : Nat) : State :=
  presentWord (BitVec.ofNat 8 (w % 2 ^ nbits)) s

end Sys2Proof.Machine
end

