-- ==== Sys2Proof/Machine/Transaction.lean ====
section
/-! DEFINITION. The block at the transaction level (00_scope.md rule R2): a step is one bus transaction, one state update or the
delivery of one result. A command is the list of the lines of its rule's pseudocode, and the place inside it (10_state.md rule
R27) is the list of the lines still to come. `Machine.step` makes the same commands in one step each (log entries 1 and 18). -/

namespace Sys2Proof.Machine

/-! ## Working values -/

/-- The names of the bytes a command reads (10_state.md rule R26); of a calibration item, its low or its high byte. -/
inductive Slot where
  | old
  | s
  | b
  | lo
  | mid
  | hi
  | cal (item : CalItem) (high : Bool)
  deriving DecidableEq, Repr

/-- The bytes held inside one command (10_state.md rule R26). -/
structure Working where
  old : Byte
  s : Byte
  b : Byte
  lo : Byte
  mid : Byte
  hi : Byte
  cal : CalBytes
  deriving DecidableEq, Repr

/-- Between commands nothing is held; no line reads a byte that its command has not read before (log entry 18). -/
def Working.none : Working := ⟨0, 0, 0, 0, 0, 0, noCalBytes⟩

/-- The bytes of the calibration with one byte put in. -/
def putCalByte (item : CalItem) (high : Bool) (x : Byte) (r : CalBytes) : CalBytes :=
  match item, high with
  | .hp0, _ => { r with h0 := x }
  | .hp1, _ => { r with h1 := x }
  | .tp0, _ => { r with t0 := x }
  | .tp1, _ => { r with t1 := x }
  | .tmsb, _ => { r with m := x }
  | .ho0, false => { r with a0 := x }
  | .ho0, true => { r with a1 := x }
  | .ho1, false => { r with b0 := x }
  | .ho1, true => { r with b1 := x }
  | .to0, false => { r with c0 := x }
  | .to0, true => { r with c1 := x }
  | .to1, false => { r with d0 := x }
  | .to1, true => { r with d1 := x }

def Working.put (v : Slot) (x : Byte) (w : Working) : Working :=
  match v with
  | .old => { w with old := x }
  | .s => { w with s := x }
  | .b => { w with b := x }
  | .lo => { w with lo := x }
  | .mid => { w with mid := x }
  | .hi => { w with hi := x }
  | .cal item high => { w with cal := putCalByte item high x w.cal }

/-! ## Lines of pseudocode -/

/-- The eight registers of `CAL` (10_state.md rule R21). -/
inductive CalReg where
  | hp0 | hp1 | tp0 | tp1 | ho0 | ho1 | to0 | to1
  deriving DecidableEq, Repr

/-- What a `finish` or a `raise` delivers (30_encoding.md rule R76). -/
inductive Delivery where
  /-- `finish(OK, none, none)` -/
  | done
  /-- `raise X`: the status alone (60_exceptions.md rule R210) -/
  | raise (st : Status)
  /-- `finish(NOT_READY, none, sentinel)` (60_exceptions.md rule R201) -/
  | sentinel (e : FExpr)
  /-- `finish(OK, b, none)` (40_pressure_temp.md rule R105) -/
  | byte
  /-- `finish(OK, b, none)` or `finish(ID_MISMATCH, b, none)` (41_humidity_control.md rule R120) -/
  | identity
  /-- `finish(OK, none, PT_TEMP_C(lo, hi))` (40_pressure_temp.md rule R106) -/
  | tempC
  /-- `finish(OK, none, C2F(PT_TEMP_C(lo, hi)))` (40_pressure_temp.md rule R107) -/
  | tempF
  /-- `finish(OK, none, PT_PRESS_MBAR(lo, mid, hi))` (40_pressure_temp.md rule R108) -/
  | press
  /-- `finish(OK, none, INTERP_H(raw))` or `INTERP_T(raw)` (43_interpolation.md rules R166 and R167) -/
  | interp (ch : Channel)
  deriving DecidableEq, Repr

/-- A line of pseudocode. -/
inductive Line where
  /-- `HT_REQUIRE(S)` (41_humidity_control.md rule R125) -/
  | require (states : List HtState)
  /-- `LOCK <- 1` or `LOCK <- 0` (20_memory.md rule R52) -/
  | lock (on : Bool)
  /-- `v <- BusRead(dev, reg)` -/
  | read (dev reg : Byte) (v : Slot)
  /-- `BusWrite(dev, reg, (old | setmask) & ~clrmask)` (20_memory.md rule R53) -/
  | write (dev reg setmask clrmask : Byte)
  /-- `CAL[*] <- none` -/
  | emptyCal
  /-- `HT_STATE <- h` -/
  | setState (h : HtState)
  /-- `if HT_STATE = UNINIT then HT_STATE <- INITED` (41_humidity_control.md rule R120) -/
  | initState
  /-- `if s[bit] = 0 then finish(NOT_READY, none, sentinel)` (40_pressure_temp.md rules R106 to R108) -/
  | unlessReady (bit : Nat) (sentinel : FExpr)
  /-- `POLLCNT <- 0` (43_interpolation.md rule R165) -/
  | pollClear
  /-- `if POLL_LIMIT != INF and POLLCNT = POLL_LIMIT then raise Timeout` (43_interpolation.md rule R165) -/
  | pollCheck
  /-- `POLLCNT <- POLLCNT + 1`, and `if s[bit] = 1 then exit loop` (43_interpolation.md rule R165) -/
  | pollCount (ch : Channel)
  /-- `CAL[n] <- …` (42_calibration_unpack.md rule R146) -/
  | calWrite (n : CalReg)
  /-- `if CAL[out1] - CAL[out0] = 0 then raise CalibrationError` (43_interpolation.md rule R160) -/
  | spanCheck (ch : Channel)
  /-- `finish` or `raise`: the command ends -/
  | finish (d : Delivery)
  deriving DecidableEq, Repr

/-! ## Commands as lines -/

/-- `RMW(dev, reg, setmask, clrmask)` (20_memory.md rule R53). -/
def rmwLines (dev reg setmask clrmask : Byte) : List Line :=
  [.lock true, .read dev reg .old, .write dev reg setmask clrmask, .lock false]

/-- The locked fetch of a two-byte sample (20_memory.md rules R49 and R52). -/
def sampleLines (dev r0 r1 : Byte) : List Line :=
  [.lock true, .read dev r0 .lo, .read dev r1 .hi, .lock false]

/-- The reads of one calibration item (20_memory.md rule R52). -/
def itemLines (m : CalMap) (i : CalItem) : List Line :=
  if calItemPaired i then
    [.lock true, .read htDev (calItemAddr m i) (.cal i false), .read htDev (calItemAddr m i + 1) (.cal i true), .lock false]
  else [.read htDev (calItemAddr m i) (.cal i false)]

/-- The eight writes at the end of HT.CAL (42_calibration_unpack.md rule R146). -/
def calWriteLines : List Line :=
  [.calWrite .hp0, .calWrite .hp1, .calWrite .tp0, .calWrite .tp1, .calWrite .ho0, .calWrite .ho1, .calWrite .to0,
    .calWrite .to1]

/-- HT.CAL (42_calibration_unpack.md rule R146): thirteen reads, then eight writes. -/
def calLines (m : CalMap) : List Line := (calOrder m).flatMap (itemLines m) ++ calWriteLines

/-- An HT read from the head of the loop of 43_interpolation.md rule R165 on. -/
def pollLines (ch : Channel) : List Line :=
  [.pollCheck, .read htDev regStatus .s, .pollCount ch] ++ sampleLines htDev (channelLo ch) (channelHi ch) ++
    [.spanCheck ch, .finish (.interp ch)]

/-- The states in which HT.PDOWN, HT.ACT and HT.SETBDU are allowed (10_state.md rule R23). -/
def initedStates : List HtState := [.inited, .active, .pdown]

/-- The lines of a command (40_pressure_temp.md, 41_humidity_control.md, 42_calibration_unpack.md, 43_interpolation.md). -/
def commandLines (m : CalMap) : Instr → List Line
  | .ptInit => rmwLines ptDev regCtrl ptPowerOdr 0 ++ [.finish .done]
  | .ptIdent => [.read ptDev regWhoami .b, .finish .byte]
  | .ptRdtc =>
    [.read ptDev regStatus .s, .unlessReady 0 sentinelC] ++ sampleLines ptDev ptTLo ptTHi ++ [.finish .tempC]
  | .ptRdtf =>
    [.read ptDev regStatus .s, .unlessReady 0 (c2f sentinelC)] ++ sampleLines ptDev ptTLo ptTHi ++ [.finish .tempF]
  | .ptRdpm =>
    [.read ptDev regStatus .s, .unlessReady 1 sentinelMbar, .lock true, .read ptDev ptPLo .lo, .read ptDev ptPMid .mid,
      .read ptDev ptPHi .hi, .lock false, .finish .press]
  | .htInit => [.read htDev regWhoami .b, .initState, .finish .identity]
  | .htPdown =>
    [.require initedStates, .lock true, .read htDev regCtrl .old, .emptyCal, .setState .pdown,
      .write htDev regCtrl 0 htPower, .lock false, .finish .done]
  | .htAct =>
    [.require initedStates, .emptyCal] ++ rmwLines htDev regCtrl htPowerOdr 0 ++ calLines m ++
      [.setState .active, .finish .done]
  | .htSetbdu a =>
    [.require initedStates] ++ (if a then rmwLines htDev regCtrl htBdu 0 else rmwLines htDev regCtrl 0 htBdu) ++
      [.finish .done]
  | .htCal => calLines m
  | .htRdh => [.require [.active], .pollClear] ++ pollLines .hum
  | .htRdtc => [.require [.active], .pollClear] ++ pollLines .temp

/-- What a transport error does in a command (60_exceptions.md rule R203): in HT.ACT what its rule lists first
(41_humidity_control.md rule R122), then TRANSPORT_ERR. -/
def errorLines (running : Option Instr) : List Line :=
  if running = some .htAct then [.emptyCal, .setState .inited, .finish (.raise .transportErr)]
  else [.finish (.raise .transportErr)]

/-! ## The block -/

/-- The state with the place inside the command in execution and the values held there. -/
structure Block where
  state : State
  todo : List Line
  work : Working
  deriving DecidableEq, Repr

/-- The block after reset (10_state.md rule R34): no command is in execution. -/
def Block.reset : Block := ⟨State.reset, [], Working.none⟩

/-- The block after a `finish`: no line is left, and no working value survives (10_state.md rule R26). -/
def Block.ended (s : State) : Block := ⟨s, [], Working.none⟩

/-- The block with a command accepted (10_state.md rule R29). -/
def Block.begin (i : Instr) (s : State) : Block := ⟨s.accept i, commandLines s.params.calMap i, Working.none⟩

/-- One of the eight writes of HT.CAL (42_calibration_unpack.md rule R146). -/
def writeCal (n : CalReg) (r : CalBytes) (c : Cal) : Cal :=
  match n with
  | .hp0 => { c with hp0 := some r.h0 }
  | .hp1 => { c with hp1 := some r.h1 }
  | .tp0 => { c with tp0 := some (assemble10 r.t0 (msb0 r.m)) }
  | .tp1 => { c with tp1 := some (assemble10 r.t1 (msb1 r.m)) }
  | .ho0 => { c with ho0 := some (compose16 r.a0 r.a1) }
  | .ho1 => { c with ho1 := some (compose16 r.b0 r.b1) }
  | .to0 => { c with to0 := some (compose16 r.c0 r.c1) }
  | .to1 => { c with to1 := some (compose16 r.d0 r.d1) }

/-- `finish` with what a line delivers (00_scope.md rule R9). -/
def deliverResult (d : Delivery) (w : Working) (s : State) : Host.Outcome Block Fault Refusal :=
  match d with
  | .done => .next (Block.ended (s.finish .ok none none))
  | .raise st => .next (Block.ended (s.raise st))
  | .sentinel e => .next (Block.ended (s.deliver .notReady e))
  | .byte => .next (Block.ended (s.finish .ok (some w.b) none))
  | .identity => .next (Block.ended (s.finish (if w.b = htId then .ok else .idMismatch) (some w.b) none))
  | .tempC => .next (Block.ended (s.deliver .ok (ptTempC w.lo w.hi)))
  | .tempF => .next (Block.ended (s.deliver .ok (c2f (ptTempC w.lo w.hi))))
  | .press => .next (Block.ended (s.deliver .ok (ptPressMbar w.lo w.mid w.hi)))
  | .interp ch =>
    match channelCal ch s.cal with
    | none => .fault .emptyCalRead
    | some k => .next (Block.ended (s.deliver .ok (interpChannel ch k (compose16 w.lo w.hi))))

/-- The answer to a transaction: on a transport error nothing later of the command is issued (20_memory.md rule R51). -/
def Block.answered {α : Type} (b : Block) (r : Reply α) (k : α → Working) : Block :=
  match r with
  | .ok x s => { b with state := s, work := k x }
  | .err s => { b with state := s, todo := errorLines s.running }

/-- One line, in a block whose remaining lines are those after it. -/
def runLine (l : Line) (b : Block) : Host.Outcome Block Fault Refusal :=
  match l with
  | .require states => if b.state.htState ∈ states then .next b else deliverResult (.raise .stateErr) b.work b.state
  | .lock on => .next { b with state := b.state.setLock on }
  | .read dev reg v => .next (b.answered (busRead dev reg b.state) fun x => b.work.put v x)
  | .write dev reg setmask clrmask =>
    .next (b.answered (busWrite dev reg (rmwByte b.work.old setmask clrmask) b.state) fun _ => b.work)
  | .emptyCal => .next { b with state := b.state.setCal Cal.empty }
  | .setState h => .next { b with state := b.state.setHtState h }
  | .initState => .next { b with state := b.state.setHtState (initedFrom b.state.htState) }
  | .unlessReady bit e => if b.work.s.getLsbD bit then .next b else deliverResult (.sentinel e) b.work b.state
  | .pollClear => .next { b with state := b.state.setPollCnt 0 }
  | .pollCheck => if pollExhausted b.state then deliverResult (.raise .timeout) b.work b.state else .next b
  | .pollCount ch =>
    .next { b with
      state := b.state.setPollCnt (b.state.pollCnt + 1)
      todo := if channelReady ch b.work.s then b.todo else pollLines ch }
  | .calWrite n => .next { b with state := b.state.setCal (writeCal n b.work.cal b.state.cal) }
  | .spanCheck ch =>
    match channelCal ch b.state.cal with
    | none => .fault .emptyCalRead
    | some k => if k.span = 0 then deliverResult (.raise .calErr) b.work b.state else .next b
  | .finish d => deliverResult d b.work b.state

/-- A step of the block (00_scope.md rule R2): the next line of the command in execution; of an idle block the acceptance of
the next command word, the refusal of an illegal one, or waiting. A line that only tests, and finds nothing to do, moves the
place alone. -/
def blockStep (b : Block) : Host.Outcome Block Fault Refusal :=
  match b.todo with
  | l :: rest => runLine l { b with todo := rest }
  | [] =>
    if b.state.busy then .fault .lostPosition
    else
      match fetchCommand b.state with
      | .waiting => .next b
      | .command i s => .next (Block.begin i s)
      | .illegal s => .next (Block.ended (illegalCommand s))

/-- The block at the transaction level, as a machine. -/
def transactionCore : Host.Core where
  State := Block
  Fault := Fault
  Refusal := Refusal
  step := blockStep
  reset := Block.reset

end Sys2Proof.Machine
end

