-- ==== Sys2Proof/Safety.lean ====
section
/-! DEFINITION. The terms claims use: bus scripts as 95_test_vectors.md writes them, idle and polling blocks, the invariants of
10_state.md and 20_memory.md, blocks between and inside commands, and the exact value of a number. -/

namespace Sys2Proof.Machine

/-! ## Bus scripts -/

/-- `R dd rr -> vv`, inside a critical section where `lock` is true (95_test_vectors.md, notation). -/
def readOk (lock : Bool) (dev reg b : Byte) : Event := ⟨lock, .read dev reg, .ok b⟩

/-- `W dd rr vv`. The byte `w` of the ok answer carries nothing. -/
def writeOk (lock : Bool) (dev reg v w : Byte) : Event := ⟨lock, .write dev reg v, .ok w⟩

/-- The same transaction answered with a transport error. -/
def failEvent (e : Event) : Event := { e with answer := .error }

/-- The script whose transaction number `k` (from 0) fails: those before it as in `es`, none after it
(20_memory.md rule R51). -/
def failAt (es : List Event) (k : Nat) : List Event := es.take k ++ ((es.drop k).take 1).map failEvent

/-- With the answers `q` fixed in advance and the history `h`, the environment answers the transactions of a script, in
order, as the script says (20_memory.md rule R44). -/
def playsFrom (q : List Answer) (h : List Event) : List Event → Bool
  | [] => true
  | e :: es => decide (nextAnswer q h e.txn = e.answer) && playsFrom q.tail (h ++ [e]) es

/-- The environment of `s` plays the script. -/
def State.plays (s : State) (es : List Event) : Bool := playsFrom s.answers s.events es

/-- `s` with the transactions of a script made: their answers taken and the history extended. -/
def State.afterScript (es : List Event) (s : State) : State :=
  { s with answers := s.answers.drop es.length, events := s.events ++ es }

/-- `[R dd rr -> old, W dd rr new]` (20_memory.md rule R53). -/
def rmwScript (dev reg old new w : Byte) : List Event :=
  [readOk true dev reg old, writeOk true dev reg new w]

/-- The transactions that read one calibration item (20_memory.md rule R52). -/
def itemScript (m : CalMap) (r : CalBytes) : CalItem → List Event
  | .hp0 => [readOk false 0x5F m.hp0 r.h0]
  | .hp1 => [readOk false 0x5F m.hp1 r.h1]
  | .tp0 => [readOk false 0x5F m.tp0 r.t0]
  | .tp1 => [readOk false 0x5F m.tp1 r.t1]
  | .tmsb => [readOk false 0x5F m.tmsb r.m]
  | .ho0 => [readOk true 0x5F m.ho0 r.a0, readOk true 0x5F (m.ho0 + 1) r.a1]
  | .ho1 => [readOk true 0x5F m.ho1 r.b0, readOk true 0x5F (m.ho1 + 1) r.b1]
  | .to0 => [readOk true 0x5F m.to0 r.c0, readOk true 0x5F (m.to0 + 1) r.c1]
  | .to1 => [readOk true 0x5F m.to1 r.d0, readOk true 0x5F (m.to1 + 1) r.d1]

/-- The thirteen reads of HT.CAL in ascending address (42_calibration_unpack.md rule R146). -/
def calScript (m : CalMap) (r : CalBytes) : List Event := (calOrder m).flatMap (itemScript m r)

/-- The fifteen transactions of HT.ACT (41_humidity_control.md rule R122). -/
def actScript (m : CalMap) (old w : Byte) (r : CalBytes) : List Event :=
  rmwScript 0x5F 0x20 old (old ||| 0x81) w ++ calScript m r

/-- The status bit a channel polls: 1 for humidity, 0 for temperature (43_interpolation.md rules R166 and R167). -/
def readyBit : Channel → Nat
  | .hum => 1
  | .temp => 0

/-- The register of the low byte of a channel's sample (20_memory.md rule R43). -/
def sampleReg : Channel → Byte
  | .hum => 0x28
  | .temp => 0x2A

/-- The locked fetch of a channel's sample, low byte first (43_interpolation.md rules R166 and R167). -/
def sampleScript (ch : Channel) (lo hi : Byte) : List Event :=
  [readOk true 0x5F (sampleReg ch) lo, readOk true 0x5F (sampleReg ch + 1) hi]

/-- Status reads of the HT unit, one for each byte (43_interpolation.md rule R165). -/
def statusScript (sts : List Byte) : List Event := sts.map (readOk false 0x5F 0x27)

/-- The register a transaction addresses. -/
def eventReg (e : Event) : Byte :=
  match e.txn with
  | .read _ reg => reg
  | .write _ reg _ => reg

/-! ## Blocks between steps -/

/-- An idle block between two commands (10_state.md rule R29). -/
def State.Idle (s : State) : Prop := s.busy = false ∧ s.lock = false ∧ s.running = none

/-- The command that polls a channel. -/
def channelInstr : Channel → Instr
  | .hum => .htRdh
  | .temp => .htRdtc

/-- A block inside the status poll of a channel (43_interpolation.md rule R165). -/
def State.Polling (ch : Channel) (s : State) : Prop :=
  s.busy = true ∧ s.lock = false ∧ s.running = some (channelInstr ch)

/-- All eight registers hold a value (10_state.md rule R24). -/
def Cal.isFull (c : Cal) : Bool :=
  c.hp0.isSome && c.hp1.isSome && c.tp0.isSome && c.tp1.isSome && c.ho0.isSome && c.ho1.isSome && c.to0.isSome && c.to1.isSome

/-- 10_state.md rule R24: `ACTIVE` with all eight registers holding a value, any other state with all eight `none`. -/
def calMatchesState (c : Cal) (h : HtState) : Bool :=
  if h = .active then c.isFull else decide (c = Cal.empty)

/-- The count of a running poll is within its limit (43_interpolation.md rule R165). -/
def pollWithin (p : PollLimit) (n : Nat) : Bool :=
  match p with
  | .inf => true
  | .reads k => decide (n ≤ k)

/-- What holds between any two steps: LOCK is 0, `CAL` matches `HT_STATE`, and the block is idle, or `ACTIVE` and inside a
status poll within its limit (10_state.md rules R24 and R29, 43_interpolation.md rule R165). -/
def State.Inv (s : State) : Prop :=
  s.lock = false ∧ calMatchesState s.cal s.htState = true ∧
    ((s.busy = false ∧ s.running = none) ∨
      (s.busy = true ∧ (s.running = some .htRdh ∨ s.running = some .htRdtc) ∧ s.htState = .active ∧
        pollWithin s.params.pollLimit s.pollCnt = true))

/-! ## What goes over the bus -/

/-- A row of the address map (20_memory.md rule R43), with the critical section it stands in (rule R52): identity and
status reads and single-byte calibration reads outside any, everything else inside one. -/
def eventInMap (m : CalMap) (e : Event) : Bool :=
  match e.txn with
  | .read dev reg =>
    (dev == 0x5D &&
      (if e.lock then [0x20, 0x28, 0x29, 0x2A, 0x2B, 0x2C].contains reg else [0x0F, 0x27].contains reg)) ||
    (dev == 0x5F &&
      (if e.lock then
        [0x20, 0x28, 0x29, 0x2A, 0x2B, m.ho0, m.ho0 + 1, m.ho1, m.ho1 + 1, m.to0, m.to0 + 1, m.to1, m.to1 + 1].contains reg
      else [0x0F, 0x27, m.hp0, m.hp1, m.tp0, m.tp1, m.tmsb].contains reg))
  | .write dev reg _ => e.lock && (dev == 0x5D || dev == 0x5F) && reg == 0x20

/-- Every transaction of the history is one the address map lists. -/
def State.BusInv (s : State) : Prop := ∀ e ∈ s.events, eventInMap s.params.calMap e = true

/-! ## The block at the transaction level -/

/-- A block where `Machine.step` leaves one (log entry 18): idle with no line left, or at the head of a status poll. -/
def Block.AtRest (b : Block) : Prop :=
  (b.state.Idle ∧ b.todo = []) ∨ ∃ ch, b.state.Polling ch ∧ b.todo = pollLines ch

/-- One access to a sensor's register. -/
structure Access where
  write : Bool
  dev : Byte
  reg : Byte
  deriving DecidableEq, Repr

/-- The access a transaction makes. -/
def eventAccess (e : Event) : Access :=
  match e.txn with
  | .read dev reg => ⟨false, dev, reg⟩
  | .write dev reg _ => ⟨true, dev, reg⟩

def readsOf (dev : Byte) (regs : List Byte) : List Access := regs.map (⟨false, dev, ·⟩)

/-- The read-modify-write of a control register (20_memory.md rule R53). -/
def rmwSection (dev : Byte) : List Access := [⟨false, dev, 0x20⟩, ⟨true, dev, 0x20⟩]

/-- The four calibration pairs (20_memory.md rule R52). -/
def calSections (m : CalMap) : List (List Access) :=
  [m.ho0, m.ho1, m.to0, m.to1].map fun a => readsOf 0x5F [a, a + 1]

/-- The critical sections of a command: the rows of the table of 20_memory.md rule R52, at the addresses of rule R43. -/
def commandSections (m : CalMap) : Instr → List (List Access)
  | .ptInit => [rmwSection 0x5D]
  | .ptIdent => []
  | .ptRdtc => [readsOf 0x5D [0x2B, 0x2C]]
  | .ptRdtf => [readsOf 0x5D [0x2B, 0x2C]]
  | .ptRdpm => [readsOf 0x5D [0x28, 0x29, 0x2A]]
  | .htInit => []
  | .htPdown => [rmwSection 0x5F]
  | .htAct => rmwSection 0x5F :: calSections m
  | .htSetbdu _ => [rmwSection 0x5F]
  | .htCal => calSections m
  | .htRdh => [readsOf 0x5F [0x28, 0x29]]
  | .htRdtc => [readsOf 0x5F [0x2A, 0x2B]]

/-- The accesses of a command outside any critical section: identity reads, status reads and the five single-byte calibration
reads (20_memory.md rules R43 and R52). -/
def commandSingles (m : CalMap) : Instr → List Access
  | .ptInit => []
  | .ptIdent => readsOf 0x5D [0x0F]
  | .ptRdtc => readsOf 0x5D [0x27]
  | .ptRdtf => readsOf 0x5D [0x27]
  | .ptRdpm => readsOf 0x5D [0x27]
  | .htInit => readsOf 0x5F [0x0F]
  | .htPdown => []
  | .htAct => readsOf 0x5F [m.hp0, m.hp1, m.tp0, m.tp1, m.tmsb]
  | .htSetbdu _ => []
  | .htCal => readsOf 0x5F [m.hp0, m.hp1, m.tp0, m.tp1, m.tmsb]
  | .htRdh => readsOf 0x5F [0x27]
  | .htRdtc => readsOf 0x5F [0x27]

/-- Where a block stands: outside any critical section, or inside the section `done ++ left`, of which `done` has been made. -/
inductive LockPlace where
  | outside
  | inside (done left : List Access)
  deriving DecidableEq, Repr

/-- The accesses of the lines up to the next one that moves LOCK. -/
def upcoming : List Line → List Access
  | [] => []
  | .lock _ :: _ => []
  | .read dev reg _ :: rest => ⟨false, dev, reg⟩ :: upcoming rest
  | .write dev reg _ _ :: rest => ⟨true, dev, reg⟩ :: upcoming rest
  | _ :: rest => upcoming rest

/-- Where the block stands after an access; `none` if the access may not be made there. -/
def LockPlace.access (m : CalMap) (i : Instr) (a : Access) : LockPlace → Option LockPlace
  | .outside => if a ∈ commandSingles m i then some .outside else none
  | .inside done (b :: left) => if a = b then some (.inside (done ++ [a]) left) else none
  | .inside _ [] => none

/-- Where the block stands after an update of `CAL` or `HT_STATE`: inside a section only between two of its transactions, so
that LOCK is set immediately before the first and cleared immediately after the last (20_memory.md rule R52). -/
def LockPlace.update : LockPlace → Option LockPlace
  | .outside => some .outside
  | .inside (a :: done) (b :: left) => some (.inside (a :: done) (b :: left))
  | _ => none

/-- After `LOCK <- 1`: it opens a section, which is to be one of the command's, whole. -/
def LockPlace.opened (m : CalMap) (i : Instr) (rest : List Line) : LockPlace → Option LockPlace
  | .outside => if upcoming rest ∈ commandSections m i then some (.inside [] (upcoming rest)) else none
  | .inside _ _ => none

/-- After `LOCK <- 0`: it closes a section all of which has been made. -/
def LockPlace.closed : LockPlace → Option LockPlace
  | .inside _ [] => some .outside
  | _ => none

/-- After a line that stands outside any critical section. -/
def LockPlace.free : LockPlace → Option LockPlace
  | .outside => some .outside
  | .inside _ _ => none

/-- Where the block stands after a line of command `i`; `none` if the line may not stand there. A `raise` is no line of a
command's rule: a test raises in its own step, and a transport error leaves its own lines (`errorLines`). -/
def LockPlace.line (m : CalMap) (i : Instr) (l : Line) (rest : List Line) (p : LockPlace) : Option LockPlace :=
  match l with
  | .lock on => if on then p.opened m i rest else p.closed
  | .read dev reg _ => p.access m i ⟨false, dev, reg⟩
  | .write dev reg _ _ => p.access m i ⟨true, dev, reg⟩
  | .emptyCal => p.update
  | .setState _ => p.update
  | .pollCount ch => if i = channelInstr ch then p.free else none
  | .require _ => p.free
  | .initState => p.free
  | .unlessReady _ _ => p.free
  | .pollClear => p.free
  | .pollCheck => p.free
  | .calWrite _ => p.free
  | .spanCheck _ => p.free
  | .finish (.raise _) => none
  | .finish _ => p.free

/-- A line that ends the command. -/
def Line.isFinish : Line → Bool
  | .finish _ => true
  | _ => false

/-- The lines of command `i` that are still to come, from the place `p` on, make each access where the table of critical
sections has it, run through every section whole, and end with the one `finish` of the command, outside any section. -/
def linesFit (m : CalMap) (i : Instr) : LockPlace → List Line → Bool
  | _, [] => false
  | p, l :: rest =>
    match p.line m i l rest with
    | none => false
    | some q => if l.isFinish then rest.isEmpty else linesFit m i q rest

/-- The last transactions of a history are the accesses `done`, each made with LOCK 1 and answered without an error. -/
def MadeLast (es : List Event) (done : List Access) : Prop :=
  ∃ before made, es = before ++ made ∧ made.map eventAccess = done ∧ ∀ e ∈ made, e.lock = true ∧ e.answer ≠ .error

/-- LOCK is 1 exactly inside a critical section of command `i`, of which the last transactions of the history are the part
that has been made. -/
def State.LockAt (s : State) (i : Instr) : LockPlace → Prop
  | .outside => s.lock = false
  | .inside done left =>
    s.lock = true ∧ done ++ left ∈ commandSections s.params.calMap i ∧ MadeLast s.events done

/-- The last transaction of the history was answered with an error. It is one that command `i` makes at the place `p`, where
the transactions before it had brought the block, and LOCK is still as it was made with. -/
def State.FailedAt (s : State) (i : Instr) (p : LockPlace) : Prop :=
  ∃ before e, s.events = before ++ [e] ∧ e.answer = .error ∧ e.lock = s.lock ∧
    (p.access s.params.calMap i (eventAccess e)).isSome = true ∧ { s with events := before }.LockAt i p

/-- What holds at every instant (10_state.md rule R29, 20_memory.md rules R43 and R52). Every transaction made so far is one
the address map lists. With BUSY 0, LOCK is 0 and no line is left. With BUSY 1, LOCK is 1 exactly inside a critical section of
the command, whose remaining lines run through it whole; or the last transaction was answered with an error, and the lines
that are left handle it, with LOCK 1 exactly if it was one of a critical section, to be cleared by their `finish`. -/
def Block.Inv (b : Block) : Prop :=
  b.state.BusInv ∧
    ((b.state.Idle ∧ b.todo = []) ∨
     (∃ (i : Instr) (p : LockPlace), b.state.busy = true ∧ b.state.running = some i ∧ b.state.LockAt i p ∧
       linesFit b.state.params.calMap i p b.todo = true) ∨
     (∃ (i : Instr) (p : LockPlace), b.state.busy = true ∧ b.state.running = some i ∧ b.state.FailedAt i p ∧
       b.todo ≠ [] ∧ b.todo <:+ errorLines (some i)))

/-! ## Results -/

/-- A pattern of a finite number. -/
def b64Finite (x : B64) : Bool := decide (b64ExpField x ≠ 2047)

/-- Neither an infinity nor a NaN (30_encoding.md rule R77). -/
def FNum.isFinite : FNum → Bool
  | .b64 x => b64Finite x
  | .q _ => true

/-- Which fields of RES hold something, by status (30_encoding.md rule R76): with every status but `OK`, `NOT_READY` and
`ID_MISMATCH` neither; with `NOT_READY` the value; with `ID_MISMATCH` the byte; with `OK` at most one of the two. -/
def Res.wellFormed (r : Res) : Bool :=
  match r.status with
  | none => r.byte.isNone && r.value.isNone
  | some .ok => r.byte.isNone || r.value.isNone
  | some .notReady => r.byte.isNone && r.value.isSome
  | some .idMismatch => r.byte.isSome && r.value.isNone
  | some _ => r.byte.isNone && r.value.isNone

/-- RES has the fields its status allows, and its value is finite (30_encoding.md rules R76 and R77). -/
def State.ResInv (s : State) : Prop :=
  s.res.wellFormed = true ∧ ∀ v, s.res.value = some v → v.isFinite = true

/-- The exact value of a binary64 pattern; of an infinity or a NaN, which no command produces, 0. -/
def b64Value (x : B64) : Rat :=
  match b64View x with
  | .finite neg n d => (signedInt neg n : Rat) / (d : Rat)
  | .inf _ => 0
  | .nan => 0

/-- The exact value of a number of type `F`. -/
def FNum.value : FNum → Rat
  | .b64 x => b64Value x
  | .q r => r

/-- The operands of an interpolation (43_interpolation.md rule R161): 16-bit codes with a non-zero span, and 10-bit points
under the scale "8.0" (rule R162) or 8-bit points under the scale "2" (rule R163). -/
def InterpOperands (raw out0 out1 p0 p1 : Int) (scale : Decimal) : Prop :=
  0 ≤ raw ∧ raw ≤ 65535 ∧ 0 ≤ out0 ∧ out0 ≤ 65535 ∧ 0 ≤ out1 ∧ out1 ≤ 65535 ∧ out1 ≠ out0 ∧ 0 ≤ p0 ∧ 0 ≤ p1 ∧
    ((scale = ⟨80, 1⟩ ∧ p0 ≤ 1023 ∧ p1 ≤ 1023) ∨ (scale = ⟨2, 0⟩ ∧ p0 ≤ 255 ∧ p1 ≤ 255))

/-- The number a scale literal stands for. -/
def scaleValue (scale : Decimal) : Rat := evalQ (.lit scale)

end Sys2Proof.Machine
end

