-- ==== Sys2Proof/Certificates/Slice0/Obligations.lean ====
section
/-! DEFINITION. The statements about the block, from the numbered rules of spec/. A bus script is written as
95_test_vectors.md writes it: `readOk lock dev reg byte`, `writeOk lock dev reg byte _`, and `failAt script k` is the script whose
transaction `k` (from 0) is answered with a transport error and is the last. `s.plays script` says that the environment of `s`
answers so; for every state and every command exactly one of the scripts of a statement is played. `s.afterScript script`
differs from `s` in the bus alone (the answers taken, the history extended), so every equation below states the frame too. -/

open Sys2Proof Sys2Proof.Machine

/-! ## Encoding -/

/-- Log entry 7: HT.CAL is the one constructor that is not well formed as a host command. -/
def Obligations.DecodeOfEncode : Prop :=
  ∀ i : Instr, i.wellFormed = true → decode (encode i) = some i

/-- 30_encoding.md rules R72 and R73. -/
def Obligations.DecoderAcceptsTwelveWords : Prop :=
  decode 0x00 = some .ptInit ∧ decode 0x02 = some .ptIdent ∧ decode 0x04 = some .ptRdtc ∧
  decode 0x06 = some .ptRdtf ∧ decode 0x08 = some .ptRdpm ∧ decode 0x10 = some .htInit ∧
  decode 0x12 = some .htPdown ∧ decode 0x14 = some .htAct ∧ decode 0x16 = some (.htSetbdu false) ∧
  decode 0x17 = some (.htSetbdu true) ∧ decode 0x1A = some .htRdh ∧ decode 0x1C = some .htRdtc ∧
  ∀ w : Byte, w ∉ [0x00, 0x02, 0x04, 0x06, 0x08, 0x10, 0x12, 0x14, 0x16, 0x17, 0x1A, 0x1C] → decode w = none

/-! ## The step -/

/-- 10_state.md rules R27 and R29: an idle block takes the next word of CMD and runs its command; what a step is, is the
model's choice (log entry 1). -/
def Obligations.StepRunsDecodedCommand : Prop :=
  ∀ (s : State) (w : Byte) (rest : List Byte) (i : Instr),
    s.busy = false → s.cmd = w :: rest → decode w = some i → step s = exec i { s with cmd := rest }

/-- 60_exceptions.md rule R207. That the word is taken from CMD is the model's choice (log entry 17), on the list of words of
log entry 12 and in one step (log entry 1). -/
def Obligations.IllegalWordReportsIllegalCmd : Prop :=
  ∀ (s : State) (w : Byte) (rest : List Byte),
    s.Idle → s.cmd = w :: rest → decode w = none →
      step s = .next { s with cmd := rest, res := ⟨some .illegalCmd, none, none⟩ }

/-- After reset the block waits for the first command (10_state.md rule R34). That a step of a waiting block changes nothing
is the model's choice (log entries 1 and 12). -/
def Obligations.IdleBlockWaits : Prop :=
  (∀ s : State, s.busy = false → s.cmd = [] → step s = .next s) ∧
  ∀ k : Nat, Sys2Proof.core.run k State.reset = .next State.reset

/-- 10_state.md rule R29 and 60_exceptions.md rule R212: while `BUSY` is 1 no command word is accepted and none has a step.
That the word waits, and that a command run all the same is a fault, is the model's choice (log entry 8). -/
def Obligations.BusyBlockAcceptsNoCommand : Prop :=
  (∀ (s t : State), s.busy = true → step s = .next t → t.cmd = s.cmd) ∧
  ∀ (i : Instr) (s : State), s.busy = true → (i ≠ .htCal ∨ s.running ≠ some .htAct) →
    exec i s = .fault .commandWhileBusy

/-- 10_state.md rule R34: the table, and that the block then waits. That waiting is a step that changes nothing, with no word
on CMD, is the model's choice (log entries 1 and 12). -/
def Obligations.ResetLeavesTable : Prop :=
  State.reset.htState = .uninit ∧ State.reset.cal = ⟨none, none, none, none, none, none, none, none⟩ ∧
  State.reset.res = ⟨none, none, none⟩ ∧ State.reset.busy = false ∧ State.reset.lock = false ∧
  step State.reset = .next State.reset

/-- The codes of `RES.status` (60_exceptions.md rule R200) and of `HT_STATE` (10_state.md rule R23). -/
def Obligations.StatusAndStateCodes : Prop :=
  [Status.ok, .notReady, .idMismatch, .transportErr, .calErr, .timeout, .stateErr, .illegalCmd].map statusCode =
    [0, 1, 2, 3, 4, 5, 6, 7] ∧
  [HtState.uninit, .inited, .active, .pdown].map htStateCode = [0, 1, 2, 3]

/-! ## The PT unit -/

/-- 40_pressure_temp.md rule R104. -/
def Obligations.PtInitSetsPowerAndOdrBits : Prop :=
  decode 0x00 = some .ptInit ∧
  ∀ (s : State) (old w : Byte), s.Idle →
    let script := rmwScript 0x5D 0x20 old (old ||| 0xB0) w
    (s.plays script = true →
      exec .ptInit s = .next { s.afterScript script with res := ⟨some .ok, none, none⟩ }) ∧
    ∀ k < 2, s.plays (failAt script k) = true →
      exec .ptInit s = .next { s.afterScript (failAt script k) with res := ⟨some .transportErr, none, none⟩ }

/-- 40_pressure_temp.md rule R105. -/
def Obligations.PtIdentReturnsIdentityByte : Prop :=
  decode 0x02 = some .ptIdent ∧
  ∀ (s : State) (b : Byte), s.Idle →
    let script := [readOk false 0x5D 0x0F b]
    (s.plays script = true →
      exec .ptIdent s = .next { s.afterScript script with res := ⟨some .ok, some b, none⟩ }) ∧
    (s.plays (failAt script 0) = true →
      exec .ptIdent s = .next { s.afterScript (failAt script 0) with res := ⟨some .transportErr, none, none⟩ })

/-- 40_pressure_temp.md rule R106. -/
def Obligations.PtRdtcReadsCelsiusOrSentinel : Prop :=
  decode 0x04 = some .ptRdtc ∧
  (∀ lo hi : Byte, -2821 / 30 ≤ evalQ (ptTempC lo hi)) ∧
  ∀ (s : State) (st lo hi : Byte), s.Idle →
    let status := [readOk false 0x5D 0x27 st]
    let script := status ++ [readOk true 0x5D 0x2B lo, readOk true 0x5D 0x2C hi]
    (st.getLsbD 0 = false → s.plays status = true →
      exec .ptRdtc s = .next { s.afterScript status with
        res := ⟨some .notReady, none, some (evalF s.params.numerics (.lit ⟨-27315, 2⟩))⟩ }) ∧
    (st.getLsbD 0 = true → s.plays script = true →
      exec .ptRdtc s = .next { s.afterScript script with
        res := ⟨some .ok, none, some (evalF s.params.numerics (ptTempC lo hi))⟩ }) ∧
    ∀ k < 3, (0 < k → st.getLsbD 0 = true) → s.plays (failAt script k) = true →
      exec .ptRdtc s = .next { s.afterScript (failAt script k) with res := ⟨some .transportErr, none, none⟩ }

/-- 40_pressure_temp.md rule R107. -/
def Obligations.PtRdtfReadsFahrenheitOrConvertedSentinel : Prop :=
  decode 0x06 = some .ptRdtf ∧
  ∀ (s : State) (st lo hi : Byte), s.Idle →
    let status := [readOk false 0x5D 0x27 st]
    let script := status ++ [readOk true 0x5D 0x2B lo, readOk true 0x5D 0x2C hi]
    (st.getLsbD 0 = false → s.plays status = true →
      exec .ptRdtf s = .next { s.afterScript status with
        res := ⟨some .notReady, none, some (evalF s.params.numerics (c2f (.lit ⟨-27315, 2⟩)))⟩ }) ∧
    (st.getLsbD 0 = true → s.plays script = true →
      exec .ptRdtf s = .next { s.afterScript script with
        res := ⟨some .ok, none, some (evalF s.params.numerics (c2f (ptTempC lo hi)))⟩ }) ∧
    ∀ k < 3, (0 < k → st.getLsbD 0 = true) → s.plays (failAt script k) = true →
      exec .ptRdtf s = .next { s.afterScript (failAt script k) with res := ⟨some .transportErr, none, none⟩ }

/-- 40_pressure_temp.md rule R108. -/
def Obligations.PtRdpmReadsPressureOrSentinel : Prop :=
  decode 0x08 = some .ptRdpm ∧
  evalQ (ptPressMbar 0 0 0) = 0 ∧ (∀ lo mid hi : Byte, 0 ≤ evalQ (ptPressMbar lo mid hi)) ∧
  ∀ (s : State) (st lo mid hi : Byte), s.Idle →
    let status := [readOk false 0x5D 0x27 st]
    let script := status ++ [readOk true 0x5D 0x28 lo, readOk true 0x5D 0x29 mid, readOk true 0x5D 0x2A hi]
    (st.getLsbD 1 = false → s.plays status = true →
      exec .ptRdpm s = .next { s.afterScript status with
        res := ⟨some .notReady, none, some (evalF s.params.numerics (.lit ⟨-1, 0⟩))⟩ }) ∧
    (st.getLsbD 1 = true → s.plays script = true →
      exec .ptRdpm s = .next { s.afterScript script with
        res := ⟨some .ok, none, some (evalF s.params.numerics (ptPressMbar lo mid hi))⟩ }) ∧
    ∀ k < 4, (0 < k → st.getLsbD 1 = true) → s.plays (failAt script k) = true →
      exec .ptRdpm s = .next { s.afterScript (failAt script k) with res := ⟨some .transportErr, none, none⟩ }

/-! ## The HT unit, control commands -/

/-- 41_humidity_control.md rule R120. -/
def Obligations.HtInitChecksIdentity : Prop :=
  decode 0x10 = some .htInit ∧
  ∀ (s : State) (b : Byte), s.Idle →
    let script := [readOk false 0x5F 0x0F b]
    (s.plays script = true →
      exec .htInit s = .next { s.afterScript script with
        htState := if s.htState = .uninit then .inited else s.htState
        res := ⟨some (if b = 0xBC then .ok else .idMismatch), some b, none⟩ }) ∧
    (s.plays (failAt script 0) = true →
      exec .htInit s = .next { s.afterScript (failAt script 0) with res := ⟨some .transportErr, none, none⟩ })

/-- 41_humidity_control.md rule R121. -/
def Obligations.HtPdownClearsPowerBitAndCalibration : Prop :=
  decode 0x12 = some .htPdown ∧
  ∀ (s : State) (old w : Byte), s.Idle →
    let script := rmwScript 0x5F 0x20 old (old &&& 0x7F) w
    (s.htState = .uninit → exec .htPdown s = .next { s with res := ⟨some .stateErr, none, none⟩ }) ∧
    (s.htState ≠ .uninit → s.plays script = true →
      exec .htPdown s = .next { s.afterScript script with
        cal := Cal.empty, htState := .pdown, res := ⟨some .ok, none, none⟩ }) ∧
    (s.htState ≠ .uninit → s.plays (failAt script 0) = true →
      exec .htPdown s = .next { s.afterScript (failAt script 0) with res := ⟨some .transportErr, none, none⟩ }) ∧
    (s.htState ≠ .uninit → s.plays (failAt script 1) = true →
      exec .htPdown s = .next { s.afterScript (failAt script 1) with
        cal := Cal.empty, htState := .pdown, res := ⟨some .transportErr, none, none⟩ })

/-- 41_humidity_control.md rule R122. The thirteen bytes `r` are those of the calibration reads. -/
def Obligations.HtActPowersUpAndCalibrates : Prop :=
  decode 0x14 = some .htAct ∧
  ∀ (s : State) (old w : Byte) (r : CalBytes), s.Idle →
    let script := actScript s.params.calMap old w r
    (s.htState = .uninit → exec .htAct s = .next { s with res := ⟨some .stateErr, none, none⟩ }) ∧
    (s.htState ≠ .uninit → s.plays script = true →
      exec .htAct s = .next { s.afterScript script with
        cal := ⟨some r.h0, some r.h1, some (assemble10 r.t0 (msb0 r.m)), some (assemble10 r.t1 (msb1 r.m)),
          some (compose16 r.a0 r.a1), some (compose16 r.b0 r.b1), some (compose16 r.c0 r.c1),
          some (compose16 r.d0 r.d1)⟩
        htState := .active, res := ⟨some .ok, none, none⟩ }) ∧
    ∀ k < 15, s.htState ≠ .uninit → s.plays (failAt script k) = true →
      exec .htAct s = .next { s.afterScript (failAt script k) with
        cal := Cal.empty, htState := .inited, res := ⟨some .transportErr, none, none⟩ }

/-- 41_humidity_control.md rule R123. -/
def Obligations.HtSetbduSetsOrClearsBduBit : Prop :=
  decode 0x16 = some (.htSetbdu false) ∧ decode 0x17 = some (.htSetbdu true) ∧
  ∀ (s : State) (a : Bool) (old w : Byte), s.Idle →
    let script := rmwScript 0x5F 0x20 old (if a then old ||| 0x04 else old &&& 0xFB) w
    (s.htState = .uninit → exec (.htSetbdu a) s = .next { s with res := ⟨some .stateErr, none, none⟩ }) ∧
    (s.htState ≠ .uninit → s.plays script = true →
      exec (.htSetbdu a) s = .next { s.afterScript script with res := ⟨some .ok, none, none⟩ }) ∧
    ∀ k < 2, s.htState ≠ .uninit → s.plays (failAt script k) = true →
      exec (.htSetbdu a) s =
        .next { s.afterScript (failAt script k) with res := ⟨some .transportErr, none, none⟩ }

/-! ## Calibration -/

/-- 42_calibration_unpack.md rule R146, inside HT.ACT; and 30_encoding.md rule R74: outside it HT.CAL is an illegal command.
What a transport error does is HT.ACT's handler (41_humidity_control.md rule R122, log entry 7). -/
def Obligations.HtCalUnpacksThirteenBytes : Prop :=
  (∀ (s : State) (r : CalBytes), s.busy = true → s.running = some .htAct → s.lock = false →
    let script := calScript s.params.calMap r
    (s.plays script = true →
      exec .htCal s = .next { s.afterScript script with
        cal := ⟨some r.h0, some r.h1, some (assemble10 r.t0 (msb0 r.m)), some (assemble10 r.t1 (msb1 r.m)),
          some (compose16 r.a0 r.a1), some (compose16 r.b0 r.b1), some (compose16 r.c0 r.c1),
          some (compose16 r.d0 r.d1)⟩ }) ∧
    ∀ k < 13, s.plays (failAt script k) = true →
      exec .htCal s = .next { s.afterScript (failAt script k) with
        cal := Cal.empty, htState := .inited, busy := false, running := none
        res := ⟨some .transportErr, none, none⟩ }) ∧
  ∀ s : State, s.Idle → exec .htCal s = .next { s with res := ⟨some .illegalCmd, none, none⟩ }

/-- 42_calibration_unpack.md rule R146 with the default addresses: the reads, their order and their critical sections. -/
def Obligations.DefaultCalibrationReads : Prop :=
  ∀ r : CalBytes, calScript defaultCalMap r =
    [readOk false 0x5F 0x30 r.h0, readOk false 0x5F 0x31 r.h1, readOk false 0x5F 0x32 r.t0,
     readOk false 0x5F 0x33 r.t1, readOk false 0x5F 0x35 r.m,
     readOk true 0x5F 0x36 r.a0, readOk true 0x5F 0x37 r.a1, readOk true 0x5F 0x3A r.b0, readOk true 0x5F 0x3B r.b1,
     readOk true 0x5F 0x3C r.c0, readOk true 0x5F 0x3D r.c1, readOk true 0x5F 0x3E r.d0, readOk true 0x5F 0x3F r.d1]

/-- 42_calibration_unpack.md rule R146 with any addresses the parameters allow: the thirteen locations, in strictly ascending
register address, each exactly once. -/
def Obligations.CalibrationReadsAscend : Prop :=
  ∀ (m : CalMap) (r : CalBytes), m.wellFormed = true →
    ((calScript m r).map eventReg).Pairwise (· < ·) ∧ ((calScript m r).map eventReg).Perm m.locations

/-- 42_calibration_unpack.md rule R147 (the spec marks it as its own inference): whatever happened before, `CAL` after an
HT.ACT that ends `OK` is the unpacking of the thirteen bytes that this HT.ACT read, and of nothing else; TP0 and TP1 see two
bits each of the shared byte. -/
def Obligations.CalDependsOnlyOnBytesRead : Prop :=
  (∀ s t : State, s.Idle → exec .htAct s = .next t → t.res.status = some .ok →
    ∃ (old w : Byte) (r : CalBytes),
      t.events = s.events ++ actScript s.params.calMap old w r ∧ t.cal = unpackCal r ∧ t.htState = .active) ∧
  (∀ r r' : CalBytes, r.t0 = r'.t0 → r.m.toNat % 4 = r'.m.toNat % 4 → (unpackCal r).tp0 = (unpackCal r').tp0) ∧
  ∀ r r' : CalBytes, r.t1 = r'.t1 → r.m.toNat / 4 % 4 = r'.m.toNat / 4 % 4 → (unpackCal r).tp1 = (unpackCal r').tp1

/-- 42_calibration_unpack.md rules R141, R143 and R144: the codes as integers, all unsigned. -/
def Obligations.CodesAreUnsignedCompositions : Prop :=
  (∀ lo hi : Byte, (compose16 lo hi).toNat = lo.toNat + 256 * hi.toNat) ∧
  (∀ (lo8 : Byte) (msb2 : BitVec 2), (assemble10 lo8 msb2).toNat = 256 * msb2.toNat + lo8.toNat) ∧
  ∀ m : Byte, (msb0 m).toNat = m.toNat % 4 ∧ (msb1 m).toNat = m.toNat / 4 % 4

/-- 42_calibration_unpack.md rule R142. -/
def Obligations.Compose16RoundTrips : Prop :=
  (∀ r : Code16, (low8 r).toNat = r.toNat % 256 ∧ (high8 r).toNat = r.toNat / 256) ∧
  (∀ r : Code16, compose16 (low8 r) (high8 r) = r) ∧
  ∀ lo hi : Byte, low8 (compose16 lo hi) = lo ∧ high8 (compose16 lo hi) = hi

/-! ## The HT unit, read commands -/

/-- 43_interpolation.md rule R166, up to the first status read without the ready bit; the poll goes on by
`PollTurnsUntilReady`. That the command hands over there is the model's choice (log entry 1). -/
def Obligations.HtRdhReadsHumidity : Prop :=
  ∀ (s : State) (st lo hi : Byte), s.Idle →
    let status := [readOk false 0x5F 0x27 st]
    let script := status ++ [readOk true 0x5F 0x28 lo, readOk true 0x5F 0x29 hi]
    (s.htState ≠ .active → exec .htRdh s = .next { s with res := ⟨some .stateErr, none, none⟩ }) ∧
    (s.htState = .active → s.params.pollLimit ≠ .reads 0 →
      (st.getLsbD 1 = true → s.plays script = true →
        ∀ (o0 o1 : Code16) (p0 p1 : Byte),
          s.cal.ho0 = some o0 → s.cal.ho1 = some o1 → s.cal.hp0 = some p0 → s.cal.hp1 = some p1 →
          exec .htRdh s = .next { s.afterScript script with
            pollCnt := 1
            res := if o1 = o0 then ⟨some .calErr, none, none⟩
              else ⟨some .ok, none, some (evalF s.params.numerics
                (interp2 (compose16 lo hi).toNat o0.toNat o1.toNat p0.toNat p1.toNat ⟨2, 0⟩))⟩ }) ∧
      (st.getLsbD 1 = false → s.plays status = true →
        exec .htRdh s = .next { s.afterScript status with
          pollCnt := 1, busy := true, running := some .htRdh }) ∧
      ∀ k < 3, (0 < k → st.getLsbD 1 = true) → s.plays (failAt script k) = true →
        exec .htRdh s = .next { s.afterScript (failAt script k) with
          pollCnt := if k = 0 then 0 else 1, res := ⟨some .transportErr, none, none⟩ })

/-- 43_interpolation.md rule R167, up to the first status read without the ready bit (log entry 1, as for HT.RDH). -/
def Obligations.HtRdtcReadsTemperature : Prop :=
  ∀ (s : State) (st lo hi : Byte), s.Idle →
    let status := [readOk false 0x5F 0x27 st]
    let script := status ++ [readOk true 0x5F 0x2A lo, readOk true 0x5F 0x2B hi]
    (s.htState ≠ .active → exec .htRdtc s = .next { s with res := ⟨some .stateErr, none, none⟩ }) ∧
    (s.htState = .active → s.params.pollLimit ≠ .reads 0 →
      (st.getLsbD 0 = true → s.plays script = true →
        ∀ (o0 o1 : Code16) (p0 p1 : Code10),
          s.cal.to0 = some o0 → s.cal.to1 = some o1 → s.cal.tp0 = some p0 → s.cal.tp1 = some p1 →
          exec .htRdtc s = .next { s.afterScript script with
            pollCnt := 1
            res := if o1 = o0 then ⟨some .calErr, none, none⟩
              else ⟨some .ok, none, some (evalF s.params.numerics
                (interp2 (compose16 lo hi).toNat o0.toNat o1.toNat p0.toNat p1.toNat ⟨80, 1⟩))⟩ }) ∧
      (st.getLsbD 0 = false → s.plays status = true →
        exec .htRdtc s = .next { s.afterScript status with
          pollCnt := 1, busy := true, running := some .htRdtc }) ∧
      ∀ k < 3, (0 < k → st.getLsbD 0 = true) → s.plays (failAt script k) = true →
        exec .htRdtc s = .next { s.afterScript (failAt script k) with
          pollCnt := if k = 0 then 0 else 1, res := ⟨some .transportErr, none, none⟩ })

/-- 43_interpolation.md rule R165: one turn of the poll of either channel. At the limit the command ends with `TIMEOUT` and
reads nothing; below it one status read is made and counted; without the bit the poll goes on; with it the sample is
fetched and converted; a transport error ends the command. That a turn is a step is the model's choice (log entry 1). -/
def Obligations.PollTurnsUntilReady : Prop :=
  ∀ (ch : Channel) (s : State) (st lo hi : Byte), s.Polling ch →
    let bit := st.getLsbD (readyBit ch)
    let status := [readOk false 0x5F 0x27 st]
    let script := status ++ sampleScript ch lo hi
    (s.params.pollLimit = .reads s.pollCnt →
      step s = .next { s with busy := false, running := none, res := ⟨some .timeout, none, none⟩ }) ∧
    (s.params.pollLimit ≠ .reads s.pollCnt →
      (bit = false → s.plays status = true →
        step s = .next { s.afterScript status with pollCnt := s.pollCnt + 1 }) ∧
      (bit = true → s.plays script = true → ∀ k : ChannelCal, channelCal ch s.cal = some k →
        step s = .next { s.afterScript script with
          pollCnt := s.pollCnt + 1, busy := false, running := none
          res := if k.out1 - k.out0 = 0 then ⟨some .calErr, none, none⟩
            else ⟨some .ok, none, some (evalF s.params.numerics (interpChannel ch k (compose16 lo hi)))⟩ }) ∧
      ∀ k < 3, (0 < k → bit = true) → s.plays (failAt script k) = true →
        step s = .next { s.afterScript (failAt script k) with
          pollCnt := if k = 0 then s.pollCnt else s.pollCnt + 1, busy := false, running := none
          res := ⟨some .transportErr, none, none⟩ })

/-- 43_interpolation.md rule R165: with the ready bit at the `k`-th status read exactly `k` status reads are made; they and
the fetch are `k` steps (the steps: log entry 1). -/
def Obligations.ReadyAtKthPollMakesExactlyKReads : Prop :=
  ∀ (ch : Channel) (s : State) (w : Byte) (rest : List Byte) (sts : List Byte) (st lo hi : Byte) (k : ChannelCal),
    s.Idle → s.htState = .active → s.cmd = w :: rest → decode w = some (channelInstr ch) →
    channelCal ch s.cal = some k →
    (∀ b ∈ sts, b.getLsbD (readyBit ch) = false) →
    st.getLsbD (readyBit ch) = true →
    (∀ n, s.params.pollLimit = .reads n → sts.length < n) →
    s.plays (statusScript (sts ++ [st]) ++ sampleScript ch lo hi) = true →
    Sys2Proof.core.run (sts.length + 1) s =
      .next { s.afterScript (statusScript (sts ++ [st]) ++ sampleScript ch lo hi) with
        cmd := rest, pollCnt := sts.length + 1
        res := if k.out1 - k.out0 = 0 then ⟨some .calErr, none, none⟩
          else ⟨some .ok, none, some (evalF s.params.numerics (interpChannel ch k (compose16 lo hi)))⟩ }

/-- 43_interpolation.md rule R165 and 60_exceptions.md rule R205: if none of the first `POLL_LIMIT` status reads shows the bit,
`TIMEOUT` after exactly that many reads, and no data register is read (the number of steps: log entry 1). -/
def Obligations.TimeoutAfterExactlyPollLimitReads : Prop :=
  ∀ (ch : Channel) (s : State) (w : Byte) (rest : List Byte) (sts : List Byte),
    s.Idle → s.htState = .active → s.cmd = w :: rest → decode w = some (channelInstr ch) →
    (∀ b ∈ sts, b.getLsbD (readyBit ch) = false) →
    s.params.pollLimit = .reads sts.length → 0 < sts.length →
    s.plays (statusScript sts) = true →
    Sys2Proof.core.run (sts.length + 1) s =
      .next { s.afterScript (statusScript sts) with
        cmd := rest, pollCnt := sts.length, res := ⟨some .timeout, none, none⟩ }

/-- 60_exceptions.md rules R205 and R212: with `POLL_LIMIT = INF` a sensor that does not raise the bit keeps the command
running, for as many steps as there are such answers (the steps: log entry 1). -/
def Obligations.UnboundedPollKeepsRunning : Prop :=
  ∀ (ch : Channel) (s : State) (sts : List Byte),
    s.Polling ch → s.params.pollLimit = .inf →
    (∀ b ∈ sts, b.getLsbD (readyBit ch) = false) →
    s.plays (statusScript sts) = true →
    Sys2Proof.core.run sts.length s =
      .next { s.afterScript (statusScript sts) with pollCnt := s.pollCnt + sts.length }

/-- 43_interpolation.md rule R165: with a finite `POLL_LIMIT` every HT read command comes to its end, whatever the
environment answers, within one step for each status read that is left and one more (the steps: log entry 1). -/
def Obligations.BoundedPollFinishes : Prop :=
  ∀ (s : State) (n : Nat), s.Inv → s.busy = true → s.params.pollLimit = .reads n →
    ∃ (j : Nat) (t : State), j ≤ n - s.pollCnt + 1 ∧ Sys2Proof.core.run j s = .next t ∧
      t.Idle ∧ t.res.status.isSome = true ∧ t.cmd = s.cmd

/-! ## Rules of the whole machine -/

/-- 10_state.md rule R24 (the spec marks it as its own inference) and rule R29, at reset; and the parameters, which no step
changes (`StepExtendsHistory`), are among those 00_scope.md rule R5 and 20_memory.md rule R43 allow. -/
def Obligations.ResetMeetsBlockInvariant : Prop :=
  State.reset.Inv ∧ State.reset.BusInv ∧ State.reset.ResInv ∧ Block.reset.Inv ∧ State.reset.params.wellFormed = true

/-- 10_state.md rules R24 (the spec marks it as its own inference) and R29, for every step from every state that meets the
invariant; and no such state stops. -/
def Obligations.StepKeepsBlockInvariant : Prop :=
  ∀ s : State, s.Inv → ∃ t : State, step s = .next t ∧ t.Inv

/-- 20_memory.md rules R43 and R52: nothing outside the address map is ever accessed, only register 0x20 is written, and
LOCK is 1 exactly where the table of critical sections says. -/
def Obligations.StepKeepsToAddressMap : Prop :=
  ∀ s t : State, s.lock = false → s.BusInv → step s = .next t → t.BusInv

/-- 30_encoding.md rules R76 and R77: the fields of RES match its status, and no value is an infinity or a NaN. -/
def Obligations.StepKeepsResultWellFormed : Prop :=
  ∀ s t : State, s.ResInv → step s = .next t → t.ResInv

/-- 20_memory.md rules R47 and R48, 41_humidity_control.md rule R122: a step only adds to the history, and it never changes
the parameters. That a step is a whole command, which makes at most fifteen transactions, is the model's choice (log entry 1;
one step of the transaction level makes at most one), and so is that each takes one answer of the queue (log entry 2). -/
def Obligations.StepExtendsHistory : Prop :=
  ∀ s t : State, step s = .next t →
    ∃ es : List Event, es.length ≤ 15 ∧ t.events = s.events ++ es ∧ t.answers = s.answers.drop es.length ∧
      t.params = s.params

/-- 20_memory.md rule R51: a transport error, of a command or of a later turn of its poll, is the last transaction of the
command, and the command ends there with `TRANSPORT_ERR` and LOCK 0; and no command ends so without one. -/
def Obligations.TransportErrorIsNeverSwallowed : Prop :=
  (∀ (i : Instr) (s t : State), s.Idle → exec i s = .next t →
    ∃ es : List Event, t.events = s.events ++ es ∧ (∀ e ∈ es.dropLast, e.answer ≠ .error) ∧ t.lock = false ∧
      ((∃ e ∈ es, e.answer = .error) ↔ (t.busy = false ∧ t.res.status = some .transportErr))) ∧
  ∀ (ch : Channel) (s t : State), s.Polling ch → step s = .next t →
    ∃ es : List Event, t.events = s.events ++ es ∧ (∀ e ∈ es.dropLast, e.answer ≠ .error) ∧ t.lock = false ∧
      ((∃ e ∈ es, e.answer = .error) ↔ (t.busy = false ∧ t.res.status = some .transportErr))

/-- 60_exceptions.md rule R206: which commands end with `STATE_ERR` in which states; then nothing but RES changes. -/
def Obligations.StateErrChangesOnlyRes : Prop :=
  ∀ (i : Instr) (s : State), s.Idle →
    let refused : Prop := match i with
      | .htPdown | .htAct | .htSetbdu _ => s.htState = .uninit
      | .htRdh | .htRdtc => s.htState ≠ .active
      | _ => False
    (refused → exec i s = .next { s with res := ⟨some .stateErr, none, none⟩ }) ∧
    (¬ refused → ∀ t, exec i s = .next t → t.busy = false → t.res.status ≠ some .stateErr)

/-- 10_state.md rule R23: the next-state table, for every command and state. -/
def Obligations.HtStateFollowsTable : Prop :=
  ∀ (i : Instr) (s t : State), s.Idle → exec i s = .next t →
    match i with
    | .htInit =>
      t.htState = if t.res.status ≠ some .transportErr ∧ s.htState = .uninit then .inited else s.htState
    | .htAct =>
      t.htState = if s.htState = .uninit then .uninit
        else if t.res.status = some .ok then .active else .inited
    | .htPdown =>
      (s.htState = .uninit → t.htState = .uninit) ∧
      (s.htState ≠ .uninit → t.res.status = some .ok → t.htState = .pdown) ∧
      (t.htState = s.htState ∨ t.htState = .pdown)
    | _ => t.htState = s.htState

/-- 10_state.md rule R22: `CAL` is populated by HT.ACT alone, emptied by HT.ACT and HT.PDOWN alone, and otherwise kept. -/
def Obligations.OnlyActivationPopulatesCal : Prop :=
  ∀ (i : Instr) (s t : State), s.Idle → exec i s = .next t →
    t.cal = s.cal ∨ (t.cal = Cal.empty ∧ (i = .htAct ∨ i = .htPdown)) ∨
      (t.cal.isFull = true ∧ i = .htAct ∧ t.res.status = some .ok)

/-- 43_interpolation.md rules R166 and R167, 40_pressure_temp.md rule R100: the frame of the commands that only read, and of
PT.INIT; for the HT reads in every later turn of the poll too (log entry 1). -/
def Obligations.ReadsAndPtCommandsKeepHtUnit : Prop :=
  (∀ (i : Instr) (s t : State),
    (i = .ptInit ∨ i = .ptIdent ∨ i = .ptRdtc ∨ i = .ptRdtf ∨ i = .ptRdpm ∨ i = .htRdh ∨ i = .htRdtc) →
    exec i s = .next t →
      t.cal = s.cal ∧ t.htState = s.htState ∧ t.cmd = s.cmd ∧ t.params = s.params ∧
      (i ≠ .htRdh → i ≠ .htRdtc → t.pollCnt = s.pollCnt)) ∧
  ∀ (ch : Channel) (s t : State), s.Polling ch → step s = .next t →
    t.cal = s.cal ∧ t.htState = s.htState ∧ t.cmd = s.cmd ∧ t.params = s.params

/-- 10_state.md rule R25: a PT command does the same on the bus and in RES whatever the HT unit's state is. -/
def Obligations.PtCommandsIgnoreHtUnit : Prop :=
  ∀ (i : Instr) (s s' t : State),
    (i = .ptInit ∨ i = .ptIdent ∨ i = .ptRdtc ∨ i = .ptRdtf ∨ i = .ptRdpm) →
    s.Idle → s'.Idle → s.answers = s'.answers → s.events = s'.events → s.params = s'.params →
    exec i s = .next t →
      ∃ t', exec i s' = .next t' ∧ t'.res = t.res ∧ t'.events = t.events ∧ t'.answers = t.answers

/-- 60_exceptions.md rule R211: a command that has finished, with whatever status, in its first step or in a later turn of its
poll (log entry 1), leaves an idle block whose result the host can read (10_state.md rule R28). While BUSY is 1, and before the
first result, the host's read stops; that it does so by a fault and by a refusal is the model's choice (log entry 16). -/
def Obligations.FinishedCommandLeavesIdleBlock : Prop :=
  (∀ (i : Instr) (s t : State), s.Idle → exec i s = .next t → t.busy = false →
    t.Idle ∧ t.res.status.isSome = true ∧ hostReadRes t = .next t.res) ∧
  (∀ (ch : Channel) (s t : State), s.Polling ch → step s = .next t → t.busy = false →
    t.Idle ∧ t.res.status.isSome = true ∧ hostReadRes t = .next t.res) ∧
  (∀ s : State, s.busy = true → hostReadRes s = .fault .resReadWhileBusy) ∧
  ∀ s : State, s.busy = false → s.res.status = none → hostReadRes s = .refused .resNotYetWritten

/-! ## Numbers -/

/-- 40_pressure_temp.md rule R101: the formula as the tree of operations the rule writes, its value in `NUM_Q`, the range of
its integer with both ends met, the range of its result, and two byte pairs with one integer. -/
def Obligations.PtTemperatureFormula : Prop :=
  (∀ lo hi : Byte,
    ptTempC lo hi =
      .add (.lit ⟨425, 1⟩) (.div (.ofInt (hi.toNat * 255 + lo.toNat - 65536)) (.lit ⟨4800, 1⟩)) ∧
    evalQ (ptTempC lo hi) = 85 / 2 + (((hi.toNat * 255 + lo.toNat : Nat) : Rat) - 65536) / 480 ∧
    -65536 ≤ ptTempInt lo hi ∧ ptTempInt lo hi ≤ -256 ∧
    -2821 / 30 ≤ evalQ (ptTempC lo hi) ∧ evalQ (ptTempC lo hi) ≤ 1259 / 30) ∧
  ptTempInt 0 0 = -65536 ∧ ptTempInt 255 255 = -256 ∧ ptTempInt 255 0 = -65281 ∧ ptTempInt 0 1 = -65281

/-- 40_pressure_temp.md rule R102: the formula, the range of its integer, that `NUM_B64` is exact for every input, and two
byte triples with one integer. -/
def Obligations.PtPressureExactInBinary64 : Prop :=
  (∀ lo mid hi : Byte,
    ptPressMbar lo mid hi =
      .div (.ofInt (hi.toNat * 65535 + mid.toNat * 255 + lo.toNat)) (.lit ⟨40960, 1⟩) ∧
    0 ≤ ptPressInt lo mid hi ∧ ptPressInt lo mid hi ≤ 16776705 ∧
    evalQ (ptPressMbar lo mid hi) = ((hi.toNat * 65535 + mid.toNat * 255 + lo.toNat : Nat) : Rat) / 4096 ∧
    b64Finite (evalB64 (ptPressMbar lo mid hi)) = true ∧
    b64Value (evalB64 (ptPressMbar lo mid hi)) = evalQ (ptPressMbar lo mid hi)) ∧
  ptPressInt 255 0 0 = 255 ∧ ptPressInt 0 1 0 = 255

/-- 40_pressure_temp.md rule R103: `C2F` as the tree of operations the rule writes, its value in `NUM_Q`, and the Fahrenheit
image of the sentinel in both instances, one unit in the last place from the literal -459.67. -/
def Obligations.FahrenheitOfSentinel : Prop :=
  (∀ c : FExpr, c2f c = .add (.mul c (.lit ⟨18, 1⟩)) (.lit ⟨32, 0⟩) ∧ evalQ (c2f c) = evalQ c * (9 / 5) + 32) ∧
  evalQ (c2f (.lit ⟨-27315, 2⟩)) = -45967 / 100 ∧
  evalB64 (.lit ⟨18, 1⟩) = 0x3FFCCCCCCCCCCCCD ∧ evalB64 (.lit ⟨-27315, 2⟩) = 0xC071126666666666 ∧
  evalB64 (c2f (.lit ⟨-27315, 2⟩)) = 0xC07CBAB851EB851E ∧ evalB64 (.lit ⟨-45967, 2⟩) = 0xC07CBAB851EB851F

/-- 70_reset_and_hazards.md rule R251: no reading equals a sentinel, in either instance. -/
def Obligations.NoReadingEqualsSentinel : Prop :=
  ∀ (n : Numerics) (lo mid hi : Byte),
    evalF n (ptTempC lo hi) ≠ evalF n (.lit ⟨-27315, 2⟩) ∧
    evalF n (c2f (ptTempC lo hi)) ≠ evalF n (c2f (.lit ⟨-27315, 2⟩)) ∧
    evalF n (ptPressMbar lo mid hi) ≠ evalF n (.lit ⟨-1, 0⟩)

/-- 43_interpolation.md rule R161: the `NUM_Q` result as one fraction. -/
def Obligations.InterpolationInRationals : Prop :=
  ∀ (raw out0 out1 p0 p1 : Int) (scale : Decimal), InterpOperands raw out0 out1 p0 p1 scale →
    evalQ (interp2 raw out0 out1 p0 p1 scale) =
      ((raw : Rat) - out0) * ((p1 : Rat) - p0) / (scaleValue scale * ((out1 : Rat) - out0)) + p0 / scaleValue scale

/-- 43_interpolation.md rule R164 (a): exact at the calibration points in `NUM_Q` and in `NUM_B64` alike. -/
def Obligations.InterpolationExactAtPoints : Prop :=
  ∀ (n : Numerics) (out0 out1 p0 p1 : Int) (scale : Decimal), InterpOperands out0 out0 out1 p0 p1 scale →
    evalF n (interp2 out0 out0 out1 p0 p1 scale) = evalF n (.div (.ofInt p0) (.lit scale)) ∧
    evalF n (interp2 out1 out0 out1 p0 p1 scale) = evalF n (.div (.ofInt p1) (.lit scale)) ∧
    (evalF n (.div (.ofInt p0) (.lit scale))).value = p0 / scaleValue scale ∧
    (evalF n (.div (.ofInt p1) (.lit scale))).value = p1 / scaleValue scale

/-- 43_interpolation.md rule R164 (b) in `NUM_Q`: strictly increasing, strictly decreasing, or constant. -/
def Obligations.InterpolationStrictlyMonotoneInRationals : Prop :=
  ∀ (raw raw' out0 out1 p0 p1 : Int) (scale : Decimal),
    InterpOperands raw out0 out1 p0 p1 scale → raw < raw' →
    (0 < (p1 - p0) * (out1 - out0) →
      evalQ (interp2 raw out0 out1 p0 p1 scale) < evalQ (interp2 raw' out0 out1 p0 p1 scale)) ∧
    ((p1 - p0) * (out1 - out0) < 0 →
      evalQ (interp2 raw' out0 out1 p0 p1 scale) < evalQ (interp2 raw out0 out1 p0 p1 scale)) ∧
    (p1 = p0 → evalQ (interp2 raw out0 out1 p0 p1 scale) = p0 / scaleValue scale)

/-- 43_interpolation.md rule R164 (b) in `NUM_B64`: never decreasing, or never increasing, because each rounded operation is
monotone. -/
def Obligations.InterpolationMonotoneInBinary64 : Prop :=
  ∀ (raw raw' out0 out1 p0 p1 : Int) (scale : Decimal),
    InterpOperands raw out0 out1 p0 p1 scale → InterpOperands raw' out0 out1 p0 p1 scale → raw ≤ raw' →
    (0 ≤ (p1 - p0) * (out1 - out0) →
      b64Value (evalB64 (interp2 raw out0 out1 p0 p1 scale)) ≤ b64Value (evalB64 (interp2 raw' out0 out1 p0 p1 scale))) ∧
    ((p1 - p0) * (out1 - out0) ≤ 0 →
      b64Value (evalB64 (interp2 raw' out0 out1 p0 p1 scale)) ≤ b64Value (evalB64 (interp2 raw out0 out1 p0 p1 scale)))

/-- 43_interpolation.md rule R164 (c). -/
def Obligations.InterpolationPointsMaySwap : Prop :=
  ∀ (raw out0 out1 p0 p1 : Int) (scale : Decimal), InterpOperands raw out0 out1 p0 p1 scale →
    evalQ (interp2 raw out1 out0 p1 p0 scale) = evalQ (interp2 raw out0 out1 p0 p1 scale)

/-- 43_interpolation.md rule R161: the two instances differ by less than 2^-29. -/
def Obligations.InterpolationRoundingBound : Prop :=
  ∀ (raw out0 out1 p0 p1 : Int) (scale : Decimal), InterpOperands raw out0 out1 p0 p1 scale →
    b64Finite (evalB64 (interp2 raw out0 out1 p0 p1 scale)) = true ∧
    |b64Value (evalB64 (interp2 raw out0 out1 p0 p1 scale)) - evalQ (interp2 raw out0 out1 p0 p1 scale)| <
      1 / 2 ^ 29

/-! ## The transaction level -/

/-- 00_scope.md rule R2: a step of the block is one bus transaction (with the LOCK and the answer of that moment), one state
update, the acceptance of a command among them, or the delivery of one result; nothing else happens in it. That a line which
only tests, and waiting, are steps too, and that an illegal word is taken from CMD in the step that delivers its result, is the
model's choice (log entries 17 and 18). -/
def Obligations.BlockStepIsOneTransactionUpdateOrResult : Prop :=
  ∀ b c : Block, blockStep b = .next c →
    (∃ e : Event, e.lock = b.state.lock ∧ e.answer = nextAnswer b.state.answers b.state.events e.txn ∧
      c.state = b.state.afterScript [e]) ∨
    (∃ k : Cal, c.state = { b.state with cal := k }) ∨
    (∃ h : HtState, c.state = { b.state with htState := h }) ∨
    (∃ l : Bool, c.state = { b.state with lock := l }) ∨
    (∃ n : Nat, c.state = { b.state with pollCnt := n }) ∨
    (∃ (w : Byte) (rest : List Byte) (i : Instr), b.state.cmd = w :: rest ∧ decode w = some i ∧ b.state.busy = false ∧
      c.state = { b.state with cmd := rest, busy := true, running := some i }) ∨
    (∃ (st : Status) (byte : Option Byte) (value : Option FNum) (cmd : List Byte),
      (cmd = b.state.cmd ∨ (st = .illegalCmd ∧ ∃ w, b.state.cmd = w :: cmd)) ∧ c.todo = [] ∧
      c.state = { b.state with
        res := ⟨some st, byte, value⟩, lock := false, busy := false, running := none, cmd := cmd })

/-- 00_scope.md rule R2 and 10_state.md rule R27: what `step` does to a block at rest is what the steps of the transaction
level do one after the other, up to the next block at rest that it answers, or to the same fault. That `step` takes them
together is the model's choice (log entries 1 and 18). -/
def Obligations.TransactionStepsMakeEachStep : Prop :=
  ∀ b : Block, b.AtRest →
    match step b.state with
    | .next t => ∃ (n : Nat) (c : Block), transactionCore.run n b = .next c ∧ c.state = t ∧ c.AtRest
    | .fault r => ∃ n : Nat, transactionCore.run n b = .fault r
    | .refused _ => False

/-- 20_memory.md rules R43, R51 and R52 and 10_state.md rule R29, at every instant, inside a command as well. LOCK is 1 exactly
from before the first to after the last transaction of one critical section of the command, a row of the table of rule R52 run
through whole: the transactions of the section already made are the last of the history, and those to come are its next ones.
Outside the sections the command makes the reads the table leaves unlocked, and no other. A step whose transaction is answered
with an error leaves LOCK as it was and only the lines that handle the error, none of them a transaction; up to their `finish`,
which clears it, LOCK is 1 exactly if the failed transaction was one of a critical section. With BUSY 0, LOCK is 0. The place
inside a command is the list of its remaining lines by the model's choice (log entry 18). -/
def Obligations.BlockStepKeepsCriticalSections : Prop :=
  ∀ b c : Block, b.Inv → blockStep b = .next c →
    c.Inv ∧
    ∀ e : Event, c.state.events = b.state.events ++ [e] → e.answer = .error →
      e.lock = b.state.lock ∧ c.state.lock = b.state.lock ∧ c.todo = errorLines b.state.running
end

