-- ==== Sys2Proof/Laws/Binary64.lean ====
section
/-! SUPPORT. Binary64 arithmetic over the rationals: `rnd` is the rounding of a rational, it is monotone (`rnd_mono`), exact on
representable numbers (`rnd_exact`) and close (`rnd_error`); every operation on finite patterns is `rnd` of the exact result
(`b64Add_value`, `b64Mul_value`, `b64Div_value`, `b64OfInt_value`, `b64OfDecimal_eq`). -/

namespace Sys2Proof.Machine

/-! ## Rounding to an integer -/
theorem roundHalfEven_bounds (n : Nat) {d : Nat} (hd : 0 < d) :
    2 * n ≤ (2 * roundHalfEven n d + 1) * d ∧ 2 * roundHalfEven n d * d ≤ 2 * n + d := by
  have h := Nat.div_add_mod n d
  have hm := Nat.mod_lt n hd
  simp only [roundHalfEven]
  generalize n / d = q at *
  generalize n % d = r at *
  subst h
  split_ifs <;> constructor <;> nlinarith

theorem roundHalfEven_mul (k : Nat) {d : Nat} (hd : 0 < d) : roundHalfEven (k * d) d = k := by
  simp [roundHalfEven, hd]

theorem roundHalfEven_mono {n n' d : Nat} (hd : 0 < d) (h : n ≤ n') : roundHalfEven n d ≤ roundHalfEven n' d := by
  have hq : n / d ≤ n' / d := Nat.div_le_div_right h
  have h1 := Nat.div_add_mod n d
  have h2 := Nat.div_add_mod n' d
  have hm := Nat.mod_lt n hd
  simp only [roundHalfEven]
  generalize n / d = q at *
  generalize n % d = r at *
  generalize n' / d = q' at *
  generalize n' % d = r' at *
  rcases hq.eq_or_lt with rfl | hlt
  · have : r ≤ r' := by omega
    split_ifs <;> omega
  · split_ifs <;> omega

theorem roundHalfEven_scale (n d : Nat) {c : Nat} (hc : 0 < c) : roundHalfEven (n * c) (d * c) = roundHalfEven n d := by
  simp only [roundHalfEven, Nat.mul_div_mul_right _ _ hc, Nat.mul_mod_mul_right]
  have e1 : (2 * (n % d * c) < d * c) = (2 * (n % d) < d) := by
    rw [← mul_assoc]; exact propext (Nat.mul_lt_mul_right hc)
  have e2 : (d * c < 2 * (n % d * c)) = (d < 2 * (n % d)) := by
    rw [← mul_assoc]; exact propext (Nat.mul_lt_mul_right hc)
  simp only [e1, e2]

/-- depends on, and is monotone in, the ratio alone -/
theorem roundHalfEven_mono_ratio {n d n' d' : Nat} (hd : 0 < d) (hd' : 0 < d') (h : n * d' ≤ n' * d) :
    roundHalfEven n d ≤ roundHalfEven n' d' := by
  rw [← roundHalfEven_scale n d hd', ← roundHalfEven_scale n' d' hd, Nat.mul_comm d' d]
  exact roundHalfEven_mono (Nat.mul_pos hd hd') h

/-! ## The exponent -/
theorem floorLog2_spec {n d : Nat} (hn : 0 < n) (hd : 0 < d) :
    (2 : Rat) ^ floorLog2 n d ≤ (n : Rat) / d ∧ (n : Rat) / d < (2 : Rat) ^ (floorLog2 n d + 1) := by
  have a1 : (2:Rat) ^ n.log2 ≤ n := by exact_mod_cast Nat.log2_self_le hn.ne'
  have a2 : (n:Rat) < 2 ^ (n.log2 + 1) := by exact_mod_cast Nat.lt_log2_self
  have b1 : (2:Rat) ^ d.log2 ≤ d := by exact_mod_cast Nat.log2_self_le hd.ne'
  have b2 : (d:Rat) < 2 ^ (d.log2 + 1) := by exact_mod_cast Nat.lt_log2_self
  have hd' : (0:Rat) < d := by exact_mod_cast hd
  have key : (d * 2 ^ (((n.log2 : Int) - d.log2)).toNat ≤ n * 2 ^ (-((n.log2 : Int) - d.log2)).toNat) ↔
      (2:Rat) ^ ((n.log2 : Int) - d.log2) ≤ (n:Rat) / d := by
    rw [le_div_iff₀ hd']
    rcases le_total (0:Int) ((n.log2 : Int) - d.log2) with hk | hk
    · obtain ⟨k, hk'⟩ := Int.eq_ofNat_of_zero_le hk
      rw [hk']
      simp only [Int.toNat_natCast, zpow_natCast, Int.toNat_neg_natCast, pow_zero, mul_one]
      rw [mul_comm]; exact_mod_cast Iff.rfl
    · obtain ⟨k, hk'⟩ := Int.eq_ofNat_of_zero_le (by omega : (0:Int) ≤ -((n.log2 : Int) - d.log2))
      have hk'' : (n.log2 : Int) - d.log2 = -(k:Int) := by omega
      rw [hk'']
      simp only [neg_neg, Int.toNat_natCast, zpow_neg, zpow_natCast, Int.toNat_neg_natCast, pow_zero, mul_one]
      rw [inv_mul_le_iff₀ (by positivity), mul_comm]; exact_mod_cast Iff.rfl
  unfold floorLog2
  simp only
  split_ifs with h
  · refine ⟨key.1 h, ?_⟩
    rw [div_lt_iff₀ hd']
    calc (n:Rat) < 2 ^ (n.log2 + 1) := a2
      _ = (2:Rat) ^ ((n.log2 : Int) - d.log2 + 1) * 2 ^ d.log2 := by
        rw [← zpow_natCast, ← zpow_natCast, ← zpow_add₀ (by norm_num)]; congr 1; push_cast; ring
      _ ≤ _ := by gcongr
  · have h' := fun hh => h (key.2 hh)
    refine ⟨?_, by simpa using lt_of_not_ge h'⟩
    rw [le_div_iff₀ hd']
    calc (2:Rat) ^ ((n.log2 : Int) - d.log2 - 1) * d ≤ (2:Rat) ^ ((n.log2 : Int) - d.log2 - 1) * 2 ^ (d.log2 + 1) := by gcongr
      _ = 2 ^ n.log2 := by
        rw [← zpow_natCast, ← zpow_natCast, ← zpow_add₀ (by norm_num)]; congr 1; push_cast; ring
      _ ≤ _ := a1


/-- floorLog2 is the only exponent with its property. -/
theorem floorLog2_unique {n d : Nat} (hn : 0 < n) (hd : 0 < d) {k : Int}
    (h1 : (2 : Rat) ^ k ≤ (n : Rat) / d) (h2 : (n : Rat) / d < (2 : Rat) ^ (k + 1)) : floorLog2 n d = k := by
  obtain ⟨g1, g2⟩ := floorLog2_spec hn hd
  have a := (zpow_lt_zpow_iff_right₀ (by norm_num : (1:Rat) < 2)).1 (h1.trans_lt g2)
  have b := (zpow_lt_zpow_iff_right₀ (by norm_num : (1:Rat) < 2)).1 (g1.trans_lt h2)
  omega

theorem b64UlpExp_spec {n d : Nat} (hn : 0 < n) (hd : 0 < d) :
    -1074 ≤ b64UlpExp n d ∧ (n : Rat) / d < (2 : Rat) ^ (b64UlpExp n d + 53) ∧
      (-1074 < b64UlpExp n d → (2 : Rat) ^ (b64UlpExp n d + 52) ≤ (n : Rat) / d) := by
  obtain ⟨g1, g2⟩ := floorLog2_spec hn hd
  refine ⟨le_max_left _ _, g2.trans_le ?_, fun h => ?_⟩
  · apply zpow_le_zpow_right₀ (by norm_num); unfold b64UlpExp; omega
  · refine le_trans ?_ g1
    apply zpow_le_zpow_right₀ (by norm_num); unfold b64UlpExp at h ⊢; omega

/-- The significand `b64RoundMag` takes. -/
def b64Sig (n d : Nat) : Nat :=
  roundHalfEven (n * 2 ^ (-(b64UlpExp n d)).toNat) (d * 2 ^ (b64UlpExp n d).toNat)

/-- The magnitude `b64RoundMag` stands for. -/
def rndMag (n d : Nat) : Rat := b64Sig n d * (2 : Rat) ^ b64UlpExp n d

theorem zpow_split (e : Int) : (2 : Rat) ^ e = (2 : Rat) ^ e.toNat / (2 : Rat) ^ (-e).toNat := by
  rcases le_total 0 e with h | h
  · obtain ⟨k, rfl⟩ := Int.eq_ofNat_of_zero_le h
    simp
  · obtain ⟨k, hk⟩ := Int.eq_ofNat_of_zero_le (by omega : (0:Int) ≤ -e)
    have : e = -(k:Int) := by omega
    subst this
    simp

theorem scaled_ratio (n d : Nat) (e : Int) (hd : 0 < d) :
    ((n * 2 ^ (-e).toNat : Nat) : Rat) / ((d * 2 ^ e.toNat : Nat) : Rat) * (2 : Rat) ^ e = (n : Rat) / d := by
  rw [zpow_split]
  have : (d : Rat) ≠ 0 := by exact_mod_cast hd.ne'
  push_cast
  field_simp

theorem scaled_den_pos (d : Nat) (e : Int) (hd : 0 < d) : 0 < d * 2 ^ e.toNat := by positivity

/-- rounding to a multiple of 2^e -/
theorem sig_error (n d : Nat) (hd : 0 < d) :
    |rndMag n d - (n : Rat) / d| ≤ (2 : Rat) ^ (b64UlpExp n d - 1) := by
  have hD := scaled_den_pos d (b64UlpExp n d) hd
  obtain ⟨h1, h2⟩ := roundHalfEven_bounds (n * 2 ^ (-(b64UlpExp n d)).toNat) hD
  have hs := scaled_ratio n d (b64UlpExp n d) hd
  unfold rndMag b64Sig
  generalize b64UlpExp n d = e at *
  generalize n * 2 ^ (-e).toNat = N at *
  generalize d * 2 ^ e.toNat = D at *
  rw [← hs, zpow_sub_one₀ (by norm_num), ← sub_mul, abs_mul, abs_of_pos (by positivity : (0:Rat) < 2 ^ e), mul_comm]
  have hD' : (0:Rat) < D := by exact_mod_cast hD
  have h1' : (2 * N : Rat) ≤ (2 * roundHalfEven N D + 1) * D := by exact_mod_cast h1
  have h2' : (2 * roundHalfEven N D * D : Rat) ≤ 2 * N + D := by exact_mod_cast h2
  gcongr
  rw [abs_le]
  constructor
  · have : (N : Rat) / D ≤ roundHalfEven N D + 2⁻¹ := by
      rw [div_le_iff₀ hD']; nlinarith
    linarith
  · have : (roundHalfEven N D : Rat) - 2⁻¹ ≤ N / D := by
      rw [le_div_iff₀ hD']; nlinarith
    linarith

theorem roundHalfEven_le_of_le {N D k : Nat} (hD : 0 < D) (h : N ≤ k * D) : roundHalfEven N D ≤ k := by
  have := roundHalfEven_mono hD h
  rwa [roundHalfEven_mul k hD] at this

theorem le_roundHalfEven_of_le {N D k : Nat} (hD : 0 < D) (h : k * D ≤ N) : k ≤ roundHalfEven N D := by
  have := roundHalfEven_mono hD h
  rwa [roundHalfEven_mul k hD] at this

theorem b64Sig_bounds {n d : Nat} (hn : 0 < n) (hd : 0 < d) :
    b64Sig n d ≤ 2 ^ 53 ∧ (-1074 < b64UlpExp n d → 2 ^ 52 ≤ b64Sig n d) := by
  obtain ⟨-, h2, h3⟩ := b64UlpExp_spec hn hd
  have hD := scaled_den_pos d (b64UlpExp n d) hd
  have hs := scaled_ratio n d (b64UlpExp n d) hd
  unfold b64Sig
  generalize b64UlpExp n d = e at *
  generalize n * 2 ^ (-e).toNat = N at *
  generalize d * 2 ^ e.toNat = D at *
  have hD' : (0:Rat) < D := by exact_mod_cast hD
  have he : (0:Rat) < 2 ^ e := by positivity
  constructor
  · apply roundHalfEven_le_of_le hD
    rw [← hs, zpow_add₀ (by norm_num), mul_comm ((2:Rat)^e), mul_lt_mul_iff_left₀ he, div_lt_iff₀ hD'] at h2
    exact_mod_cast h2.le
  · intro h
    apply le_roundHalfEven_of_le hD
    have h3 := h3 h
    rw [← hs, zpow_add₀ (by norm_num), mul_comm ((2:Rat)^e), mul_le_mul_iff_left₀ he, le_div_iff₀ hD'] at h3
    exact_mod_cast h3

theorem b64UlpExp_congr {n d n' d' : Nat} (hn : 0 < n) (hd : 0 < d) (hn' : 0 < n') (hd' : 0 < d')
    (h : (n : Rat) / d = n' / d') : b64UlpExp n d = b64UlpExp n' d' := by
  obtain ⟨g1, g2⟩ := floorLog2_spec hn' hd'
  unfold b64UlpExp
  rw [floorLog2_unique hn hd (h ▸ g1) (h ▸ g2)]

theorem b64UlpExp_mono {n d n' d' : Nat} (hn : 0 < n) (hd : 0 < d) (hn' : 0 < n') (hd' : 0 < d')
    (h : (n : Rat) / d ≤ n' / d') : b64UlpExp n d ≤ b64UlpExp n' d' := by
  have g1 := (floorLog2_spec hn hd).1
  have g2 := (floorLog2_spec hn' hd').2
  have := (zpow_lt_zpow_iff_right₀ (by norm_num : (1:Rat) < 2)).1 (g1.trans_lt (h.trans_lt g2))
  unfold b64UlpExp; omega

theorem rndMag_mono {n d n' d' : Nat} (hn : 0 < n) (hd : 0 < d) (hn' : 0 < n') (hd' : 0 < d')
    (h : (n : Rat) / d ≤ n' / d') : rndMag n d ≤ rndMag n' d' := by
  have he := b64UlpExp_mono hn hd hn' hd' h
  unfold rndMag
  rcases he.eq_or_lt with heq | hlt
  · rw [← heq]
    gcongr
    unfold b64Sig
    rw [← heq]
    apply roundHalfEven_mono_ratio (by positivity) (by positivity)
    have hd0 : (0:Rat) < d := by exact_mod_cast hd
    have hd0' : (0:Rat) < d' := by exact_mod_cast hd'
    rw [div_le_div_iff₀ hd0 hd0'] at h
    have h : n * d' ≤ n' * d := by exact_mod_cast h
    calc _ = n * d' * (2 ^ (-(b64UlpExp n d)).toNat * 2 ^ (b64UlpExp n d).toNat) := by ring
      _ ≤ n' * d * (2 ^ (-(b64UlpExp n d)).toNat * 2 ^ (b64UlpExp n d).toNat) := Nat.mul_le_mul_right _ h
      _ = _ := by ring
  · have h1 := (b64Sig_bounds hn hd).1
    have h2 := (b64Sig_bounds hn' hd').2 (by have := (b64UlpExp_spec hn hd).1; omega)
    have h1' : (b64Sig n d : Rat) ≤ 2 ^ 53 := by exact_mod_cast h1
    have h2' : (2 : Rat) ^ 52 ≤ b64Sig n' d' := by exact_mod_cast h2
    calc (b64Sig n d : Rat) * 2 ^ b64UlpExp n d ≤ 2 ^ 53 * 2 ^ b64UlpExp n d := by gcongr
      _ = 2 ^ 52 * 2 ^ (b64UlpExp n d + 1) := by rw [zpow_add_one₀ (by norm_num)]; ring
      _ ≤ 2 ^ 52 * 2 ^ b64UlpExp n' d' := by
        gcongr
        · norm_num
        · omega
      _ ≤ _ := by gcongr

theorem b64Sig_congr {n d n' d' : Nat} (hn : 0 < n) (hd : 0 < d) (hn' : 0 < n') (hd' : 0 < d')
    (h : (n : Rat) / d = n' / d') : b64Sig n d = b64Sig n' d' := by
  have he := b64UlpExp_congr hn hd hn' hd' h
  have h1 := rndMag_mono hn hd hn' hd' h.le
  have h2 := rndMag_mono hn' hd' hn hd h.ge
  have h3 := le_antisymm h1 h2
  unfold rndMag at h3
  rw [he] at h3
  have := mul_right_cancel₀ (by positivity) h3
  exact_mod_cast this

theorem b64RoundMag_eq {n d : Nat} (hn : 0 < n) :
    b64RoundMag n d = min ((b64UlpExp n d + 1074).toNat * 2 ^ 52 + b64Sig n d) (2047 * 2 ^ 52) := by
  simp [b64RoundMag, hn.ne', b64Sig]

theorem b64Round_congr {n d n' d' : Nat} (neg : Bool) (hd : 0 < d) (hd' : 0 < d')
    (h : (n : Rat) / d = n' / d') : b64Round neg n d = b64Round neg n' d' := by
  have hd0 : (d:Rat) ≠ 0 := by exact_mod_cast hd.ne'
  have hd0' : (d':Rat) ≠ 0 := by exact_mod_cast hd'.ne'
  rcases Nat.eq_zero_or_pos n with rfl | hn
  · have : n' = 0 := by
      have : (n' : Rat) = 0 := by simpa [hd0'] using h.symm
      exact_mod_cast this
    subst this; simp [b64Round, b64RoundMag]
  · have hn' : 0 < n' := by
      rcases Nat.eq_zero_or_pos n' with rfl | h'
      · have : (n : Rat) = 0 := by simpa [hd0] using h
        exact absurd (by exact_mod_cast this) hn.ne'
      · exact h'
    simp [b64Round, b64RoundMag_eq hn, b64RoundMag_eq hn', b64UlpExp_congr hn hd hn' hd' h, b64Sig_congr hn hd hn' hd' h]

/-- exactness -/
theorem rndMag_exact {n d : Nat} (hn : 0 < n) (hd : 0 < d) {k : Nat} {j : Int} (hk : k ≤ 2 ^ 53) (hj : -1074 ≤ j)
    (h : (n : Rat) / d = k * (2 : Rat) ^ j) : rndMag n d = (n : Rat) / d := by
  obtain ⟨h1, h2, h3⟩ := b64UlpExp_spec hn hd
  have hd0 : (0:Rat) < d := by exact_mod_cast hd
  have hn0 : (0:Rat) < n := by exact_mod_cast hn
  have hkpos : 0 < k := by
    rcases Nat.eq_zero_or_pos k with rfl | h'
    · simp at h; rcases h with h | h <;> linarith
    · exact h'
  -- the ulp exponent is at most j, unless k = 2^53
  by_cases hej : b64UlpExp n d ≤ j
  · obtain ⟨i, hi⟩ := Int.eq_ofNat_of_zero_le (by omega : 0 ≤ j - b64UlpExp n d)
    have hD := scaled_den_pos d (b64UlpExp n d) hd
    have hs := scaled_ratio n d (b64UlpExp n d) hd
    have hN : n * 2 ^ (-(b64UlpExp n d)).toNat = (k * 2 ^ i) * (d * 2 ^ (b64UlpExp n d).toNat) := by
      have hD' : (0:Rat) < ((d * 2 ^ (b64UlpExp n d).toNat : Nat) : Rat) := by exact_mod_cast hD
      have hj' : j = b64UlpExp n d + i := by omega
      rw [h, hj', zpow_add₀ (by norm_num), zpow_natCast] at hs
      have he : ((2:Rat) ^ b64UlpExp n d) ≠ 0 := by positivity
      have : ((n * 2 ^ (-(b64UlpExp n d)).toNat : Nat) : Rat) / ((d * 2 ^ (b64UlpExp n d).toNat : Nat) : Rat) = k * 2 ^ i := by
        apply mul_right_cancel₀ he; rw [hs]; ring
      rw [div_eq_iff hD'.ne'] at this
      exact_mod_cast this
    unfold rndMag b64Sig
    rw [hN, roundHalfEven_mul _ hD, h]
    have hj' : j = b64UlpExp n d + i := by omega
    rw [hj', zpow_add₀ (by norm_num), zpow_natCast]; push_cast; ring
  · have hlt : j < b64UlpExp n d := by omega
    have h4 := h3 (by omega)
    have hk' : (k : Rat) ≤ 2 ^ 53 := by exact_mod_cast hk
    -- then x ≥ 2^(e+52) ≥ 2^(j+53) ≥ k*2^j = x, so x = 2^(e+52)
    have hx : (n : Rat) / d ≤ (2 : Rat) ^ (j + 53) := by
      rw [h, zpow_add₀ (by norm_num), mul_comm ((2:Rat)^j)]; gcongr; exact_mod_cast hk'
    have he : b64UlpExp n d + 52 ≤ j + 53 := by
      have := h4.trans hx
      exact (zpow_le_zpow_iff_right₀ (by norm_num : (1:Rat) < 2)).1 this
    have he' : b64UlpExp n d = j + 1 := by omega
    have hx' : (n : Rat) / d = ((2 ^ 52 : Nat) : Rat) * 2 ^ (b64UlpExp n d) := by
      apply le_antisymm
      · refine hx.trans (le_of_eq ?_)
        rw [he', show j + 53 = (52 : Int) + (j + 1) by ring, zpow_add₀ (by norm_num)]; norm_num
      · refine le_trans (le_of_eq ?_) h4
        rw [zpow_add₀ (by norm_num)]; norm_num; ring
    have hD := scaled_den_pos d (b64UlpExp n d) hd
    have hs := scaled_ratio n d (b64UlpExp n d) hd
    have hN : n * 2 ^ (-(b64UlpExp n d)).toNat = (2 ^ 52) * (d * 2 ^ (b64UlpExp n d).toNat) := by
      have hD' : (0:Rat) < ((d * 2 ^ (b64UlpExp n d).toNat : Nat) : Rat) := by exact_mod_cast hD
      rw [hx'] at hs
      have he : ((2:Rat) ^ b64UlpExp n d) ≠ 0 := by positivity
      have := mul_right_cancel₀ he hs
      rw [div_eq_iff hD'.ne'] at this
      exact_mod_cast this
    unfold rndMag b64Sig
    rw [hN, roundHalfEven_mul _ hD, hx']


/-! ## Patterns and rounding -/

theorem b64Pack_toNat (neg : Bool) {M : Nat} (hM : M < 2 ^ 63) :
    (b64Pack neg M).toNat = b64SignBit neg + M := by
  unfold b64Pack b64SignBit
  rw [BitVec.toNat_ofNat]
  apply Nat.mod_eq_of_lt
  split <;> omega

theorem b64Pack_fields (neg : Bool) {M : Nat} (hM : M < 2 ^ 63) :
    b64ExpField (b64Pack neg M) = M / 2 ^ 52 ∧ b64FracField (b64Pack neg M) = M % 2 ^ 52 ∧
      b64Sign (b64Pack neg M) = neg := by
  have h := b64Pack_toNat neg hM
  refine ⟨?_, ?_, ?_⟩
  · unfold b64ExpField; rw [h]; unfold b64SignBit; split <;> omega
  · unfold b64FracField; rw [h]; unfold b64SignBit; split <;> omega
  · unfold b64Sign
    rw [← BitVec.testBit_toNat, h, Nat.testBit_eq_decide_div_mod_eq]
    unfold b64SignBit
    cases neg <;> simp <;> omega

/-- The magnitude of 63 bits of a finite pattern. -/
def magValue (M : Nat) : Rat :=
  if M / 2 ^ 52 = 0 then ((M % 2 ^ 52 : Nat) : Rat) * (2 : Rat) ^ (-1074 : Int)
  else ((2 ^ 52 + M % 2 ^ 52 : Nat) : Rat) * (2 : Rat) ^ (((M / 2 ^ 52 : Nat) : Int) - 1075)

/-- A number with a sign. -/
def signRat (neg : Bool) (x : Rat) : Rat := if neg then -x else x

theorem signedInt_cast (neg : Bool) (n : Nat) : ((signedInt neg n : Int) : Rat) = signRat neg n := by
  cases neg <;> simp [signedInt, signRat]

theorem signRat_div (neg : Bool) (a b : Rat) : signRat neg a / b = signRat neg (a / b) := by
  cases neg <;> simp [signRat, neg_div]

theorem b64View_pack (neg : Bool) {M : Nat} (hM : M < 2047 * 2 ^ 52) :
    ∃ n d, b64View (b64Pack neg M) = .finite neg n d ∧ 0 < d ∧ (n : Rat) / d = magValue M := by
  obtain ⟨h1, h2, h3⟩ := b64Pack_fields neg (show M < 2 ^ 63 by omega)
  unfold b64View magValue
  rw [h1, h2, h3]
  have hE : M / 2 ^ 52 < 2047 := by omega
  simp only [show ¬ (M / 2 ^ 52 = 2047) by omega, if_false]
  generalize M / 2 ^ 52 = E at *
  generalize M % 2 ^ 52 = f at *
  by_cases hE0 : E = 0
  · simp only [hE0, if_true]
    refine ⟨_, _, rfl, by split <;> positivity, ?_⟩
    by_cases hf : f = 0
    · simp [hf]
    · simp only [hf, if_false]
      rw [zpow_neg, div_eq_mul_inv]; norm_cast
  · simp only [hE0, if_false]
    refine ⟨_, _, rfl, by positivity, ?_⟩
    have := zpow_split ((E : Int) - 1075)
    rw [this, show ((E : Int) - 1075).toNat = E - 1075 by omega, show (-((E : Int) - 1075)).toNat = 1075 - E by omega]
    push_cast; ring

theorem b64Finite_pack (neg : Bool) {M : Nat} (hM : M < 2047 * 2 ^ 52) : b64Finite (b64Pack neg M) = true := by
  obtain ⟨h1, -, -⟩ := b64Pack_fields neg (show M < 2 ^ 63 by omega)
  unfold b64Finite; rw [h1]; simp; omega

theorem b64Value_pack (neg : Bool) {M : Nat} (hM : M < 2047 * 2 ^ 52) :
    b64Value (b64Pack neg M) = signRat neg (magValue M) := by
  obtain ⟨n, d, h, hd, hv⟩ := b64View_pack neg hM
  unfold b64Value
  rw [h]
  simp only [signedInt_cast, signRat_div, hv]

theorem magValue_zero : magValue 0 = 0 := by simp [magValue]

theorem magValue_sum {E m : Nat} (h1 : m ≤ 2 ^ 53) (h2 : 0 < E → 2 ^ 52 ≤ m) :
    magValue (E * 2 ^ 52 + m) = m * (2 : Rat) ^ ((E : Int) - 1074) := by
  unfold magValue
  rcases Nat.lt_or_ge m (2 ^ 52) with hlt | hge
  · have : E = 0 := by by_contra h; have := h2 (by omega); omega
    subst this
    have a1 : m / 2 ^ 52 = 0 := by omega
    have a2 : m % 2 ^ 52 = m := by omega
    rw [Nat.zero_mul, Nat.zero_add, if_pos a1, a2]
    simp
  rcases Nat.lt_or_ge m (2 ^ 53) with hlt | hge'
  · have a1 : (E * 2 ^ 52 + m) / 2 ^ 52 = E + 1 := by omega
    have a2 : (E * 2 ^ 52 + m) % 2 ^ 52 = m - 2 ^ 52 := by omega
    rw [a1, a2, if_neg (by omega), show 2 ^ 52 + (m - 2 ^ 52) = m by omega]
    congr 2; push_cast; ring
  · have a1 : (E * 2 ^ 52 + m) / 2 ^ 52 = E + 2 := by omega
    have a2 : (E * 2 ^ 52 + m) % 2 ^ 52 = 0 := by omega
    have a3 : m = 2 ^ 53 := by omega
    rw [a1, a2, if_neg (by omega), a3]
    have : ((E + 2 : Nat) : Int) - 1075 = ((E : Int) - 1074) + 1 := by push_cast; ring
    rw [this, zpow_add_one₀ (by norm_num)]
    push_cast; ring

/-- Within 2^200 nothing overflows: the pattern is finite and stands for the rounded magnitude. -/
theorem b64RoundMag_value {n d : Nat} (hd : 0 < d) (hx : (n : Rat) / d ≤ 2 ^ 200) :
    b64RoundMag n d < 2047 * 2 ^ 52 ∧ magValue (b64RoundMag n d) = if n = 0 then 0 else rndMag n d := by
  rcases Nat.eq_zero_or_pos n with rfl | hn
  · simp [b64RoundMag, magValue_zero]
  obtain ⟨h1, h2, h3⟩ := b64UlpExp_spec hn hd
  obtain ⟨s1, s2⟩ := b64Sig_bounds hn hd
  have he : b64UlpExp n d ≤ 148 := by
    by_contra hcon
    have h4 := (h3 (by omega)).trans hx
    have := (zpow_le_zpow_iff_right₀ (by norm_num : (1:Rat) < 2)).1 (by simpa using h4 : (2:Rat) ^ (b64UlpExp n d + 52) ≤ 2 ^ (200 : Int))
    omega
  have hlt : (b64UlpExp n d + 1074).toNat * 2 ^ 52 + b64Sig n d < 2047 * 2 ^ 52 := by omega
  rw [b64RoundMag_eq hn, min_eq_left hlt.le]
  refine ⟨hlt, ?_⟩
  rw [magValue_sum s1 (fun h => s2 (by omega)), if_neg hn.ne']
  unfold rndMag
  congr 2; omega

/-- Rounding of a rational to binary64: its value. -/
def rnd (q : Rat) : Rat := signRat (decide (q < 0)) (if q = 0 then 0 else rndMag q.num.natAbs q.den)

/-- The pattern nearest to a rational. -/
def b64OfRat (q : Rat) : B64 := b64Round (decide (q < 0)) q.num.natAbs q.den

theorem abs_num_div_den (q : Rat) : ((q.num.natAbs : Nat) : Rat) / q.den = |q| := by
  conv_rhs => rw [← Rat.num_div_den q, abs_div]
  congr 1
  · rw [Nat.cast_natAbs, Int.cast_abs]
  · simp

theorem b64OfRat_value {q : Rat} (h : |q| ≤ 2 ^ 200) :
    b64Finite (b64OfRat q) = true ∧ b64Value (b64OfRat q) = rnd q := by
  have := b64RoundMag_value (n := q.num.natAbs) (d := q.den) q.den_pos (by rw [abs_num_div_den]; exact h)
  refine ⟨b64Finite_pack _ this.1, ?_⟩
  unfold b64OfRat b64Round rnd
  rw [b64Value_pack _ this.1, this.2]
  congr 1
  simp

theorem num_natAbs_pos {q : Rat} (h : q ≠ 0) : 0 < q.num.natAbs := by
  simpa [Nat.pos_iff_ne_zero] using h

theorem signRat_abs (q : Rat) : signRat (decide (q < 0)) |q| = q := by
  unfold signRat
  by_cases h : q < 0
  · simp [h, abs_of_neg h]
  · simp [h, abs_of_nonneg (not_lt.1 h)]

theorem rnd_zero : rnd 0 = 0 := by simp [rnd, signRat]

theorem rndMag_nonneg (n d : Nat) : 0 ≤ rndMag n d := by unfold rndMag; positivity

theorem rnd_neg (q : Rat) : rnd (-q) = -rnd q := by
  rcases lt_trichotomy q 0 with h | rfl | h
  · simp [rnd, signRat, h, h.ne, not_lt.2 h.le]
  · simp [rnd_zero]
  · simp [rnd, signRat, h, h.ne', not_lt.2 h.le]

theorem rnd_nonneg {q : Rat} (h : 0 ≤ q) : 0 ≤ rnd q := by
  unfold rnd signRat
  simp only [not_lt.2 h, decide_false, Bool.false_eq_true, if_false]
  split
  · rfl
  · exact rndMag_nonneg _ _

theorem rnd_mono_pos {p q : Rat} (hp : 0 ≤ p) (h : p ≤ q) : rnd p ≤ rnd q := by
  rcases hp.eq_or_lt with rfl | hp'
  · rw [rnd_zero]; exact rnd_nonneg h
  have hq := hp'.trans_le h
  simp only [rnd, signRat, not_lt.2 hp, not_lt.2 hq.le, decide_false, Bool.false_eq_true, if_false, hp'.ne', hq.ne']
  apply rndMag_mono (num_natAbs_pos hp'.ne') p.den_pos (num_natAbs_pos hq.ne') q.den_pos
  rw [abs_num_div_den, abs_num_div_den, abs_of_nonneg hp, abs_of_nonneg hq.le]; exact h

theorem rnd_mono {p q : Rat} (h : p ≤ q) : rnd p ≤ rnd q := by
  rcases le_total 0 p with hp | hp
  · exact rnd_mono_pos hp h
  rcases le_total 0 q with hq | hq
  · have a := rnd_nonneg (q := -p) (by linarith)
    rw [rnd_neg] at a
    exact le_trans (by linarith) (rnd_nonneg hq)
  · have := rnd_mono_pos (p := -q) (q := -p) (by linarith) (by linarith)
    rw [rnd_neg, rnd_neg] at this
    linarith

theorem rnd_exact {q : Rat} (z j : Int) (hz : z.natAbs ≤ 2 ^ 53) (hj : -1074 ≤ j) (h : q = z * (2 : Rat) ^ j) :
    rnd q = q := by
  rcases eq_or_ne q 0 with rfl | hq
  · exact rnd_zero
  have : rndMag q.num.natAbs q.den = |q| := by
    rw [← abs_num_div_den]
    apply rndMag_exact (num_natAbs_pos hq) q.den_pos hz hj
    rw [abs_num_div_den, h, abs_mul, abs_of_pos (by positivity : (0:Rat) < 2 ^ j), Nat.cast_natAbs, Int.cast_abs]
  unfold rnd
  rw [if_neg hq, this, signRat_abs]

theorem rnd_error {q : Rat} {t : Int} (ht : -1021 ≤ t) (h : |q| < 2 ^ t) : |rnd q - q| ≤ 2 ^ (t - 54) := by
  rcases eq_or_ne q 0 with rfl | hq
  · simp [rnd_zero]; positivity
  have hn := num_natAbs_pos hq
  have he := sig_error q.num.natAbs q.den q.den_pos
  obtain ⟨u1, u2, u3⟩ := b64UlpExp_spec hn q.den_pos
  rw [abs_num_div_den] at he u2 u3
  have hb : b64UlpExp q.num.natAbs q.den ≤ t - 53 := by
    by_contra hcon
    have := (zpow_lt_zpow_iff_right₀ (by norm_num : (1:Rat) < 2)).1 ((u3 (by omega)).trans_lt h)
    omega
  have hr : |rnd q - q| = |rndMag q.num.natAbs q.den - abs q| := by
    unfold rnd
    rw [if_neg hq]
    conv_lhs => rw [← signRat_abs q]
    have : decide (signRat (decide (q < 0)) |q| < 0) = decide (q < 0) := by rw [signRat_abs]
    unfold signRat
    by_cases h0 : q < 0
    · simp only [h0, decide_true, if_true, abs_of_neg h0, neg_neg, sub_neg_eq_add]
      rw [← abs_neg]; ring_nf
    · simp [h0, abs_of_nonneg (not_lt.1 h0)]
  rw [hr]
  refine he.trans ?_
  apply zpow_le_zpow_right₀ (by norm_num); omega

/-! ## Operations -/

/-- A rounding is the pattern nearest to its rational, but for the sign of zero. -/
theorem b64Round_eq_ofRat {neg : Bool} {n d : Nat} (hd : 0 < d) (h : n ≠ 0) :
    b64Round neg n d = b64OfRat (signRat neg ((n : Rat) / d)) := by
  have hd0 : (0:Rat) < d := by exact_mod_cast hd
  have hn0 : (0:Rat) < n := by exact_mod_cast Nat.pos_of_ne_zero h
  have hx : (0:Rat) < n / d := by positivity
  unfold b64OfRat
  have hs : decide (signRat neg ((n : Rat) / d) < 0) = neg := by
    cases neg <;> simp [signRat, hx, hx.le]
  rw [hs]
  apply b64Round_congr neg hd (Rat.den_pos _)
  rw [abs_num_div_den]
  cases neg <;> simp [signRat, abs_of_pos hx]

theorem b64View_finite {x : B64} (h : b64Finite x = true) :
    ∃ n d, b64View x = .finite (b64Sign x) n d ∧ 0 < d ∧ b64Value x = signRat (b64Sign x) ((n : Rat) / d) := by
  have h' : b64ExpField x ≠ 2047 := by simpa [b64Finite] using h
  have key : ∃ n d, b64View x = .finite (b64Sign x) n d ∧ 0 < d := by
    unfold b64View
    simp only [h', if_false]
    split
    · exact ⟨_, _, rfl, by split <;> positivity⟩
    · exact ⟨_, _, rfl, by positivity⟩
  obtain ⟨n, d, hv, hd⟩ := key
  refine ⟨n, d, hv, hd, ?_⟩
  unfold b64Value
  rw [hv]; simp only [signedInt_cast, signRat_div]

theorem b64Zero_facts (neg : Bool) : b64Finite (b64Zero neg) = true ∧ b64Value (b64Zero neg) = 0 := by
  refine ⟨b64Finite_pack neg (by norm_num), ?_⟩
  unfold b64Zero; rw [b64Value_pack neg (by norm_num), magValue_zero]; cases neg <;> simp [signRat]

theorem b64Round_zero (neg : Bool) (d : Nat) : b64Round neg 0 d = b64Zero neg := by
  simp [b64Round, b64RoundMag, b64Zero]

theorem signRat_signRat (a b : Bool) (x : Rat) : signRat a (signRat b x) = signRat (a ^^ b) x := by
  cases a <;> cases b <;> simp [signRat]

theorem signRat_mul (a b : Bool) (x y : Rat) : signRat a x * signRat b y = signRat (a ^^ b) (x * y) := by
  cases a <;> cases b <;> simp [signRat]

theorem signRat_div_signRat (a b : Bool) (x y : Rat) : signRat a x / signRat b y = signRat (a ^^ b) (x / y) := by
  cases a <;> cases b <;> simp [signRat, neg_div, div_neg]

theorem signRat_zero (a : Bool) : signRat a 0 = 0 := by cases a <;> simp [signRat]

theorem signRat_eq_zero {a : Bool} {x : Rat} : signRat a x = 0 ↔ x = 0 := by cases a <;> simp [signRat]

theorem signedInt_eq_zero {a : Bool} {n : Nat} : signedInt a n = 0 ↔ n = 0 := by cases a <;> simp [signedInt]

theorem b64Round_eq_ite (neg : Bool) (n : Nat) {d : Nat} (hd : 0 < d) :
    b64Round neg n d = if signRat neg ((n : Rat) / d) = 0 then b64Zero neg
      else b64OfRat (signRat neg ((n : Rat) / d)) := by
  by_cases h0 : n = 0
  · subst h0; rw [b64Round_zero]; simp [signRat_zero]
  · have hd0 : (d:Rat) ≠ 0 := by exact_mod_cast hd.ne'
    have hn0 : (n:Rat) ≠ 0 := by exact_mod_cast h0
    rw [if_neg (fun h => div_ne_zero hn0 hd0 (signRat_eq_zero.1 h)), b64Round_eq_ofRat hd h0]

/-- The sum of finite numbers: rounded once; an exact zero is `-0` only if both signs are. -/
theorem b64Add_eq {x y : B64} (hx : b64Finite x = true) (hy : b64Finite y = true) :
    b64Add x y = if b64Value x + b64Value y = 0 then b64Zero (b64Sign x && b64Sign y)
      else b64OfRat (b64Value x + b64Value y) := by
  obtain ⟨n, d, vx, hd, ex⟩ := b64View_finite hx
  obtain ⟨m, k, vy, hk, ey⟩ := b64View_finite hy
  unfold b64Add
  rw [vx, vy]
  simp only
  have hd0 : (0:Rat) < d := by exact_mod_cast hd
  have hk0 : (0:Rat) < k := by exact_mod_cast hk
  have hz : b64Value x + b64Value y =
      ((signedInt (b64Sign x) n * k + signedInt (b64Sign y) m * d : Int) : Rat) / ((d * k : Nat) : Rat) := by
    rw [ex, ey]; push_cast [signedInt_cast]
    rw [← signRat_div, ← signRat_div]; field_simp
  rw [hz]
  generalize signedInt (b64Sign x) n * (k : Int) + signedInt (b64Sign y) m * (d : Int) = z at *
  have hdk : (0:Rat) < ((d * k : Nat) : Rat) := by exact_mod_cast Nat.mul_pos hd hk
  have hiff : ((z : Rat) / ((d * k : Nat) : Rat) = 0) ↔ z = 0 := by
    rw [div_eq_zero_iff, or_iff_left hdk.ne', Int.cast_eq_zero]
  by_cases h0 : z = 0
  · rw [if_pos h0, if_pos (hiff.2 h0)]
  · rw [if_neg h0, if_neg (fun h => h0 (hiff.1 h)), b64Round_eq_ofRat (Nat.mul_pos hd hk) (by simpa using h0)]
    congr 1
    rw [← signRat_div]
    congr 1
    rw [Nat.cast_natAbs, Int.cast_abs]
    unfold signRat
    by_cases hneg : z < 0
    · have : (z:Rat) < 0 := by exact_mod_cast hneg
      simp [hneg, abs_of_neg this]
    · have : (0:Rat) ≤ z := by exact_mod_cast (not_lt.1 hneg)
      simp [hneg, abs_of_nonneg this]

/-- The product of finite numbers: rounded once; the sign of a zero is that of the signs' product. -/
theorem b64Mul_eq {x y : B64} (hx : b64Finite x = true) (hy : b64Finite y = true) :
    b64Mul x y = if b64Value x * b64Value y = 0 then b64Zero (b64Sign x ^^ b64Sign y)
      else b64OfRat (b64Value x * b64Value y) := by
  obtain ⟨n, d, vx, hd, ex⟩ := b64View_finite hx
  obtain ⟨m, k, vy, hk, ey⟩ := b64View_finite hy
  unfold b64Mul
  rw [vx, vy]
  simp only
  have hd0 : (0:Rat) < d := by exact_mod_cast hd
  have hk0 : (0:Rat) < k := by exact_mod_cast hk
  have hz : b64Value x * b64Value y = signRat (b64Sign x ^^ b64Sign y) (((n * m : Nat) : Rat) / ((d * k : Nat) : Rat)) := by
    rw [ex, ey, signRat_mul]; congr 1; push_cast; field_simp
  rw [hz, ← b64Round_eq_ite _ _ (Nat.mul_pos hd hk)]

/-- The quotient of finite numbers, the divisor not zero. -/
theorem b64Div_eq {x y : B64} (hx : b64Finite x = true) (hy : b64Finite y = true) (h : b64Value y ≠ 0) :
    b64Div x y = if b64Value x / b64Value y = 0 then b64Zero (b64Sign x ^^ b64Sign y)
      else b64OfRat (b64Value x / b64Value y) := by
  obtain ⟨n, d, vx, hd, ex⟩ := b64View_finite hx
  obtain ⟨m, k, vy, hk, ey⟩ := b64View_finite hy
  unfold b64Div
  rw [vx, vy]
  simp only
  have hd0 : (0:Rat) < d := by exact_mod_cast hd
  have hk0 : (0:Rat) < k := by exact_mod_cast hk
  have hm : m ≠ 0 := by
    rintro rfl
    apply h; rw [ey]; simp [signRat_zero]
  have hm0 : (0:Rat) < m := by exact_mod_cast Nat.pos_of_ne_zero hm
  rw [if_neg hm]
  have hz : b64Value x / b64Value y = signRat (b64Sign x ^^ b64Sign y) (((n * k : Nat) : Rat) / ((d * m : Nat) : Rat)) := by
    rw [ex, ey, signRat_div_signRat]; congr 1; push_cast; field_simp
  rw [hz, ← b64Round_eq_ite _ _ (Nat.mul_pos hd (Nat.pos_of_ne_zero hm))]

theorem b64Zero_or_round_value {q : Rat} (h : |q| ≤ 2 ^ 200) (s : Bool) :
    b64Finite (if q = 0 then b64Zero s else b64OfRat q) = true ∧
      b64Value (if q = 0 then b64Zero s else b64OfRat q) = rnd q := by
  by_cases h0 : q = 0
  · simp only [h0, if_true, rnd_zero]; exact b64Zero_facts s
  · simp only [h0, if_false]; exact b64OfRat_value h

theorem b64Add_value {x y : B64} (hx : b64Finite x = true) (hy : b64Finite y = true)
    (h : |b64Value x + b64Value y| ≤ 2 ^ 200) :
    b64Finite (b64Add x y) = true ∧ b64Value (b64Add x y) = rnd (b64Value x + b64Value y) := by
  rw [b64Add_eq hx hy]; exact b64Zero_or_round_value h _

theorem b64Mul_value {x y : B64} (hx : b64Finite x = true) (hy : b64Finite y = true)
    (h : |b64Value x * b64Value y| ≤ 2 ^ 200) :
    b64Finite (b64Mul x y) = true ∧ b64Value (b64Mul x y) = rnd (b64Value x * b64Value y) := by
  rw [b64Mul_eq hx hy]; exact b64Zero_or_round_value h _

theorem b64Div_value {x y : B64} (hx : b64Finite x = true) (hy : b64Finite y = true) (hy0 : b64Value y ≠ 0)
    (h : |b64Value x / b64Value y| ≤ 2 ^ 200) :
    b64Finite (b64Div x y) = true ∧ b64Value (b64Div x y) = rnd (b64Value x / b64Value y) := by
  rw [b64Div_eq hx hy hy0]; exact b64Zero_or_round_value h _

theorem b64OfDecimal_eq (m : Int) (s : Nat) : b64OfDecimal m s = b64OfRat ((m : Rat) / ((10 ^ s : Nat) : Rat)) := by
  have hd : 0 < 10 ^ s := by positivity
  have hd0 : (0:Rat) < ((10 ^ s : Nat) : Rat) := by exact_mod_cast hd
  unfold b64OfDecimal b64OfRat
  have hs : decide ((m : Rat) / ((10 ^ s : Nat) : Rat) < 0) = decide (m < 0) := by
    simp only [div_lt_iff₀ hd0, zero_mul, Int.cast_lt_zero]
  rw [hs]
  apply b64Round_congr _ hd (Rat.den_pos _)
  rw [abs_num_div_den, abs_div, abs_of_pos hd0, Nat.cast_natAbs, Int.cast_abs]

theorem b64OfInt_eq (z : Int) : b64OfInt z = b64OfRat z := by
  have := b64OfDecimal_eq z 0
  simpa [b64OfDecimal, b64OfInt] using this

/-- Integers up to 2^53 are exact. -/
theorem b64OfInt_value {z : Int} (h : z.natAbs ≤ 2 ^ 53) : b64Finite (b64OfInt z) = true ∧ b64Value (b64OfInt z) = z := by
  rw [b64OfInt_eq]
  have hb : |(z : Rat)| ≤ 2 ^ 200 := by
    have : (z.natAbs : Rat) ≤ 2 ^ 53 := by exact_mod_cast h
    rw [Nat.cast_natAbs, Int.cast_abs] at this
    exact this.trans (by norm_num)
  obtain ⟨a, b⟩ := b64OfRat_value hb
  exact ⟨a, by rw [b, rnd_exact z 0 h (by norm_num) (by simp)]⟩

end Sys2Proof.Machine
end

