-- ==== Sys2Proof/Laws/State.lean ====
section
/-! SUPPORT. One lemma per field per update of the state. -/

namespace Sys2Proof.Machine

@[simp] theorem State.setCal_cal (c : Cal) (s : State) : (s.setCal c).cal = c := rfl
@[simp] theorem State.setCal_htState (c : Cal) (s : State) : (s.setCal c).htState = s.htState := rfl
@[simp] theorem State.setCal_res (c : Cal) (s : State) : (s.setCal c).res = s.res := rfl
@[simp] theorem State.setCal_busy (c : Cal) (s : State) : (s.setCal c).busy = s.busy := rfl
@[simp] theorem State.setCal_lock (c : Cal) (s : State) : (s.setCal c).lock = s.lock := rfl
@[simp] theorem State.setCal_pollCnt (c : Cal) (s : State) : (s.setCal c).pollCnt = s.pollCnt := rfl
@[simp] theorem State.setCal_running (c : Cal) (s : State) : (s.setCal c).running = s.running := rfl
@[simp] theorem State.setCal_cmd (c : Cal) (s : State) : (s.setCal c).cmd = s.cmd := rfl
@[simp] theorem State.setCal_answers (c : Cal) (s : State) : (s.setCal c).answers = s.answers := rfl
@[simp] theorem State.setCal_events (c : Cal) (s : State) : (s.setCal c).events = s.events := rfl
@[simp] theorem State.setCal_params (c : Cal) (s : State) : (s.setCal c).params = s.params := rfl

@[simp] theorem State.setHtState_cal (h : HtState) (s : State) : (s.setHtState h).cal = s.cal := rfl
@[simp] theorem State.setHtState_htState (h : HtState) (s : State) : (s.setHtState h).htState = h := rfl
@[simp] theorem State.setHtState_res (h : HtState) (s : State) : (s.setHtState h).res = s.res := rfl
@[simp] theorem State.setHtState_busy (h : HtState) (s : State) : (s.setHtState h).busy = s.busy := rfl
@[simp] theorem State.setHtState_lock (h : HtState) (s : State) : (s.setHtState h).lock = s.lock := rfl
@[simp] theorem State.setHtState_pollCnt (h : HtState) (s : State) : (s.setHtState h).pollCnt = s.pollCnt := rfl
@[simp] theorem State.setHtState_running (h : HtState) (s : State) : (s.setHtState h).running = s.running := rfl
@[simp] theorem State.setHtState_cmd (h : HtState) (s : State) : (s.setHtState h).cmd = s.cmd := rfl
@[simp] theorem State.setHtState_answers (h : HtState) (s : State) : (s.setHtState h).answers = s.answers := rfl
@[simp] theorem State.setHtState_events (h : HtState) (s : State) : (s.setHtState h).events = s.events := rfl
@[simp] theorem State.setHtState_params (h : HtState) (s : State) : (s.setHtState h).params = s.params := rfl

@[simp] theorem State.setLock_cal (b : Bool) (s : State) : (s.setLock b).cal = s.cal := rfl
@[simp] theorem State.setLock_htState (b : Bool) (s : State) : (s.setLock b).htState = s.htState := rfl
@[simp] theorem State.setLock_res (b : Bool) (s : State) : (s.setLock b).res = s.res := rfl
@[simp] theorem State.setLock_busy (b : Bool) (s : State) : (s.setLock b).busy = s.busy := rfl
@[simp] theorem State.setLock_lock (b : Bool) (s : State) : (s.setLock b).lock = b := rfl
@[simp] theorem State.setLock_pollCnt (b : Bool) (s : State) : (s.setLock b).pollCnt = s.pollCnt := rfl
@[simp] theorem State.setLock_running (b : Bool) (s : State) : (s.setLock b).running = s.running := rfl
@[simp] theorem State.setLock_cmd (b : Bool) (s : State) : (s.setLock b).cmd = s.cmd := rfl
@[simp] theorem State.setLock_answers (b : Bool) (s : State) : (s.setLock b).answers = s.answers := rfl
@[simp] theorem State.setLock_events (b : Bool) (s : State) : (s.setLock b).events = s.events := rfl
@[simp] theorem State.setLock_params (b : Bool) (s : State) : (s.setLock b).params = s.params := rfl

@[simp] theorem State.setPollCnt_cal (n : Nat) (s : State) : (s.setPollCnt n).cal = s.cal := rfl
@[simp] theorem State.setPollCnt_htState (n : Nat) (s : State) : (s.setPollCnt n).htState = s.htState := rfl
@[simp] theorem State.setPollCnt_res (n : Nat) (s : State) : (s.setPollCnt n).res = s.res := rfl
@[simp] theorem State.setPollCnt_busy (n : Nat) (s : State) : (s.setPollCnt n).busy = s.busy := rfl
@[simp] theorem State.setPollCnt_lock (n : Nat) (s : State) : (s.setPollCnt n).lock = s.lock := rfl
@[simp] theorem State.setPollCnt_pollCnt (n : Nat) (s : State) : (s.setPollCnt n).pollCnt = n := rfl
@[simp] theorem State.setPollCnt_running (n : Nat) (s : State) : (s.setPollCnt n).running = s.running := rfl
@[simp] theorem State.setPollCnt_cmd (n : Nat) (s : State) : (s.setPollCnt n).cmd = s.cmd := rfl
@[simp] theorem State.setPollCnt_answers (n : Nat) (s : State) : (s.setPollCnt n).answers = s.answers := rfl
@[simp] theorem State.setPollCnt_events (n : Nat) (s : State) : (s.setPollCnt n).events = s.events := rfl
@[simp] theorem State.setPollCnt_params (n : Nat) (s : State) : (s.setPollCnt n).params = s.params := rfl

@[simp] theorem State.setCmd_cal (c : List Byte) (s : State) : (s.setCmd c).cal = s.cal := rfl
@[simp] theorem State.setCmd_htState (c : List Byte) (s : State) : (s.setCmd c).htState = s.htState := rfl
@[simp] theorem State.setCmd_res (c : List Byte) (s : State) : (s.setCmd c).res = s.res := rfl
@[simp] theorem State.setCmd_busy (c : List Byte) (s : State) : (s.setCmd c).busy = s.busy := rfl
@[simp] theorem State.setCmd_lock (c : List Byte) (s : State) : (s.setCmd c).lock = s.lock := rfl
@[simp] theorem State.setCmd_pollCnt (c : List Byte) (s : State) : (s.setCmd c).pollCnt = s.pollCnt := rfl
@[simp] theorem State.setCmd_running (c : List Byte) (s : State) : (s.setCmd c).running = s.running := rfl
@[simp] theorem State.setCmd_cmd (c : List Byte) (s : State) : (s.setCmd c).cmd = c := rfl
@[simp] theorem State.setCmd_answers (c : List Byte) (s : State) : (s.setCmd c).answers = s.answers := rfl
@[simp] theorem State.setCmd_events (c : List Byte) (s : State) : (s.setCmd c).events = s.events := rfl
@[simp] theorem State.setCmd_params (c : List Byte) (s : State) : (s.setCmd c).params = s.params := rfl

@[simp] theorem State.accept_cal (i : Instr) (s : State) : (s.accept i).cal = s.cal := rfl
@[simp] theorem State.accept_htState (i : Instr) (s : State) : (s.accept i).htState = s.htState := rfl
@[simp] theorem State.accept_res (i : Instr) (s : State) : (s.accept i).res = s.res := rfl
@[simp] theorem State.accept_busy (i : Instr) (s : State) : (s.accept i).busy = true := rfl
@[simp] theorem State.accept_lock (i : Instr) (s : State) : (s.accept i).lock = s.lock := rfl
@[simp] theorem State.accept_pollCnt (i : Instr) (s : State) : (s.accept i).pollCnt = s.pollCnt := rfl
@[simp] theorem State.accept_running (i : Instr) (s : State) : (s.accept i).running = some i := rfl
@[simp] theorem State.accept_cmd (i : Instr) (s : State) : (s.accept i).cmd = s.cmd := rfl
@[simp] theorem State.accept_answers (i : Instr) (s : State) : (s.accept i).answers = s.answers := rfl
@[simp] theorem State.accept_events (i : Instr) (s : State) : (s.accept i).events = s.events := rfl
@[simp] theorem State.accept_params (i : Instr) (s : State) : (s.accept i).params = s.params := rfl

@[simp] theorem State.finish_cal (st : Status) (b : Option Byte) (v : Option FNum) (s : State) : (s.finish st b v).cal = s.cal := rfl
@[simp] theorem State.finish_htState (st : Status) (b : Option Byte) (v : Option FNum) (s : State) : (s.finish st b v).htState = s.htState := rfl
@[simp] theorem State.finish_res (st : Status) (b : Option Byte) (v : Option FNum) (s : State) : (s.finish st b v).res = ⟨some st, b, v⟩ := rfl
@[simp] theorem State.finish_busy (st : Status) (b : Option Byte) (v : Option FNum) (s : State) : (s.finish st b v).busy = false := rfl
@[simp] theorem State.finish_lock (st : Status) (b : Option Byte) (v : Option FNum) (s : State) : (s.finish st b v).lock = false := rfl
@[simp] theorem State.finish_pollCnt (st : Status) (b : Option Byte) (v : Option FNum) (s : State) : (s.finish st b v).pollCnt = s.pollCnt := rfl
@[simp] theorem State.finish_running (st : Status) (b : Option Byte) (v : Option FNum) (s : State) : (s.finish st b v).running = none := rfl
@[simp] theorem State.finish_cmd (st : Status) (b : Option Byte) (v : Option FNum) (s : State) : (s.finish st b v).cmd = s.cmd := rfl
@[simp] theorem State.finish_answers (st : Status) (b : Option Byte) (v : Option FNum) (s : State) : (s.finish st b v).answers = s.answers := rfl
@[simp] theorem State.finish_events (st : Status) (b : Option Byte) (v : Option FNum) (s : State) : (s.finish st b v).events = s.events := rfl
@[simp] theorem State.finish_params (st : Status) (b : Option Byte) (v : Option FNum) (s : State) : (s.finish st b v).params = s.params := rfl

@[simp] theorem State.raise_cal (st : Status) (s : State) : (s.raise st).cal = s.cal := rfl
@[simp] theorem State.raise_htState (st : Status) (s : State) : (s.raise st).htState = s.htState := rfl
@[simp] theorem State.raise_res (st : Status) (s : State) : (s.raise st).res = ⟨some st, none, none⟩ := rfl
@[simp] theorem State.raise_busy (st : Status) (s : State) : (s.raise st).busy = false := rfl
@[simp] theorem State.raise_lock (st : Status) (s : State) : (s.raise st).lock = false := rfl
@[simp] theorem State.raise_pollCnt (st : Status) (s : State) : (s.raise st).pollCnt = s.pollCnt := rfl
@[simp] theorem State.raise_running (st : Status) (s : State) : (s.raise st).running = none := rfl
@[simp] theorem State.raise_cmd (st : Status) (s : State) : (s.raise st).cmd = s.cmd := rfl
@[simp] theorem State.raise_answers (st : Status) (s : State) : (s.raise st).answers = s.answers := rfl
@[simp] theorem State.raise_events (st : Status) (s : State) : (s.raise st).events = s.events := rfl
@[simp] theorem State.raise_params (st : Status) (s : State) : (s.raise st).params = s.params := rfl

@[simp] theorem State.deliver_cal (st : Status) (e : FExpr) (s : State) : (s.deliver st e).cal = s.cal := rfl
@[simp] theorem State.deliver_htState (st : Status) (e : FExpr) (s : State) : (s.deliver st e).htState = s.htState := rfl
@[simp] theorem State.deliver_res (st : Status) (e : FExpr) (s : State) : (s.deliver st e).res = ⟨some st, none, some (evalF s.params.numerics e)⟩ := rfl
@[simp] theorem State.deliver_busy (st : Status) (e : FExpr) (s : State) : (s.deliver st e).busy = false := rfl
@[simp] theorem State.deliver_lock (st : Status) (e : FExpr) (s : State) : (s.deliver st e).lock = false := rfl
@[simp] theorem State.deliver_pollCnt (st : Status) (e : FExpr) (s : State) : (s.deliver st e).pollCnt = s.pollCnt := rfl
@[simp] theorem State.deliver_running (st : Status) (e : FExpr) (s : State) : (s.deliver st e).running = none := rfl
@[simp] theorem State.deliver_cmd (st : Status) (e : FExpr) (s : State) : (s.deliver st e).cmd = s.cmd := rfl
@[simp] theorem State.deliver_answers (st : Status) (e : FExpr) (s : State) : (s.deliver st e).answers = s.answers := rfl
@[simp] theorem State.deliver_events (st : Status) (e : FExpr) (s : State) : (s.deliver st e).events = s.events := rfl
@[simp] theorem State.deliver_params (st : Status) (e : FExpr) (s : State) : (s.deliver st e).params = s.params := rfl

@[simp] theorem State.transact_cal (t : Txn) (s : State) : (s.transact t).cal = s.cal := rfl
@[simp] theorem State.transact_htState (t : Txn) (s : State) : (s.transact t).htState = s.htState := rfl
@[simp] theorem State.transact_res (t : Txn) (s : State) : (s.transact t).res = s.res := rfl
@[simp] theorem State.transact_busy (t : Txn) (s : State) : (s.transact t).busy = s.busy := rfl
@[simp] theorem State.transact_lock (t : Txn) (s : State) : (s.transact t).lock = s.lock := rfl
@[simp] theorem State.transact_pollCnt (t : Txn) (s : State) : (s.transact t).pollCnt = s.pollCnt := rfl
@[simp] theorem State.transact_running (t : Txn) (s : State) : (s.transact t).running = s.running := rfl
@[simp] theorem State.transact_cmd (t : Txn) (s : State) : (s.transact t).cmd = s.cmd := rfl
@[simp] theorem State.transact_answers (t : Txn) (s : State) : (s.transact t).answers = s.answers.tail := rfl
@[simp] theorem State.transact_events (t : Txn) (s : State) : (s.transact t).events = s.events ++ [⟨s.lock, t, nextAnswer s.answers s.events t⟩] := rfl
@[simp] theorem State.transact_params (t : Txn) (s : State) : (s.transact t).params = s.params := rfl

@[simp] theorem State.afterScript_cal (es : List Event) (s : State) : (s.afterScript es).cal = s.cal := rfl
@[simp] theorem State.afterScript_htState (es : List Event) (s : State) : (s.afterScript es).htState = s.htState := rfl
@[simp] theorem State.afterScript_res (es : List Event) (s : State) : (s.afterScript es).res = s.res := rfl
@[simp] theorem State.afterScript_busy (es : List Event) (s : State) : (s.afterScript es).busy = s.busy := rfl
@[simp] theorem State.afterScript_lock (es : List Event) (s : State) : (s.afterScript es).lock = s.lock := rfl
@[simp] theorem State.afterScript_pollCnt (es : List Event) (s : State) : (s.afterScript es).pollCnt = s.pollCnt := rfl
@[simp] theorem State.afterScript_running (es : List Event) (s : State) : (s.afterScript es).running = s.running := rfl
@[simp] theorem State.afterScript_cmd (es : List Event) (s : State) : (s.afterScript es).cmd = s.cmd := rfl
@[simp] theorem State.afterScript_answers (es : List Event) (s : State) : (s.afterScript es).answers = s.answers.drop es.length := rfl
@[simp] theorem State.afterScript_events (es : List Event) (s : State) : (s.afterScript es).events = s.events ++ es := rfl
@[simp] theorem State.afterScript_params (es : List Event) (s : State) : (s.afterScript es).params = s.params := rfl

end Sys2Proof.Machine
end

