-- ==== Sys2Proof/Laws/Bus.lean ====
section
/-! SUPPORT. Bus scripts: how they compose, what a script says of each bus operation, and what each bus operation says of the
script that was played. Every operation has one law for each direction. -/

namespace Sys2Proof.Machine

/-! ## Scripts -/

theorem playsFrom_append (es fs : List Event) : ∀ (q : List Answer) (h : List Event),
    playsFrom q h (es ++ fs) = (playsFrom q h es && playsFrom (q.drop es.length) (h ++ es) fs) := by
  induction es with
  | nil => intro q h; simp [playsFrom]
  | cons e es ih =>
    intro q h
    have hd : q.tail.drop es.length = q.drop (es.length + 1) := by cases q <;> simp
    simp [playsFrom, ih, hd, Bool.and_assoc]

@[simp] theorem plays_nil (s : State) : s.plays [] = true := rfl

theorem plays_append (s : State) (es fs : List Event) :
    s.plays (es ++ fs) = (s.plays es && (s.afterScript es).plays fs) :=
  playsFrom_append es fs s.answers s.events

theorem plays_cons (s : State) (e : Event) (es : List Event) :
    s.plays (e :: es) = true ↔ nextAnswer s.answers s.events e.txn = e.answer ∧ (s.afterScript [e]).plays es = true := by
  simp [State.plays, playsFrom]

theorem afterScript_nil (s : State) : s.afterScript [] = s := by
  simp [State.afterScript]

theorem afterScript_afterScript (s : State) (es fs : List Event) :
    (s.afterScript es).afterScript fs = s.afterScript (es ++ fs) := by
  simp [State.afterScript, List.append_assoc]

/-- What a script finds depends on the queue and the history alone. -/
theorem plays_congr {s t : State} (ha : s.answers = t.answers) (he : s.events = t.events) (es : List Event) :
    s.plays es = t.plays es := by
  simp [State.plays, ha, he]

/-! ## One transaction -/

theorem busRead_of_plays {s : State} {dev reg b : Byte} (h : s.plays [readOk s.lock dev reg b] = true) :
    busRead dev reg s = .ok b (s.afterScript [readOk s.lock dev reg b]) := by
  rw [plays_cons] at h
  have h1 : nextAnswer s.answers s.events (.read dev reg) = .ok b := h.1
  simp [busRead, h1, State.transact, State.afterScript, readOk]

theorem busRead_of_plays_failed {s : State} {dev reg b : Byte}
    (h : s.plays [failEvent (readOk s.lock dev reg b)] = true) :
    busRead dev reg s = .err (s.afterScript [failEvent (readOk s.lock dev reg b)]) := by
  rw [plays_cons] at h
  have h1 : nextAnswer s.answers s.events (.read dev reg) = .error := h.1
  simp [busRead, h1, State.transact, State.afterScript, readOk, failEvent]

theorem busWrite_of_plays {s : State} {dev reg v w : Byte} (h : s.plays [writeOk s.lock dev reg v w] = true) :
    busWrite dev reg v s = .ok () (s.afterScript [writeOk s.lock dev reg v w]) := by
  rw [plays_cons] at h
  have h1 : nextAnswer s.answers s.events (.write dev reg v) = .ok w := h.1
  simp [busWrite, h1, State.transact, State.afterScript, writeOk]

theorem busWrite_of_plays_failed {s : State} {dev reg v w : Byte}
    (h : s.plays [failEvent (writeOk s.lock dev reg v w)] = true) :
    busWrite dev reg v s = .err (s.afterScript [failEvent (writeOk s.lock dev reg v w)]) := by
  rw [plays_cons] at h
  have h1 : nextAnswer s.answers s.events (.write dev reg v) = .error := h.1
  simp [busWrite, h1, State.transact, State.afterScript, writeOk, failEvent]

/-- Everything a read can do: it was answered with a byte, or with an error; either way it is one transaction. -/
theorem busRead_cases (dev reg : Byte) (s : State) :
    (∃ b, s.plays [readOk s.lock dev reg b] = true ∧
      busRead dev reg s = .ok b (s.afterScript [readOk s.lock dev reg b])) ∨
    (s.plays [failEvent (readOk s.lock dev reg 0)] = true ∧
      busRead dev reg s = .err (s.afterScript [failEvent (readOk s.lock dev reg 0)])) := by
  cases h : nextAnswer s.answers s.events (.read dev reg) with
  | ok b =>
    have hp : s.plays [readOk s.lock dev reg b] = true := by simp [plays_cons, readOk, h]
    exact .inl ⟨b, hp, busRead_of_plays hp⟩
  | error =>
    have hp : s.plays [failEvent (readOk s.lock dev reg 0)] = true := by simp [plays_cons, readOk, failEvent, h]
    exact .inr ⟨hp, busRead_of_plays_failed hp⟩

/-- Everything a write can do. -/
theorem busWrite_cases (dev reg v : Byte) (s : State) :
    (∃ w, s.plays [writeOk s.lock dev reg v w] = true ∧
      busWrite dev reg v s = .ok () (s.afterScript [writeOk s.lock dev reg v w])) ∨
    (s.plays [failEvent (writeOk s.lock dev reg v 0)] = true ∧
      busWrite dev reg v s = .err (s.afterScript [failEvent (writeOk s.lock dev reg v 0)])) := by
  cases h : nextAnswer s.answers s.events (.write dev reg v) with
  | ok w =>
    have hp : s.plays [writeOk s.lock dev reg v w] = true := by simp [plays_cons, writeOk, h]
    exact .inl ⟨w, hp, busWrite_of_plays hp⟩
  | error =>
    have hp : s.plays [failEvent (writeOk s.lock dev reg v 0)] = true := by simp [plays_cons, writeOk, failEvent, h]
    exact .inr ⟨hp, busWrite_of_plays_failed hp⟩

end Sys2Proof.Machine
end

