-- ==== Sys2Proof/Laws/Ops.lean ====
section
/-! SUPPORT. What the locked sequences and the ends of commands do, as scripts. For every sequence: its result where the
environment plays its script (`_of_plays`), its result where transaction `k` fails (`_of_plays_failed`), and that one of
the two is always the case (`_cases`). -/

namespace Sys2Proof.Machine

theorem setLock_self {s : State} {b : Bool} (h : s.lock = b) : s.setLock b = s := by
  subst h; rfl

@[simp] theorem setLock_setLock (a b : Bool) (s : State) : (s.setLock a).setLock b = s.setLock b := rfl

@[simp] theorem afterScript_setLock (b : Bool) (es : List Event) (s : State) :
    (s.setLock b).afterScript es = (s.afterScript es).setLock b := rfl

@[simp] theorem plays_setLock (b : Bool) (s : State) (es : List Event) : (s.setLock b).plays es = s.plays es := rfl
@[simp] theorem plays_setCal (c : Cal) (s : State) (es : List Event) : (s.setCal c).plays es = s.plays es := rfl
@[simp] theorem plays_setHtState (h : HtState) (s : State) (es : List Event) :
    (s.setHtState h).plays es = s.plays es := rfl
@[simp] theorem plays_setPollCnt (n : Nat) (s : State) (es : List Event) : (s.setPollCnt n).plays es = s.plays es := rfl
@[simp] theorem plays_accept (i : Instr) (s : State) (es : List Event) : (s.accept i).plays es = s.plays es := rfl

@[simp] theorem Reply.andThen_ok {α β : Type} (a : α) (s : State) (k : α → State → Reply β) :
    (Reply.ok a s).andThen k = k a s := rfl

@[simp] theorem Reply.andThen_err {α β : Type} (s : State) (k : α → State → Reply β) :
    (Reply.err s).andThen k = .err s := rfl

@[simp] theorem Reply.close_ok {α : Type} (a : α) (s : State) (k : α → State → State) :
    (Reply.ok a s).close k = k a s := rfl

@[simp] theorem Reply.close_err {α : Type} (s : State) (k : α → State → State) :
    (Reply.err s : Reply α).close k = s.raise .transportErr := rfl

/-! ## Commands -/

theorem startCommand_idle {i : Instr} {s : State} {body : State → Host.Outcome State Fault Refusal}
    (h : s.busy = false) : startCommand i s body = body (s.accept i) := by
  simp [startCommand, h]

theorem startCommand_busy {i : Instr} {s : State} {body : State → Host.Outcome State Fault Refusal}
    (h : s.busy = true) : startCommand i s body = .fault .commandWhileBusy := by
  simp [startCommand, h]

theorem runCommand_idle {i : Instr} {s : State} {body : State → State} (h : s.busy = false) :
    runCommand i s body = .next (body (s.accept i)) := startCommand_idle h

theorem runCommand_busy {i : Instr} {s : State} {body : State → State} (h : s.busy = true) :
    runCommand i s body = .fault .commandWhileBusy := startCommand_busy h

theorem requireInited_uninit {s : State} {body : State → State} (h : s.htState = .uninit) :
    requireInited s body = s.raise .stateErr := by
  simp [requireInited, h]

theorem requireInited_other {s : State} {body : State → State} (h : s.htState ≠ .uninit) :
    requireInited s body = body s := by
  simp [requireInited, h]

theorem requireActive_active {s : State} {body : State → Host.Outcome State Fault Refusal} (h : s.htState = .active) :
    requireActive s body = body s := by
  simp [requireActive, h]

theorem requireActive_other {s : State} {body : State → Host.Outcome State Fault Refusal} (h : s.htState ≠ .active) :
    requireActive s body = .next (s.raise .stateErr) := by
  simp [requireActive, h]

/-! ## Scripts with a failing transaction -/

@[simp] theorem readOk_answer (l : Bool) (d r b : Byte) : (readOk l d r b).answer = .ok b := rfl
@[simp] theorem writeOk_answer (l : Bool) (d r v w : Byte) : (writeOk l d r v w).answer = .ok w := rfl
@[simp] theorem failEvent_answer (e : Event) : (failEvent e).answer = .error := rfl
@[simp] theorem failEvent_txn (e : Event) : (failEvent e).txn = e.txn := rfl
@[simp] theorem failEvent_lock (e : Event) : (failEvent e).lock = e.lock := rfl

theorem failEvent_readOk (l : Bool) (d r b b' : Byte) : failEvent (readOk l d r b) = failEvent (readOk l d r b') := rfl

theorem failAt_cons_zero (e : Event) (es : List Event) : failAt (e :: es) 0 = [failEvent e] := by
  simp [failAt]

theorem failAt_cons_succ (e : Event) (es : List Event) (k : Nat) : failAt (e :: es) (k + 1) = e :: failAt es k := by
  simp [failAt]

theorem failAt_append_left (es fs : List Event) : ∀ {k : Nat}, k < es.length → failAt (es ++ fs) k = failAt es k := by
  induction es with
  | nil => intro k h; simp at h
  | cons e es ih =>
    intro k h
    cases k with
    | zero => simp [failAt_cons_zero]
    | succ k => simp [failAt_cons_succ, ih (by simpa using h)]

theorem failAt_append_right (es fs : List Event) (k : Nat) :
    failAt (es ++ fs) (es.length + k) = es ++ failAt fs k := by
  induction es with
  | nil => simp
  | cons e es ih =>
    have : (e :: es).length + k = (es.length + k) + 1 := by simp; omega
    rw [this, List.cons_append, failAt_cons_succ, ih, List.cons_append]

theorem failAt_length {es : List Event} {k : Nat} (h : k < es.length) : (failAt es k).length = k + 1 := by
  simp [failAt]; omega

/-! ## Read-modify-write -/

@[simp] theorem rmwByte_set (old m : Byte) : rmwByte old m 0 = old ||| m := by
  simp only [rmwByte, BitVec.ofNat_eq_ofNat, BitVec.not_zero, BitVec.and_allOnes]

@[simp] theorem rmwByte_clear (old m : Byte) : rmwByte old 0 m = old &&& ~~~m := by
  simp [rmwByte]

theorem rmw_of_plays {dev reg setm clrm old w : Byte} {s : State}
    (h : s.plays (rmwScript dev reg old (rmwByte old setm clrm) w) = true) :
    rmw dev reg setm clrm s =
      .ok () ((s.afterScript (rmwScript dev reg old (rmwByte old setm clrm) w)).setLock false) := by
  have h1 := (plays_append s [readOk true dev reg old] [writeOk true dev reg (rmwByte old setm clrm) w]).symm.trans h
  rw [Bool.and_eq_true] at h1
  rw [rmw, busRead_of_plays (b := old) (by simpa using h1.1), Reply.andThen_ok]
  rw [busWrite_of_plays (w := w) (by simpa using h1.2), Reply.andThen_ok]
  simp [afterScript_afterScript, rmwScript]

theorem rmw_of_plays_failed {dev reg setm clrm old w : Byte} {s : State} {k : Nat} (hk : k < 2)
    (h : s.plays (failAt (rmwScript dev reg old (rmwByte old setm clrm) w) k) = true) :
    rmw dev reg setm clrm s =
      .err ((s.afterScript (failAt (rmwScript dev reg old (rmwByte old setm clrm) w) k)).setLock true) := by
  rcases (show k = 0 ∨ k = 1 by omega) with rfl | rfl
  · rw [rmwScript, failAt_cons_zero] at *
    rw [rmw, busRead_of_plays_failed (b := old) (by simpa using h), Reply.andThen_err]
    simp
  · rw [rmwScript, failAt_cons_succ, failAt_cons_zero] at *
    have h1 := (plays_append s [readOk true dev reg old]
      [failEvent (writeOk true dev reg (rmwByte old setm clrm) w)]).symm.trans h
    rw [Bool.and_eq_true] at h1
    rw [rmw, busRead_of_plays (b := old) (by simpa using h1.1), Reply.andThen_ok]
    rw [busWrite_of_plays_failed (w := w) (by simpa using h1.2), Reply.andThen_err]
    simp [afterScript_afterScript]

theorem rmw_cases (dev reg setm clrm : Byte) (s : State) :
    (∃ old w, s.plays (rmwScript dev reg old (rmwByte old setm clrm) w) = true) ∨
    (∃ old w k, k < 2 ∧ s.plays (failAt (rmwScript dev reg old (rmwByte old setm clrm) w) k) = true) := by
  rcases busRead_cases dev reg (s.setLock true) with ⟨b, hp, -⟩ | ⟨hp, -⟩
  · have ha := plays_append s [readOk true dev reg b]
    rcases busWrite_cases dev reg (rmwByte b setm clrm) ((s.setLock true).afterScript [readOk true dev reg b])
      with ⟨w, hq, -⟩ | ⟨hq, -⟩
    · refine .inl ⟨b, w, (ha [_]).trans ?_⟩
      simp_all
    · refine .inr ⟨b, 0, 1, by omega, ?_⟩
      rw [rmwScript, failAt_cons_succ, failAt_cons_zero]
      refine (ha [_]).trans ?_
      simp_all
  · exact .inr ⟨0, 0, 0, by omega, by simpa [rmwScript, failAt_cons_zero] using hp⟩

/-! ## Locked fetches -/

theorem fetch2_of_plays {dev r0 r1 b0 b1 : Byte} {s : State}
    (h : s.plays [readOk true dev r0 b0, readOk true dev r1 b1] = true) :
    fetch2 dev r0 r1 s =
      .ok (b0, b1) ((s.afterScript [readOk true dev r0 b0, readOk true dev r1 b1]).setLock false) := by
  have h1 := (plays_append s [readOk true dev r0 b0] [readOk true dev r1 b1]).symm.trans h
  rw [Bool.and_eq_true] at h1
  rw [fetch2, busRead_of_plays (b := b0) (by simpa using h1.1), Reply.andThen_ok]
  rw [busRead_of_plays (b := b1) (by simpa using h1.2), Reply.andThen_ok]
  simp [afterScript_afterScript]

theorem fetch2_of_plays_failed {dev r0 r1 b0 b1 : Byte} {s : State} {k : Nat} (hk : k < 2)
    (h : s.plays (failAt [readOk true dev r0 b0, readOk true dev r1 b1] k) = true) :
    fetch2 dev r0 r1 s =
      .err ((s.afterScript (failAt [readOk true dev r0 b0, readOk true dev r1 b1] k)).setLock true) := by
  rcases (show k = 0 ∨ k = 1 by omega) with rfl | rfl
  · rw [failAt_cons_zero] at *
    rw [fetch2, busRead_of_plays_failed (b := b0) (by simpa using h), Reply.andThen_err]
    simp
  · rw [failAt_cons_succ, failAt_cons_zero] at *
    have h1 := (plays_append s [readOk true dev r0 b0] [failEvent (readOk true dev r1 b1)]).symm.trans h
    rw [Bool.and_eq_true] at h1
    rw [fetch2, busRead_of_plays (b := b0) (by simpa using h1.1), Reply.andThen_ok]
    rw [busRead_of_plays_failed (b := b1) (by simpa using h1.2), Reply.andThen_err]
    simp [afterScript_afterScript]

theorem fetch2_cases (dev r0 r1 : Byte) (s : State) :
    (∃ b0 b1, s.plays [readOk true dev r0 b0, readOk true dev r1 b1] = true) ∨
    (∃ b0 b1 k, k < 2 ∧ s.plays (failAt [readOk true dev r0 b0, readOk true dev r1 b1] k) = true) := by
  rcases busRead_cases dev r0 (s.setLock true) with ⟨b, hp, -⟩ | ⟨hp, -⟩
  · have ha := plays_append s [readOk true dev r0 b]
    rcases busRead_cases dev r1 ((s.setLock true).afterScript [readOk true dev r0 b]) with ⟨c, hq, -⟩ | ⟨hq, -⟩
    · refine .inl ⟨b, c, (ha [_]).trans ?_⟩
      simp_all
    · refine .inr ⟨b, 0, 1, by omega, ?_⟩
      rw [failAt_cons_succ, failAt_cons_zero]
      refine (ha [_]).trans ?_
      simp_all
  · exact .inr ⟨0, 0, 0, by omega, by simpa [failAt_cons_zero] using hp⟩

theorem fetch3_of_plays {dev r0 r1 r2 b0 b1 b2 : Byte} {s : State}
    (h : s.plays [readOk true dev r0 b0, readOk true dev r1 b1, readOk true dev r2 b2] = true) :
    fetch3 dev r0 r1 r2 s = .ok (b0, b1, b2)
      ((s.afterScript [readOk true dev r0 b0, readOk true dev r1 b1, readOk true dev r2 b2]).setLock false) := by
  have h1 := (plays_append s [readOk true dev r0 b0] [readOk true dev r1 b1, readOk true dev r2 b2]).symm.trans h
  rw [Bool.and_eq_true] at h1
  have h2 := (plays_append (s.afterScript [readOk true dev r0 b0]) [readOk true dev r1 b1]
    [readOk true dev r2 b2]).symm.trans h1.2
  rw [Bool.and_eq_true] at h2
  rw [fetch3, busRead_of_plays (b := b0) (by simpa using h1.1), Reply.andThen_ok]
  rw [busRead_of_plays (b := b1) (by simpa using h2.1), Reply.andThen_ok]
  rw [busRead_of_plays (b := b2) (by simpa using h2.2), Reply.andThen_ok]
  simp [afterScript_afterScript]

theorem fetch3_of_plays_failed {dev r0 r1 r2 b0 b1 b2 : Byte} {s : State} {k : Nat} (hk : k < 3)
    (h : s.plays (failAt [readOk true dev r0 b0, readOk true dev r1 b1, readOk true dev r2 b2] k) = true) :
    fetch3 dev r0 r1 r2 s = .err
      ((s.afterScript (failAt [readOk true dev r0 b0, readOk true dev r1 b1, readOk true dev r2 b2] k)).setLock true) := by
  rcases (show k = 0 ∨ k = 1 ∨ k = 2 by omega) with rfl | rfl | rfl
  · rw [failAt_cons_zero] at *
    rw [fetch3, busRead_of_plays_failed (b := b0) (by simpa using h), Reply.andThen_err]
    simp
  · rw [failAt_cons_succ, failAt_cons_zero] at *
    have h1 := (plays_append s [readOk true dev r0 b0] [failEvent (readOk true dev r1 b1)]).symm.trans h
    rw [Bool.and_eq_true] at h1
    rw [fetch3, busRead_of_plays (b := b0) (by simpa using h1.1), Reply.andThen_ok]
    rw [busRead_of_plays_failed (b := b1) (by simpa using h1.2), Reply.andThen_err]
    simp [afterScript_afterScript]
  · rw [failAt_cons_succ, failAt_cons_succ, failAt_cons_zero] at *
    have h1 := (plays_append s [readOk true dev r0 b0]
      [readOk true dev r1 b1, failEvent (readOk true dev r2 b2)]).symm.trans h
    rw [Bool.and_eq_true] at h1
    have h2 := (plays_append (s.afterScript [readOk true dev r0 b0]) [readOk true dev r1 b1]
      [failEvent (readOk true dev r2 b2)]).symm.trans h1.2
    rw [Bool.and_eq_true] at h2
    rw [fetch3, busRead_of_plays (b := b0) (by simpa using h1.1), Reply.andThen_ok]
    rw [busRead_of_plays (b := b1) (by simpa using h2.1), Reply.andThen_ok]
    rw [busRead_of_plays_failed (b := b2) (by simpa using h2.2), Reply.andThen_err]
    simp [afterScript_afterScript]

theorem fetch3_cases (dev r0 r1 r2 : Byte) (s : State) :
    (∃ b0 b1 b2, s.plays [readOk true dev r0 b0, readOk true dev r1 b1, readOk true dev r2 b2] = true) ∨
    (∃ b0 b1 b2 k, k < 3 ∧
      s.plays (failAt [readOk true dev r0 b0, readOk true dev r1 b1, readOk true dev r2 b2] k) = true) := by
  rcases busRead_cases dev r0 (s.setLock true) with ⟨b, hp, -⟩ | ⟨hp, -⟩
  · have ha := plays_append s [readOk true dev r0 b]
    rcases fetch2_cases dev r1 r2 (s.afterScript [readOk true dev r0 b]) with ⟨c, d, hq⟩ | ⟨c, d, k, hk, hq⟩
    · refine .inl ⟨b, c, d, (ha [_, _]).trans ?_⟩
      simp_all
    · refine .inr ⟨b, c, d, k + 1, by omega, ?_⟩
      rw [failAt_cons_succ]
      exact (ha (failAt [readOk true dev r1 c, readOk true dev r2 d] k)).trans (by simp_all)
  · exact .inr ⟨0, 0, 0, 0, by omega, by simpa [failAt_cons_zero] using hp⟩

end Sys2Proof.Machine
end

