-- ==== Sys2Proof/Laws/Cal.lean ====
section
/-! SUPPORT. The calibration sequence: the order of its items, its thirteen reads as a script, and what it stores. -/

namespace Sys2Proof.Machine

/-! ## The order of the items -/

theorem insertItem_perm (m : CalMap) (i : CalItem) : ∀ l : List CalItem, (insertItem m i l).Perm (i :: l)
  | [] => List.Perm.refl _
  | j :: js => by
    simp only [insertItem]
    split
    · exact List.Perm.refl _
    · exact ((insertItem_perm m i js).cons j).trans (List.Perm.swap i j js)

theorem calOrder_perm (m : CalMap) : (calOrder m).Perm calItems := by
  have h : ∀ l : List CalItem, (l.foldr (insertItem m) []).Perm l := by
    intro l
    induction l with
    | nil => exact List.Perm.refl _
    | cons i l ih => exact (insertItem_perm m i _).trans (ih.cons i)
  exact h calItems

theorem mem_calOrder (m : CalMap) (i : CalItem) : i ∈ calOrder m :=
  (calOrder_perm m).mem_iff.2 (by cases i <;> decide)

theorem calOrder_nodup (m : CalMap) : (calOrder m).Nodup :=
  (calOrder_perm m).nodup_iff.2 (by decide)

theorem insertItem_sorted (m : CalMap) (i : CalItem) : ∀ l : List CalItem,
    l.Pairwise (fun a b => calItemAddr m a ≤ calItemAddr m b) →
      (insertItem m i l).Pairwise (fun a b => calItemAddr m a ≤ calItemAddr m b)
  | [], _ => by simp [insertItem]
  | j :: js, h => by
    rw [List.pairwise_cons] at h
    simp only [insertItem]
    split
    · rename_i hij
      refine List.pairwise_cons.2 ⟨fun b hb => ?_, List.pairwise_cons.2 h⟩
      rcases List.mem_cons.1 hb with rfl | hb
      · exact hij
      · exact BitVec.le_trans hij (h.1 b hb)
    · rename_i hij
      refine List.pairwise_cons.2 ⟨fun b hb => ?_, insertItem_sorted m i js h.2⟩
      rcases List.mem_cons.1 ((insertItem_perm m i js).mem_iff.1 hb) with rfl | hb
      · exact BitVec.le_of_lt (BitVec.not_le.1 hij)
      · exact h.1 b hb

/-- The items stand in ascending register address (42_calibration_unpack.md rule R146). -/
theorem calOrder_sorted (m : CalMap) :
    (calOrder m).Pairwise (fun a b => calItemAddr m a ≤ calItemAddr m b) := by
  have h : ∀ l : List CalItem,
      (l.foldr (insertItem m) []).Pairwise (fun a b => calItemAddr m a ≤ calItemAddr m b) := by
    intro l
    induction l with
    | nil => exact List.Pairwise.nil
    | cons i l ih => exact insertItem_sorted m i _ ih
  exact h calItems

/-! ## One item -/

/-- The first byte of an item. -/
def itemLo (r : CalBytes) : CalItem → Byte
  | .hp0 => r.h0
  | .hp1 => r.h1
  | .tp0 => r.t0
  | .tp1 => r.t1
  | .tmsb => r.m
  | .ho0 => r.a0
  | .ho1 => r.b0
  | .to0 => r.c0
  | .to1 => r.d0

/-- The second byte of an item; of a single byte, 0. -/
def itemHi (r : CalBytes) : CalItem → Byte
  | .ho0 => r.a1
  | .ho1 => r.b1
  | .to0 => r.c1
  | .to1 => r.d1
  | _ => 0

/-- Two collections hold the same bytes of an item. -/
def sameItem (a r : CalBytes) (i : CalItem) : Prop := itemLo a i = itemLo r i ∧ itemHi a i = itemHi r i

theorem sameItem_putItem_self (a r : CalBytes) (i : CalItem) :
    sameItem (putItem i (itemLo r i) (itemHi r i) a) r i := by
  cases i <;> exact ⟨rfl, rfl⟩

theorem sameItem_putItem_other {a r : CalBytes} {i j : CalItem} (h : i ≠ j) (lo hi : Byte) :
    sameItem (putItem i lo hi a) r j ↔ sameItem a r j := by
  cases i <;> cases j <;> first | exact Iff.rfl | exact absurd rfl h

theorem eq_of_sameItems {a r : CalBytes} (h : ∀ i, sameItem a r i) : a = r := by
  have h1 := h .hp0
  have h2 := h .hp1
  have h3 := h .tp0
  have h4 := h .tp1
  have h5 := h .tmsb
  have h6 := h .ho0
  have h7 := h .ho1
  have h8 := h .to0
  have h9 := h .to1
  cases a
  cases r
  simp_all [sameItem, itemLo, itemHi]

theorem itemScript_congr (m : CalMap) {a r : CalBytes} {i : CalItem} (h : sameItem a r i) :
    itemScript m a i = itemScript m r i := by
  obtain ⟨h1, h2⟩ := h
  cases i <;> simp_all [itemScript, itemLo, itemHi]

theorem readItem_of_plays {m : CalMap} {i : CalItem} {r acc : CalBytes} {s : State} (hl : s.lock = false)
    (h : s.plays (itemScript m r i) = true) :
    readItem m i acc s = .ok (putItem i (itemLo r i) (itemHi r i) acc) (s.afterScript (itemScript m r i)) := by
  have single (reg b : Byte) (h : s.plays [readOk false 0x5F reg b] = true) (f : Byte → CalBytes) :
      ((busRead 0x5F reg s).andThen fun b s => .ok (f b) s) = .ok (f b) (s.afterScript [readOk false 0x5F reg b]) := by
    rw [← hl] at h ⊢
    rw [busRead_of_plays h, Reply.andThen_ok]
  have pair (reg lo hi : Byte) (h : s.plays [readOk true 0x5F reg lo, readOk true 0x5F (reg + 1) hi] = true)
      (f : Byte × Byte → CalBytes) :
      ((fetch2 0x5F reg (reg + 1) s).andThen fun b s => .ok (f b) s) =
        .ok (f (lo, hi)) (s.afterScript [readOk true 0x5F reg lo, readOk true 0x5F (reg + 1) hi]) := by
    rw [fetch2_of_plays h, Reply.andThen_ok, setLock_self (by simpa using hl)]
  cases i <;> first | exact single _ _ h _ | exact pair _ _ _ h _

theorem readItem_of_plays_failed {m : CalMap} {i : CalItem} {r acc : CalBytes} {s : State} {k : Nat}
    (hl : s.lock = false) (hk : k < (itemScript m r i).length) (h : s.plays (failAt (itemScript m r i) k) = true) :
    ∃ b, readItem m i acc s = .err ((s.afterScript (failAt (itemScript m r i) k)).setLock b) := by
  have single (reg b : Byte) (hk : k < 1) (h : s.plays (failAt [readOk false 0x5F reg b] k) = true)
      (f : Byte → CalBytes) : ∃ b', ((busRead 0x5F reg s).andThen fun b s => .ok (f b) s) =
        .err ((s.afterScript (failAt [readOk false 0x5F reg b] k)).setLock b') := by
    obtain rfl : k = 0 := by omega
    rw [failAt_cons_zero] at h ⊢
    rw [← hl] at h ⊢
    exact ⟨s.lock, by rw [busRead_of_plays_failed h, Reply.andThen_err, setLock_self (by simp)]⟩
  have pair (reg lo hi : Byte) (hk : k < 2)
      (h : s.plays (failAt [readOk true 0x5F reg lo, readOk true 0x5F (reg + 1) hi] k) = true)
      (f : Byte × Byte → CalBytes) : ∃ b', ((fetch2 0x5F reg (reg + 1) s).andThen fun b s => .ok (f b) s) =
        .err ((s.afterScript (failAt [readOk true 0x5F reg lo, readOk true 0x5F (reg + 1) hi] k)).setLock b') :=
    ⟨true, by rw [fetch2_of_plays_failed hk h, Reply.andThen_err]⟩
  cases i <;> first | exact single _ _ hk h _ | exact pair _ _ _ hk h _

theorem readItem_cases (m : CalMap) (i : CalItem) {s : State} (hl : s.lock = false) :
    (∃ r, s.plays (itemScript m r i) = true) ∨
    (∃ r k, k < (itemScript m r i).length ∧ s.plays (failAt (itemScript m r i) k) = true) := by
  cases i <;> simp only [itemScript]
  case ho0 =>
    exact ((fetch2_cases 0x5F m.ho0 (m.ho0 + 1) s).imp
      (fun ⟨b0, b1, h⟩ => ⟨{ noCalBytes with a0 := b0, a1 := b1 }, h⟩)
      (fun ⟨b0, b1, k, hk, h⟩ => ⟨{ noCalBytes with a0 := b0, a1 := b1 }, k, hk, h⟩))
  case ho1 =>
    exact ((fetch2_cases 0x5F m.ho1 (m.ho1 + 1) s).imp
      (fun ⟨b0, b1, h⟩ => ⟨{ noCalBytes with b0 := b0, b1 := b1 }, h⟩)
      (fun ⟨b0, b1, k, hk, h⟩ => ⟨{ noCalBytes with b0 := b0, b1 := b1 }, k, hk, h⟩))
  case to0 =>
    exact ((fetch2_cases 0x5F m.to0 (m.to0 + 1) s).imp
      (fun ⟨b0, b1, h⟩ => ⟨{ noCalBytes with c0 := b0, c1 := b1 }, h⟩)
      (fun ⟨b0, b1, k, hk, h⟩ => ⟨{ noCalBytes with c0 := b0, c1 := b1 }, k, hk, h⟩))
  case to1 =>
    exact ((fetch2_cases 0x5F m.to1 (m.to1 + 1) s).imp
      (fun ⟨b0, b1, h⟩ => ⟨{ noCalBytes with d0 := b0, d1 := b1 }, h⟩)
      (fun ⟨b0, b1, k, hk, h⟩ => ⟨{ noCalBytes with d0 := b0, d1 := b1 }, k, hk, h⟩))
  case hp0 =>
    exact ((busRead_cases 0x5F m.hp0 s).imp
      (fun ⟨b, h, _⟩ => ⟨{ noCalBytes with h0 := b }, by rw [hl] at h; exact h⟩)
      (fun ⟨h, _⟩ => ⟨noCalBytes, 0, by simp, by rw [hl] at h; rw [failAt_cons_zero]; exact h⟩))
  case hp1 =>
    exact ((busRead_cases 0x5F m.hp1 s).imp
      (fun ⟨b, h, _⟩ => ⟨{ noCalBytes with h1 := b }, by rw [hl] at h; exact h⟩)
      (fun ⟨h, _⟩ => ⟨noCalBytes, 0, by simp, by rw [hl] at h; rw [failAt_cons_zero]; exact h⟩))
  case tp0 =>
    exact ((busRead_cases 0x5F m.tp0 s).imp
      (fun ⟨b, h, _⟩ => ⟨{ noCalBytes with t0 := b }, by rw [hl] at h; exact h⟩)
      (fun ⟨h, _⟩ => ⟨noCalBytes, 0, by simp, by rw [hl] at h; rw [failAt_cons_zero]; exact h⟩))
  case tp1 =>
    exact ((busRead_cases 0x5F m.tp1 s).imp
      (fun ⟨b, h, _⟩ => ⟨{ noCalBytes with t1 := b }, by rw [hl] at h; exact h⟩)
      (fun ⟨h, _⟩ => ⟨noCalBytes, 0, by simp, by rw [hl] at h; rw [failAt_cons_zero]; exact h⟩))
  case tmsb =>
    exact ((busRead_cases 0x5F m.tmsb s).imp
      (fun ⟨b, h, _⟩ => ⟨{ noCalBytes with m := b }, by rw [hl] at h; exact h⟩)
      (fun ⟨h, _⟩ => ⟨noCalBytes, 0, by simp, by rw [hl] at h; rw [failAt_cons_zero]; exact h⟩))

/-! ## All the items -/

theorem readItems_of_plays {m : CalMap} {r : CalBytes} : ∀ (is : List CalItem) (acc : CalBytes) {s : State},
    s.lock = false → s.plays (is.flatMap (itemScript m r)) = true →
      ∃ a, readItems m is acc s = .ok a (s.afterScript (is.flatMap (itemScript m r))) ∧
        ∀ i, (i ∈ is ∨ sameItem acc r i) → sameItem a r i
  | [], acc, s, _, _ => ⟨acc, by simp [readItems, afterScript_nil], fun i h => by simpa using h⟩
  | i :: is, acc, s, hl, h => by
    rw [List.flatMap_cons, plays_append, Bool.and_eq_true] at h
    obtain ⟨a, ha, hs⟩ := readItems_of_plays is (putItem i (itemLo r i) (itemHi r i) acc)
      (s := s.afterScript (itemScript m r i)) (by simpa using hl) h.2
    refine ⟨a, ?_, fun j hj => ?_⟩
    · rw [readItems, readItem_of_plays hl h.1, Reply.andThen_ok, ha, afterScript_afterScript, List.flatMap_cons]
    · by_cases hij : i = j
      · subst hij; exact hs i (.inr (sameItem_putItem_self acc r i))
      · rcases hj with hj | hj
        · rcases List.mem_cons.1 hj with rfl | hj
          · exact absurd rfl hij
          · exact hs j (.inl hj)
        · exact hs j (.inr ((sameItem_putItem_other hij _ _).2 hj))

theorem readItems_of_plays_failed {m : CalMap} {r : CalBytes} : ∀ (is : List CalItem) (acc : CalBytes) {s : State} {k : Nat},
    s.lock = false → k < (is.flatMap (itemScript m r)).length →
    s.plays (failAt (is.flatMap (itemScript m r)) k) = true →
      ∃ b, readItems m is acc s = .err ((s.afterScript (failAt (is.flatMap (itemScript m r)) k)).setLock b)
  | [], _, _, _, _, hk, _ => by simp at hk
  | i :: is, acc, s, k, hl, hk, h => by
    rw [List.flatMap_cons] at h hk ⊢
    rcases Nat.lt_or_ge k (itemScript m r i).length with hlt | hge
    · rw [failAt_append_left _ _ hlt] at h ⊢
      obtain ⟨b, hb⟩ := readItem_of_plays_failed (acc := acc) hl hlt h
      exact ⟨b, by rw [readItems, hb, Reply.andThen_err]⟩
    · obtain ⟨n, rfl⟩ := Nat.exists_eq_add_of_le hge
      rw [failAt_append_right, plays_append, Bool.and_eq_true] at h
      rw [failAt_append_right]
      obtain ⟨b, hb⟩ := readItems_of_plays_failed is (putItem i (itemLo r i) (itemHi r i) acc)
        (s := s.afterScript (itemScript m r i)) (k := n) (by simpa using hl) (by simpa using hk) h.2
      exact ⟨b, by rw [readItems, readItem_of_plays hl h.1, Reply.andThen_ok, hb, afterScript_afterScript]⟩

theorem flatMap_itemScript_congr (m : CalMap) {a r : CalBytes} {is : List CalItem} (h : ∀ i ∈ is, sameItem a r i) :
    is.flatMap (itemScript m a) = is.flatMap (itemScript m r) := by
  induction is with
  | nil => rfl
  | cons i is ih =>
    rw [List.flatMap_cons, List.flatMap_cons, itemScript_congr m (h i (by simp)), ih (fun j hj => h j (by simp [hj]))]

theorem readItems_cases (m : CalMap) : ∀ (is : List CalItem), is.Nodup → ∀ {s : State}, s.lock = false →
    (∃ r, s.plays (is.flatMap (itemScript m r)) = true) ∨
    (∃ r k, k < (is.flatMap (itemScript m r)).length ∧ s.plays (failAt (is.flatMap (itemScript m r)) k) = true)
  | [], _, s, _ => .inl ⟨noCalBytes, by simp⟩
  | i :: is, hn, s, hl => by
    rw [List.nodup_cons] at hn
    simp only [List.flatMap_cons]
    rcases readItem_cases m i hl with ⟨r0, h0⟩ | ⟨r0, k, hk, h0⟩
    · have hself : ∀ r, itemScript m (putItem i (itemLo r0 i) (itemHi r0 i) r) i = itemScript m r0 i := fun r =>
        itemScript_congr m (sameItem_putItem_self r r0 i)
      have hrest : ∀ r, is.flatMap (itemScript m (putItem i (itemLo r0 i) (itemHi r0 i) r)) =
          is.flatMap (itemScript m r) := fun r =>
        flatMap_itemScript_congr m fun j hj =>
          (sameItem_putItem_other (fun h => hn.1 (by rw [h]; exact hj)) _ _).2 ⟨rfl, rfl⟩
      rcases readItems_cases m is hn.2 (s := s.afterScript (itemScript m r0 i)) (by simpa using hl)
        with ⟨r, h⟩ | ⟨r, k, hk, h⟩
      · refine .inl ⟨putItem i (itemLo r0 i) (itemHi r0 i) r, ?_⟩
        rw [hself, hrest, plays_append, h0, h]; rfl
      · refine .inr ⟨putItem i (itemLo r0 i) (itemHi r0 i) r, (itemScript m r0 i).length + k, ?_, ?_⟩
        · rw [hself, hrest, List.length_append]; omega
        · rw [hself, hrest, failAt_append_right, plays_append, h0, h]; rfl
    · refine .inr ⟨r0, k, ?_, ?_⟩
      · rw [List.length_append]; omega
      · rw [failAt_append_left _ _ hk]; exact h0

/-! ## HT.CAL -/

theorem calScript_length (m : CalMap) (r : CalBytes) : (calScript m r).length = 13 := by
  rw [calScript, ((calOrder_perm m).flatMap_right (itemScript m r)).length_eq]; rfl

theorem actScript_length (m : CalMap) (old w : Byte) (r : CalBytes) : (actScript m old w r).length = 15 := by
  simp [actScript, rmwScript, calScript_length]

theorem calibrate_of_plays {s : State} {r : CalBytes} (hl : s.lock = false)
    (h : s.plays (calScript s.params.calMap r) = true) :
    calibrate s = .ok () ((s.afterScript (calScript s.params.calMap r)).setCal (unpackCal r)) := by
  obtain ⟨a, ha, hs⟩ := readItems_of_plays _ noCalBytes hl h
  rw [calibrate, ha, Reply.andThen_ok, eq_of_sameItems fun i => hs i (.inl (mem_calOrder _ i))]
  rfl

theorem calibrate_of_plays_failed {s : State} {r : CalBytes} {k : Nat} (hl : s.lock = false) (hk : k < 13)
    (h : s.plays (failAt (calScript s.params.calMap r) k) = true) :
    ∃ b, calibrate s = .err ((s.afterScript (failAt (calScript s.params.calMap r) k)).setLock b) := by
  obtain ⟨b, hb⟩ := readItems_of_plays_failed (calOrder s.params.calMap) noCalBytes hl
    (by rw [← calScript, calScript_length]; exact hk) h
  exact ⟨b, by rw [calibrate, hb, Reply.andThen_err]; rfl⟩

theorem calibrate_cases {s : State} (hl : s.lock = false) :
    (∃ r, s.plays (calScript s.params.calMap r) = true) ∨
    (∃ r k, k < 13 ∧ s.plays (failAt (calScript s.params.calMap r) k) = true) := by
  rcases readItems_cases s.params.calMap _ (calOrder_nodup _) hl with ⟨r, h⟩ | ⟨r, k, hk, h⟩
  · exact .inl ⟨r, h⟩
  · exact .inr ⟨r, k, by rw [← calScript, calScript_length] at hk; exact hk, h⟩

end Sys2Proof.Machine
end

