-- ==== Sys2Proof/Laws/Convert.lean ====
section
/-! SUPPORT. The values of the conversion formulas in `NUM_B64`: which intermediate results are exact, and where the rounded
ones lie. -/

namespace Sys2Proof.Machine

theorem abs_le_big {q : Rat} {k : Nat} (hk : k ≤ 200) (h : |q| ≤ 2 ^ k) : |q| ≤ 2 ^ 200 :=
  h.trans (pow_le_pow_right₀ (by norm_num) hk)

/-- A decimal literal that is a dyadic number is converted exactly. -/
theorem lit_value {m : Int} {s : Nat} {z j : Int} (hz : z.natAbs ≤ 2 ^ 53) (hj : -1074 ≤ j)
    (h : (m : Rat) / ((10 ^ s : Nat) : Rat) = z * (2:Rat) ^ j) (hb : |(m : Rat) / ((10 ^ s : Nat) : Rat)| ≤ 2 ^ 200) :
    b64Finite (evalB64 (.lit ⟨m, s⟩)) = true ∧ b64Value (evalB64 (.lit ⟨m, s⟩)) = evalQ (.lit ⟨m, s⟩) := by
  obtain ⟨a, b⟩ := b64OfRat_value hb
  simp only [evalB64, evalQ, b64OfDecimal_eq]
  exact ⟨a, by rw [b, rnd_exact z j hz hj h]⟩

/-- Rounding does not pass an integer upwards. -/
theorem rnd_le_int {q : Rat} {z : Int} (hz : z.natAbs ≤ 2 ^ 53) (h : q ≤ z) : rnd q ≤ z := by
  have := rnd_mono h
  rwa [rnd_exact (q := (z : Rat)) z 0 hz (by norm_num) (by simp)] at this

/-- Rounding does not pass an integer downwards. -/
theorem int_le_rnd {q : Rat} {z : Int} (hz : z.natAbs ≤ 2 ^ 53) (h : (z:Rat) ≤ q) : (z:Rat) ≤ rnd q := by
  have := rnd_mono h
  rwa [rnd_exact (q := (z : Rat)) z 0 hz (by norm_num) (by simp)] at this

theorem b64OfRat_sign {q : Rat} (h : |q| ≤ 2^200) : b64Sign (b64OfRat q) = decide (q < 0) := by
  have := (b64RoundMag_value (n := q.num.natAbs) (d := q.den) q.den_pos (by rw [abs_num_div_den]; exact h)).1
  exact (b64Pack_fields _ (show b64RoundMag q.num.natAbs q.den < 2 ^ 63 by omega)).2.2

theorem b64Zero_false_ofRat : b64Zero false = b64OfRat 0 := by
  simp [b64OfRat, b64Round, b64RoundMag, b64Zero]

/-- What the proofs use of a scale, for points up to `P`. -/
structure ScaleFacts (scale : Decimal) (P : Int) : Prop where
  fin : b64Finite (evalB64 (.lit scale)) = true
  val : b64Value (evalB64 (.lit scale)) = scaleValue scale
  sh : ∃ j : Int, -10 ≤ j ∧ j ≤ 0 ∧ (scaleValue scale)⁻¹ = (2:Rat) ^ j
  one : 1 ≤ scaleValue scale
  big : (P : Rat) / scaleValue scale ≤ 1023 / 8

/-- The two scales of 43_interpolation.md rules R162 and R163 are exact powers of two. -/
theorem scale_facts {scale : Decimal} {p0 p1 : Int} (h : ((scale = ⟨80, 1⟩ ∧ p0 ≤ 1023 ∧ p1 ≤ 1023) ∨ (scale = ⟨2, 0⟩ ∧ p0 ≤ 255 ∧ p1 ≤ 255))) :
    ∃ P : Int, p0 ≤ P ∧ p1 ≤ P ∧ P ≤ 1023 ∧ ScaleFacts scale P := by
  rcases h with ⟨rfl, h0, h1⟩ | ⟨rfl, h0, h1⟩
  · refine ⟨1023, h0, h1, le_refl _, ?_⟩
    have := lit_value (m := 80) (s := 1) (z := 1) (j := 3) (by norm_num) (by norm_num) (by norm_num) (by norm_num [abs_le])
    exact ⟨this.1, this.2, ⟨-3, by norm_num, by norm_num, by simp only [scaleValue, evalQ]; norm_num⟩, by simp only [scaleValue, evalQ]; norm_num, by simp only [scaleValue, evalQ]; norm_num⟩
  · refine ⟨255, h0, h1, by norm_num, ?_⟩
    have := lit_value (m := 2) (s := 0) (z := 1) (j := 1) (by norm_num) (by norm_num) (by norm_num) (by norm_num [abs_le])
    exact ⟨this.1, this.2, ⟨-1, by norm_num, by norm_num, by simp only [scaleValue, evalQ]; norm_num⟩, by simp only [scaleValue, evalQ]; norm_num, by simp only [scaleValue, evalQ]; norm_num⟩

/-- A calibration point, or a difference of two, divided by its scale is exact. -/
theorem divScale_value {scale : Decimal} {P p : Int} (hf : ScaleFacts scale P) (hp : p.natAbs ≤ 2 ^ 20) :
    b64Finite (evalB64 (.div (.ofInt p) (.lit scale))) = true ∧
      b64Value (evalB64 (.div (.ofInt p) (.lit scale))) = p / scaleValue scale := by
  obtain ⟨j, hj1, hj2, hj⟩ := hf.sh
  obtain ⟨f1, v1⟩ := b64OfInt_value (z := p) (hp.trans (by norm_num))
  have hS : (0:Rat) < scaleValue scale := lt_of_lt_of_le one_pos hf.one
  have hpa : |(p:Rat)| ≤ 2 ^ 20 := by
    have : (p.natAbs : Rat) ≤ 2 ^ 20 := by exact_mod_cast hp
    rwa [Nat.cast_natAbs, Int.cast_abs] at this
  have hb : |(p:Rat) / scaleValue scale| ≤ 2 ^ 200 := by
    rw [abs_div, abs_of_pos hS]
    refine (div_le_self (abs_nonneg _) hf.one).trans (hpa.trans (by norm_num))
  simp only [evalB64]
  have := b64Div_value f1 hf.fin (by rw [hf.val]; exact hS.ne') (by rw [v1, hf.val]; exact hb)
  rw [v1, hf.val] at this
  refine ⟨this.1, this.2.trans ?_⟩
  exact rnd_exact p j (hp.trans (by norm_num)) (by omega) (by rw [div_eq_mul_inv, hj])

theorem divScale_bits {scale : Decimal} {P p : Int} (hf : ScaleFacts scale P) (hp0 : 0 ≤ p) (hp : p ≤ 1023) :
    evalB64 (.div (.ofInt p) (.lit scale)) = b64OfRat (p / scaleValue scale) := by
  have hS : (0:Rat) < scaleValue scale := lt_of_lt_of_le one_pos hf.one
  obtain ⟨f1, v1⟩ := b64OfInt_value (z := p) (by omega)
  have hpb : |(p:Rat)| ≤ 2 ^ 200 := by
    have e1 : (p:Rat) ≤ 1023 := by exact_mod_cast hp
    have e2 : (0:Rat) ≤ p := by exact_mod_cast hp0
    rw [abs_of_nonneg e2]; exact e1.trans (by norm_num)
  show b64Div (b64OfInt p) (evalB64 (.lit scale)) = _
  rw [b64Div_eq f1 hf.fin (by rw [hf.val]; exact hS.ne'), v1, hf.val]
  split
  · rename_i h0
    rw [h0]
    have hp' : p = 0 := by
      rcases div_eq_zero_iff.1 h0 with h | h
      · exact_mod_cast h
      · exact absurd h hS.ne'
    subst hp'
    have s2 : b64Sign (evalB64 (.lit scale)) = false := by
      have hb : |scaleValue scale| ≤ 2 ^ 200 := by
        obtain ⟨j, j1, j2, hj⟩ := hf.sh
        have : scaleValue scale = 2 ^ (-j) := by rw [zpow_neg, ← hj, inv_inv]
        rw [abs_of_pos hS, this]
        calc (2:Rat) ^ (-j) ≤ 2 ^ (200:Int) := zpow_le_zpow_right₀ (by norm_num) (by omega)
          _ = 2 ^ 200 := by norm_cast
      have e : evalB64 (.lit scale) = b64OfRat (scaleValue scale) := by
        simp only [evalB64, b64OfDecimal_eq, scaleValue, evalQ]
      rw [e, b64OfRat_sign hb]; simp [hS.le]
    have s1 : b64Sign (b64OfInt 0) = false := by decide
    rw [s1, s2]; exact b64Zero_false_ofRat
  · rfl

/-- The interpolation in `NUM_B64`: two roundings, at the division by the span and at the last addition. -/
theorem interp_value {raw out0 out1 p0 p1 : Int} {scale : Decimal} (h : InterpOperands raw out0 out1 p0 p1 scale) :
    let x := ((raw : Rat) - out0) * (((p1 : Rat) - p0) / scaleValue scale) / ((out1 : Rat) - out0)
    let q := (.div (.mul (.ofInt (raw - out0)) (.div (.ofInt (p1 - p0)) (.lit scale))) (.ofInt (out1 - out0)) : FExpr)
    |x| < 2 ^ 23 ∧ |rnd x| ≤ 2 ^ 23 ∧ 0 ≤ (p0:Rat) / scaleValue scale ∧ (p0:Rat) / scaleValue scale ≤ 1023 / 8 ∧
    b64Finite (evalB64 q) = true ∧ b64Value (evalB64 q) = rnd x ∧
    b64Finite (evalB64 (interp2 raw out0 out1 p0 p1 scale)) = true ∧
    b64Value (evalB64 (interp2 raw out0 out1 p0 p1 scale)) = rnd (rnd x + p0 / scaleValue scale) := by
  obtain ⟨r0, r1, a0, a1, b0, b1, hne, hp0, hp1, hs⟩ := h
  obtain ⟨P, hP0, hP1, hP, hf⟩ := scale_facts hs
  intro x q
  have hS : (0:Rat) < scaleValue scale := lt_of_lt_of_le one_pos hf.one
  obtain ⟨f1, v1⟩ := divScale_value (p := p1 - p0) hf (by omega)
  obtain ⟨f2, v2⟩ := b64OfInt_value (z := raw - out0) (by omega)
  obtain ⟨f3, v3⟩ := b64OfInt_value (z := out1 - out0) (by omega)
  obtain ⟨f4, v4⟩ := divScale_value (p := p0) hf (by omega)
  push_cast at v1 v2 v3
  have hspan : |((p1 : Rat) - p0) / scaleValue scale| ≤ 1023 / 8 := by
    refine le_trans ?_ hf.big
    rw [abs_div, abs_of_pos hS]
    gcongr
    rw [abs_le]
    have e0 : (p0 : Rat) ≤ P := by exact_mod_cast hP0
    have e1 : (p1 : Rat) ≤ P := by exact_mod_cast hP1
    have e2 : (0:Rat) ≤ p0 := by exact_mod_cast hp0
    have e3 : (0:Rat) ≤ p1 := by exact_mod_cast hp1
    constructor <;> linarith
  have hraw : |(raw : Rat) - out0| ≤ 65535 := by
    have e0 : (raw : Rat) ≤ 65535 := by exact_mod_cast r1
    have e1 : (out0 : Rat) ≤ 65535 := by exact_mod_cast a1
    have e2 : (0:Rat) ≤ raw := by exact_mod_cast r0
    have e3 : (0:Rat) ≤ out0 := by exact_mod_cast a0
    rw [abs_le]; constructor <;> linarith
  have hd1 : 1 ≤ |(out1 : Rat) - out0| := by
    have : 1 ≤ |out1 - out0| := Int.one_le_abs (sub_ne_zero.2 hne)
    exact_mod_cast this
  have hd0 : (out1 : Rat) - out0 ≠ 0 := by
    intro h0; rw [h0] at hd1; norm_num at hd1
  have hnum : |((raw : Rat) - out0) * (((p1 : Rat) - p0) / scaleValue scale)| ≤ 65535 * (1023 / 8) := by
    rw [abs_mul]; gcongr
  have hx : |x| < 2 ^ 23 := by
    show |_ / _| < _
    rw [abs_div]
    refine lt_of_le_of_lt (div_le_self (abs_nonneg _) hd1) (hnum.trans_lt (by norm_num))
  have hrx : |rnd x| ≤ 2 ^ 23 := by
    have e : rnd ((2:Rat) ^ 23) = 2 ^ 23 := rnd_exact (2 ^ 23) 0 (by norm_num) (by norm_num) (by norm_num)
    rw [abs_le] at *
    rw [abs_lt] at hx
    constructor
    · have := rnd_mono hx.1.le
      rwa [rnd_neg, e] at this
    · have := rnd_mono hx.2.le
      rwa [e] at this
  obtain ⟨j, hj1, hj2, hj⟩ := hf.sh
  have m := b64Mul_value f2 f1 (by rw [v2, v1]; exact hnum.trans (by norm_num))
  rw [v2, v1] at m
  have hnumx : rnd (((raw : Rat) - out0) * (((p1 : Rat) - p0) / scaleValue scale)) = ((raw : Rat) - out0) * (((p1 : Rat) - p0) / scaleValue scale) := by
    refine rnd_exact ((raw - out0) * (p1 - p0)) j ?_ (by omega) ?_
    · rw [Int.natAbs_mul]
      have h1 : (raw - out0).natAbs ≤ 2 ^ 16 := by omega
      have h2 : (p1 - p0).natAbs ≤ 2 ^ 10 := by omega
      exact (Nat.mul_le_mul h1 h2).trans (by norm_num)
    · rw [← hj]; push_cast; field_simp
  rw [hnumx] at m
  have dv := b64Div_value m.1 f3 (by rw [v3]; exact hd0) (by rw [m.2, v3]; exact abs_le_big (by norm_num) hx.le)
  rw [m.2, v3] at dv
  have ho0 : (0:Rat) ≤ p0 / scaleValue scale := by
    have : (0:Rat) ≤ p0 := by exact_mod_cast hp0
    positivity
  have ho1 : (p0:Rat) / scaleValue scale ≤ 1023 / 8 := by
    refine le_trans ?_ hf.big
    gcongr
  have ad := b64Add_value dv.1 f4 (by
    rw [dv.2, v4]
    refine (abs_add_le _ _).trans ((add_le_add hrx ((abs_of_nonneg ho0).le.trans ho1)).trans (by norm_num)))
  rw [dv.2, v4] at ad
  exact ⟨hx, hrx, ho0, ho1, dv.1, dv.2, ad.1, ad.2⟩

/-- The interpolation in `NUM_Q`. -/
theorem interp_evalQ {raw out0 out1 p0 p1 : Int} {scale : Decimal} :
    evalQ (interp2 raw out0 out1 p0 p1 scale) =
      ((raw : Rat) - out0) * (((p1 : Rat) - p0) / scaleValue scale) / ((out1 : Rat) - out0) + p0 / scaleValue scale := by
  simp only [interp2, evalQ, scaleValue]; push_cast; rfl

/-- Where the Celsius reading lies. -/
theorem temp_value (lo hi : Byte) :
    b64Finite (evalB64 (ptTempC lo hi)) = true ∧ -95 ≤ b64Value (evalB64 (ptTempC lo hi)) ∧ b64Value (evalB64 (ptTempC lo hi)) ≤ 43 := by
  have hlo := lo.isLt
  have hhi := hi.isLt
  obtain ⟨f1, v1⟩ := b64OfInt_value (z := ptTempInt lo hi) (by simp only [ptTempInt, mul8]; omega)
  have l := lit_value (m := 4800) (s := 1) (z := 480) (j := 0) (by norm_num) (by norm_num) (by norm_num) (by norm_num [abs_le])
  have l2 := lit_value (m := 425) (s := 1) (z := 85) (j := -1) (by norm_num) (by norm_num) (by norm_num) (by norm_num [abs_le])
  have e1 : evalQ (.lit ⟨4800, 1⟩) = 480 := by simp only [evalQ]; norm_num
  have e2 : evalQ (.lit ⟨425, 1⟩) = 85/2 := by simp only [evalQ]; norm_num
  rw [e1] at l; rw [e2] at l2
  have b1 : (-65536:Rat) ≤ ptTempInt lo hi := by
    have : -65536 ≤ ptTempInt lo hi := by simp only [ptTempInt, mul8]; omega
    exact_mod_cast this
  have b2 : (ptTempInt lo hi : Rat) ≤ -256 := by
    have : ptTempInt lo hi ≤ -256 := by simp only [ptTempInt, mul8]; omega
    exact_mod_cast this
  have d := b64Div_value f1 l.1 (by rw [l.2]; norm_num) (by
    rw [v1, l.2, abs_le]; constructor <;> linarith)
  rw [v1, l.2] at d
  have g1 : ((-137 : Int):Rat) ≤ rnd ((ptTempInt lo hi : Rat) / 480) := int_le_rnd (by norm_num) (by push_cast; linarith)
  have g2 : rnd ((ptTempInt lo hi : Rat) / 480) ≤ ((0 : Int):Rat) := rnd_le_int (by norm_num) (by push_cast; linarith)
  push_cast at g1 g2
  have a := b64Add_value l2.1 d.1 (by rw [l2.2, d.2, abs_le]; constructor <;> linarith)
  rw [l2.2, d.2] at a
  refine ⟨a.1, ?_, ?_⟩
  · have := int_le_rnd (z := -95) (q := 85/2 + rnd ((ptTempInt lo hi : Rat) / 480)) (by norm_num) (by push_cast; linarith)
    have h3 := a.2
    show _ ≤ b64Value (b64Add (evalB64 (.lit ⟨425, 1⟩)) (b64Div (b64OfInt (ptTempInt lo hi)) (evalB64 (.lit ⟨4800,1⟩))))
    rw [h3]; exact_mod_cast this
  · have := rnd_le_int (z := 43) (q := 85/2 + rnd ((ptTempInt lo hi : Rat) / 480)) (by norm_num) (by push_cast; linarith)
    have h3 := a.2
    show b64Value (b64Add (evalB64 (.lit ⟨425, 1⟩)) (b64Div (b64OfInt (ptTempInt lo hi)) (evalB64 (.lit ⟨4800,1⟩)))) ≤ _
    rw [h3]; exact_mod_cast this

/-- A Fahrenheit conversion is finite, and where it lies. -/
theorem c2f_value {c : FExpr} (hf : b64Finite (evalB64 c) = true) (h1 : -1000 ≤ b64Value (evalB64 c)) (h2 : b64Value (evalB64 c) ≤ 1000) :
    b64Finite (evalB64 (c2f c)) = true ∧ (-95 ≤ b64Value (evalB64 c) → -158 ≤ b64Value (evalB64 (c2f c))) := by
  have hb : |((18:Int):Rat) / ((10 ^ 1 : Nat) : Rat)| ≤ 2 ^ 200 := by norm_num [abs_le]
  have lv := b64OfRat_value hb
  rw [← b64OfDecimal_eq] at lv
  have l : b64Finite (evalB64 lit1p8) = true ∧ 1 ≤ b64Value (evalB64 lit1p8) ∧ b64Value (evalB64 lit1p8) ≤ 2 := by
    refine ⟨lv.1, ?_, ?_⟩
    · show _ ≤ b64Value (b64OfDecimal 18 1)
      rw [lv.2]; have := int_le_rnd (z := 1) (q := ((18:Int):Rat) / ((10 ^ 1 : Nat) : Rat)) (by norm_num) (by norm_num)
      exact_mod_cast this
    · show b64Value (b64OfDecimal 18 1) ≤ _
      rw [lv.2]; have := rnd_le_int (z := 2) (q := ((18:Int):Rat) / ((10 ^ 1 : Nat) : Rat)) (by norm_num) (by norm_num)
      exact_mod_cast this
  have l32 := lit_value (m := 32) (s := 0) (z := 32) (j := 0) (by norm_num) (by norm_num) (by norm_num) (by norm_num [abs_le])
  have e2 : evalQ (.lit ⟨32, 0⟩) = 32 := by simp only [evalQ]; norm_num
  rw [e2] at l32
  obtain ⟨lf, l1, l2⟩ := l
  have q1 : -2000 ≤ b64Value (evalB64 c) * b64Value (evalB64 lit1p8) := by nlinarith
  have q2 : b64Value (evalB64 c) * b64Value (evalB64 lit1p8) ≤ 2000 := by nlinarith
  have m := b64Mul_value hf lf (by rw [abs_le]; constructor <;> linarith)
  have g1 := int_le_rnd (z := -2000) (by norm_num) (by push_cast; exact q1)
  have g2 := rnd_le_int (z := 2000) (by norm_num) (by push_cast; exact q2)
  push_cast at g1 g2
  have a := b64Add_value m.1 l32.1 (by rw [m.2, l32.2, abs_le]; constructor <;> linarith)
  refine ⟨a.1, fun h => ?_⟩
  have q3 : -190 ≤ b64Value (evalB64 c) * b64Value (evalB64 lit1p8) := by nlinarith
  have g3 := int_le_rnd (z := -190) (by norm_num) (by push_cast; exact q3)
  have h4 := a.2
  rw [m.2, l32.2] at h4
  show _ ≤ b64Value (b64Add (b64Mul (evalB64 c) (evalB64 lit1p8)) (evalB64 (.lit ⟨32, 0⟩)))
  rw [h4]
  push_cast at g3
  have := int_le_rnd (z := -158) (q := rnd (b64Value (evalB64 c) * b64Value (evalB64 lit1p8)) + 32) (by norm_num) (by push_cast; linarith)
  exact_mod_cast this

/-- The pressure reading is finite. -/
theorem press_finite (lo mid hi : Byte) : b64Finite (evalB64 (ptPressMbar lo mid hi)) = true := by
  have hlo := lo.isLt
  have hmid := mid.isLt
  have hhi := hi.isLt
  have l := lit_value (m := 40960) (s := 1) (z := 1) (j := 12) (by norm_num) (by norm_num) (by norm_num) (by norm_num [abs_le])
  have l2 : evalQ (.lit ⟨40960, 1⟩) = 4096 := by simp only [evalQ]; norm_num
  rw [l2] at l
  have hz : (ptPressInt lo mid hi).natAbs ≤ 2 ^ 53 := by simp only [ptPressInt, mul8, mul16]; omega
  obtain ⟨f1, v1⟩ := b64OfInt_value hz
  have hb : |(ptPressInt lo mid hi : Rat)| ≤ 2 ^ 53 := by
    have : ((ptPressInt lo mid hi).natAbs : Rat) ≤ 2 ^ 53 := by exact_mod_cast hz
    rwa [Nat.cast_natAbs, Int.cast_abs] at this
  refine (b64Div_value f1 l.1 (by rw [l.2]; norm_num) ?_).1
  rw [v1, l.2, abs_div]
  exact (div_le_self (abs_nonneg _) (by norm_num)).trans (abs_le_big (by norm_num) hb)

end Sys2Proof.Machine
end

