-- ==== Sys2Proof/Laws/PerInstr.lean ====
section
/-! SUPPORT. What holds of the command word of every instruction, one lemma per constructor. -/

namespace Sys2Proof.Laws.Code

/-- The word of `i` has `Z` = 0 (30_encoding.md rule R70) and is the word of no other instruction (rule R72). -/
def Statement (i : Instr) : Prop := wordZ (encode i) = 0 ∧ ∀ j : Instr, encode j = encode i → j = i

/-- Both parts of the statement can be checked over the thirteen instructions. -/
theorem of_check {i : Instr} (hz : wordZ (encode i) = 0)
    (h : ([.ptInit, .ptIdent, .ptRdtc, .ptRdtf, .ptRdpm, .htInit, .htPdown, .htAct, .htSetbdu false, .htSetbdu true,
      .htCal, .htRdh, .htRdtc].all fun j => decide (encode j = encode i → j = i)) = true) : Statement i := by
  refine ⟨hz, fun j => ?_⟩
  have hm : j ∈ [.ptInit, .ptIdent, .ptRdtc, .ptRdtf, .ptRdpm, .htInit, .htPdown, .htAct, .htSetbdu false,
      .htSetbdu true, .htCal, .htRdh, .htRdtc] := by
    cases j with
    | htSetbdu a => cases a <;> decide
    | _ => decide
  exact of_decide_eq_true (List.all_eq_true.1 h j hm)

theorem ptInit : Statement .ptInit := of_check (by decide) (by decide)

theorem ptIdent : Statement .ptIdent := of_check (by decide) (by decide)

theorem ptRdtc : Statement .ptRdtc := of_check (by decide) (by decide)

theorem ptRdtf : Statement .ptRdtf := of_check (by decide) (by decide)

theorem ptRdpm : Statement .ptRdpm := of_check (by decide) (by decide)

theorem htInit : Statement .htInit := of_check (by decide) (by decide)

theorem htPdown : Statement .htPdown := of_check (by decide) (by decide)

theorem htAct : Statement .htAct := of_check (by decide) (by decide)

theorem htSetbdu (a : Bool) : Statement (.htSetbdu a) := by
  cases a <;> exact of_check (by decide) (by decide)

theorem htCal : Statement .htCal := of_check (by decide) (by decide)

theorem htRdh : Statement .htRdh := of_check (by decide) (by decide)

theorem htRdtc : Statement .htRdtc := of_check (by decide) (by decide)

end Sys2Proof.Laws.Code
end

