-- ==== Sys2Proof/Laws/Reads.lean ====
section
/-! SUPPORT. The sequences that read a sample: the PT readings and one turn of the HT poll. For each, as for the bus
operations: its result by the script the environment plays, and that one of those scripts is always played. -/

namespace Sys2Proof.Machine

theorem plays_cons_eq (s : State) (e : Event) (es : List Event) :
    s.plays (e :: es) = (s.plays [e] && (s.afterScript [e]).plays es) := plays_append s [e] es

@[simp] theorem raise_setLock (b : Bool) (st : Status) (s : State) : (s.setLock b).raise st = s.raise st := rfl

/-! ## PT readings -/

theorem ptTempReading_not_ready {s : State} {st : Byte} (hl : s.lock = false) (hst : st.getLsbD 0 = false)
    (h : s.plays [readOk false 0x5D 0x27 st] = true) :
    ptTempReading s = .ok (.notReady, sentinelC) (s.afterScript [readOk false 0x5D 0x27 st]) := by
  rw [← hl] at h ⊢
  rw [ptTempReading, busRead_of_plays (by exact h), Reply.andThen_ok, tempReady, hst, if_neg (by decide)]
  rfl

theorem ptTempReading_ready {s : State} {st lo hi : Byte} (hl : s.lock = false) (hst : st.getLsbD 0 = true)
    (h : s.plays [readOk false 0x5D 0x27 st, readOk true 0x5D 0x2B lo, readOk true 0x5D 0x2C hi] = true) :
    ptTempReading s = .ok (.ok, ptTempC lo hi)
      (s.afterScript [readOk false 0x5D 0x27 st, readOk true 0x5D 0x2B lo, readOk true 0x5D 0x2C hi]) := by
  rw [plays_cons_eq, Bool.and_eq_true, ← hl] at h
  rw [ptTempReading, busRead_of_plays (by exact h.1), Reply.andThen_ok, tempReady, hst, if_pos rfl,
    fetch2_of_plays (by exact h.2), Reply.andThen_ok, setLock_self (by exact hl), afterScript_afterScript, hl]
  rfl

theorem ptTempReading_failed {s : State} {st lo hi : Byte} {k : Nat} (hl : s.lock = false) (hk : k < 3)
    (hst : 0 < k → st.getLsbD 0 = true)
    (h : s.plays (failAt [readOk false 0x5D 0x27 st, readOk true 0x5D 0x2B lo, readOk true 0x5D 0x2C hi] k) = true) :
    ∃ b, ptTempReading s = .err ((s.afterScript
      (failAt [readOk false 0x5D 0x27 st, readOk true 0x5D 0x2B lo, readOk true 0x5D 0x2C hi] k)).setLock b) := by
  rw [← hl] at h ⊢
  cases k with
  | zero =>
    rw [failAt_cons_zero] at h ⊢
    exact ⟨s.lock, by rw [ptTempReading, busRead_of_plays_failed (by exact h), Reply.andThen_err, setLock_self (by simp)]; rfl⟩
  | succ k =>
    rw [failAt_cons_succ] at h ⊢
    rw [plays_cons_eq, Bool.and_eq_true] at h
    refine ⟨true, ?_⟩
    rw [ptTempReading, busRead_of_plays (by exact h.1), Reply.andThen_ok, tempReady, hst (by omega), if_pos rfl,
      fetch2_of_plays_failed (show k < 2 by omega) (by exact h.2), Reply.andThen_err, afterScript_afterScript]
    rfl

theorem ptTempReading_cases {s : State} (hl : s.lock = false) :
    (∃ st, st.getLsbD 0 = false ∧ s.plays [readOk false 0x5D 0x27 st] = true) ∨
    (∃ st lo hi, st.getLsbD 0 = true ∧
      s.plays [readOk false 0x5D 0x27 st, readOk true 0x5D 0x2B lo, readOk true 0x5D 0x2C hi] = true) ∨
    (∃ st lo hi k, k < 3 ∧ (0 < k → st.getLsbD 0 = true) ∧
      s.plays (failAt [readOk false 0x5D 0x27 st, readOk true 0x5D 0x2B lo, readOk true 0x5D 0x2C hi] k) = true) := by
  rcases busRead_cases 0x5D 0x27 s with ⟨st, h, -⟩ | ⟨h, -⟩ <;> rw [hl] at h
  · cases hst : st.getLsbD 0 with
    | false => exact .inl ⟨st, hst, h⟩
    | true =>
      rcases fetch2_cases 0x5D 0x2B 0x2C (s.afterScript [readOk false 0x5D 0x27 st]) with ⟨lo, hi, h2⟩ | ⟨lo, hi, k, hk, h2⟩
      · exact .inr (.inl ⟨st, lo, hi, hst, by rw [plays_cons_eq, h, h2]; rfl⟩)
      · exact .inr (.inr ⟨st, lo, hi, k + 1, by omega, fun _ => hst, by rw [failAt_cons_succ, plays_cons_eq, h, h2]; rfl⟩)
  · exact .inr (.inr ⟨0, 0, 0, 0, by omega, by simp, by rw [failAt_cons_zero]; exact h⟩)

theorem ptPressReading_not_ready {s : State} {st : Byte} (hl : s.lock = false) (hst : st.getLsbD 1 = false)
    (h : s.plays [readOk false 0x5D 0x27 st] = true) :
    ptPressReading s = .ok (.notReady, sentinelMbar) (s.afterScript [readOk false 0x5D 0x27 st]) := by
  rw [← hl] at h ⊢
  rw [ptPressReading, busRead_of_plays (by exact h), Reply.andThen_ok, pressReady, hst, if_neg (by decide)]
  rfl

theorem ptPressReading_ready {s : State} {st lo mid hi : Byte} (hl : s.lock = false) (hst : st.getLsbD 1 = true)
    (h : s.plays [readOk false 0x5D 0x27 st, readOk true 0x5D 0x28 lo, readOk true 0x5D 0x29 mid,
      readOk true 0x5D 0x2A hi] = true) :
    ptPressReading s = .ok (.ok, ptPressMbar lo mid hi) (s.afterScript
      [readOk false 0x5D 0x27 st, readOk true 0x5D 0x28 lo, readOk true 0x5D 0x29 mid, readOk true 0x5D 0x2A hi]) := by
  rw [plays_cons_eq, Bool.and_eq_true, ← hl] at h
  rw [ptPressReading, busRead_of_plays (by exact h.1), Reply.andThen_ok, pressReady, hst, if_pos rfl,
    fetch3_of_plays (by exact h.2), Reply.andThen_ok, setLock_self (by exact hl), afterScript_afterScript, hl]
  rfl

theorem ptPressReading_failed {s : State} {st lo mid hi : Byte} {k : Nat} (hl : s.lock = false) (hk : k < 4)
    (hst : 0 < k → st.getLsbD 1 = true)
    (h : s.plays (failAt [readOk false 0x5D 0x27 st, readOk true 0x5D 0x28 lo, readOk true 0x5D 0x29 mid,
      readOk true 0x5D 0x2A hi] k) = true) :
    ∃ b, ptPressReading s = .err ((s.afterScript (failAt [readOk false 0x5D 0x27 st, readOk true 0x5D 0x28 lo,
      readOk true 0x5D 0x29 mid, readOk true 0x5D 0x2A hi] k)).setLock b) := by
  rw [← hl] at h ⊢
  cases k with
  | zero =>
    rw [failAt_cons_zero] at h ⊢
    exact ⟨s.lock, by rw [ptPressReading, busRead_of_plays_failed (by exact h), Reply.andThen_err, setLock_self (by simp)]; rfl⟩
  | succ k =>
    rw [failAt_cons_succ] at h ⊢
    rw [plays_cons_eq, Bool.and_eq_true] at h
    refine ⟨true, ?_⟩
    rw [ptPressReading, busRead_of_plays (by exact h.1), Reply.andThen_ok, pressReady, hst (by omega), if_pos rfl,
      fetch3_of_plays_failed (show k < 3 by omega) (by exact h.2), Reply.andThen_err, afterScript_afterScript]
    rfl

theorem ptPressReading_cases {s : State} (hl : s.lock = false) :
    (∃ st, st.getLsbD 1 = false ∧ s.plays [readOk false 0x5D 0x27 st] = true) ∨
    (∃ st lo mid hi, st.getLsbD 1 = true ∧ s.plays [readOk false 0x5D 0x27 st, readOk true 0x5D 0x28 lo,
      readOk true 0x5D 0x29 mid, readOk true 0x5D 0x2A hi] = true) ∨
    (∃ st lo mid hi k, k < 4 ∧ (0 < k → st.getLsbD 1 = true) ∧
      s.plays (failAt [readOk false 0x5D 0x27 st, readOk true 0x5D 0x28 lo, readOk true 0x5D 0x29 mid,
        readOk true 0x5D 0x2A hi] k) = true) := by
  rcases busRead_cases 0x5D 0x27 s with ⟨st, h, -⟩ | ⟨h, -⟩ <;> rw [hl] at h
  · cases hst : st.getLsbD 1 with
    | false => exact .inl ⟨st, hst, h⟩
    | true =>
      rcases fetch3_cases 0x5D 0x28 0x29 0x2A (s.afterScript [readOk false 0x5D 0x27 st]) with
        ⟨lo, mid, hi, h2⟩ | ⟨lo, mid, hi, k, hk, h2⟩
      · exact .inr (.inl ⟨st, lo, mid, hi, hst, by rw [plays_cons_eq, h, h2]; rfl⟩)
      · exact .inr (.inr ⟨st, lo, mid, hi, k + 1, by omega, fun _ => hst,
          by rw [failAt_cons_succ, plays_cons_eq, h, h2]; rfl⟩)
  · exact .inr (.inr ⟨0, 0, 0, 0, 0, by omega, by simp, by rw [failAt_cons_zero]; exact h⟩)

/-! ## The HT poll -/

theorem getLsbD_readyBit (ch : Channel) (st : Byte) : st.getLsbD (readyBit ch) = channelReady ch st := by
  cases ch <;> rfl

theorem pollExhausted_iff (s : State) : pollExhausted s = true ↔ s.params.pollLimit = .reads s.pollCnt := by
  unfold pollExhausted
  cases s.params.pollLimit <;> simp; exact eq_comm

theorem pollTurn_exhausted {ch : Channel} {s : State} (h : s.params.pollLimit = .reads s.pollCnt) :
    pollTurn ch s = .next (s.raise .timeout) := by
  rw [pollTurn, if_pos ((pollExhausted_iff s).2 h)]

theorem pollTurn_not_ready {ch : Channel} {s : State} {st : Byte} (hl : s.lock = false)
    (hp : s.params.pollLimit ≠ .reads s.pollCnt) (hst : channelReady ch st = false)
    (h : s.plays [readOk false 0x5F 0x27 st] = true) :
    pollTurn ch s = .next ((s.afterScript [readOk false 0x5F 0x27 st]).setPollCnt (s.pollCnt + 1)) := by
  rw [← hl] at h ⊢
  rw [pollTurn, if_neg (mt (pollExhausted_iff s).1 hp), busRead_of_plays (by exact h)]
  simp only [hst]
  rfl

theorem pollTurn_ready {ch : Channel} {s : State} {st lo hi : Byte} (hl : s.lock = false)
    (hp : s.params.pollLimit ≠ .reads s.pollCnt) (hst : channelReady ch st = true)
    (h : s.plays (readOk false 0x5F 0x27 st :: sampleScript ch lo hi) = true) :
    pollTurn ch s = convertSample ch (compose16 lo hi)
      ((s.afterScript (readOk false 0x5F 0x27 st :: sampleScript ch lo hi)).setPollCnt (s.pollCnt + 1)) := by
  rw [plays_cons_eq, Bool.and_eq_true, ← hl] at h
  rw [pollTurn, if_neg (mt (pollExhausted_iff s).1 hp), busRead_of_plays (by exact h.1)]
  simp only [hst, if_true]
  rw [fetchSample, fetch2_of_plays (b0 := lo) (b1 := hi) (by cases ch <;> exact h.2), hl]
  cases ch <;> simp [hl, State.setPollCnt, State.afterScript, State.setLock, channelLo, channelHi,
    sampleScript, sampleReg, htHLo, htHHi, htTLo, htTHi, htDev, regStatus]

theorem pollTurn_failed {ch : Channel} {s : State} {st lo hi : Byte} {k : Nat} (hl : s.lock = false)
    (hp : s.params.pollLimit ≠ .reads s.pollCnt) (hk : k < 3) (hst : 0 < k → channelReady ch st = true)
    (h : s.plays (failAt (readOk false 0x5F 0x27 st :: sampleScript ch lo hi) k) = true) :
    pollTurn ch s = .next (((s.afterScript (failAt (readOk false 0x5F 0x27 st :: sampleScript ch lo hi) k)).setPollCnt
      (if k = 0 then s.pollCnt else s.pollCnt + 1)).raise .transportErr) := by
  rw [← hl] at h ⊢
  cases k with
  | zero =>
    rw [failAt_cons_zero] at h ⊢
    rw [pollTurn, if_neg (mt (pollExhausted_iff s).1 hp), busRead_of_plays_failed (by exact h)]
    rfl
  | succ k =>
    rw [failAt_cons_succ] at h ⊢
    rw [plays_cons_eq, Bool.and_eq_true] at h
    rw [pollTurn, if_neg (mt (pollExhausted_iff s).1 hp), busRead_of_plays (by exact h.1)]
    simp only [hst (by omega), if_true]
    rw [fetchSample, fetch2_of_plays_failed (b0 := lo) (b1 := hi) (show k < 2 by omega) (by cases ch <;> exact h.2)]
    cases ch <;> simp [State.raise, State.finish, State.setPollCnt, State.afterScript, State.setLock, channelLo, channelHi,
      sampleScript, sampleReg, htHLo, htHHi, htTLo, htTHi, htDev, regStatus]

theorem pollTurn_cases (ch : Channel) {s : State} (hl : s.lock = false) :
    (∃ st, channelReady ch st = false ∧ s.plays [readOk false 0x5F 0x27 st] = true) ∨
    (∃ st lo hi, channelReady ch st = true ∧ s.plays (readOk false 0x5F 0x27 st :: sampleScript ch lo hi) = true) ∨
    (∃ st lo hi k, k < 3 ∧ (0 < k → channelReady ch st = true) ∧
      s.plays (failAt (readOk false 0x5F 0x27 st :: sampleScript ch lo hi) k) = true) := by
  rcases busRead_cases 0x5F 0x27 s with ⟨st, h, -⟩ | ⟨h, -⟩ <;> rw [hl] at h
  · cases hst : channelReady ch st with
    | false => exact .inl ⟨st, hst, h⟩
    | true =>
      rcases fetch2_cases 0x5F (sampleReg ch) (sampleReg ch + 1) (s.afterScript [readOk false 0x5F 0x27 st]) with
        ⟨lo, hi, h2⟩ | ⟨lo, hi, k, hk, h2⟩
      · exact .inr (.inl ⟨st, lo, hi, hst, by rw [plays_cons_eq, h, sampleScript, h2]; rfl⟩)
      · exact .inr (.inr ⟨st, lo, hi, k + 1, by omega, fun _ => hst,
          by rw [failAt_cons_succ, plays_cons_eq, h, sampleScript, h2]; rfl⟩)
  · exact .inr (.inr ⟨0, 0, 0, 0, by omega, by simp, by rw [failAt_cons_zero]; exact h⟩)

/-- A full `CAL` gives either channel its four codes. -/
theorem channelCal_of_full {c : Cal} (h : c.isFull = true) (ch : Channel) : ∃ k, channelCal ch c = some k := by
  simp only [Cal.isFull, Bool.and_eq_true, Option.isSome_iff_exists] at h
  obtain ⟨⟨⟨⟨⟨⟨⟨⟨_, h1⟩, ⟨_, h2⟩⟩, ⟨_, h3⟩⟩, ⟨_, h4⟩⟩, ⟨_, h5⟩⟩, ⟨_, h6⟩⟩, ⟨_, h7⟩⟩, ⟨_, h8⟩⟩ := h
  cases ch
  · exact ⟨_, by rw [channelCal, h5, h6, h1, h2]⟩
  · exact ⟨_, by rw [channelCal, h7, h8, h3, h4]⟩

theorem convertSample_of_cal {ch : Channel} {raw : Code16} {s : State} {k : ChannelCal} (h : channelCal ch s.cal = some k) :
    convertSample ch raw s =
      .next (if k.span = 0 then s.raise .calErr else s.deliver .ok (interpChannel ch k raw)) := by
  rw [convertSample, h]

end Sys2Proof.Machine
end

