-- ==== Sys2Proof/Laws/Run.lean ====
section
/-! SUPPORT. Runs of several steps: how a run continues, and the run of a status poll. -/

namespace Sys2Proof.Machine

theorem run_succ_of (M : Host.Core) {s t : M.State} (h : M.step s = .next t) (k : Nat) : M.run (k + 1) s = M.run k t := by
  simp only [Host.Core.run, h]

theorem run_succ_congr (M : Host.Core) {s t : M.State} (h : M.step s = M.step t) (k : Nat) :
    M.run (k + 1) s = M.run (k + 1) t := by
  simp only [Host.Core.run, h]

theorem run_succ {s t : State} (h : step s = .next t) (k : Nat) :
    Sys2Proof.core.run (k + 1) s = Sys2Proof.core.run k t := run_succ_of Sys2Proof.core h k

theorem run_congr {s t : State} (h : step s = step t) (k : Nat) :
    Sys2Proof.core.run (k + 1) s = Sys2Proof.core.run (k + 1) t := run_succ_congr Sys2Proof.core h k

/-- A step of a polling block is one turn of the poll. -/
theorem step_polling {ch : Channel} {s : State} (h : s.Polling ch) : step s = pollTurn ch s := by
  rw [step, if_pos h.1, resumePoll, h.2.2]
  cases ch <;> rfl

/-- A read command taken by an idle, active block begins its poll with the count 0. -/
theorem step_read_command {ch : Channel} {s : State} {w : Byte} {rest : List Byte} (hs : s.Idle)
    (ha : s.htState = .active) (hc : s.cmd = w :: rest) (hd : decode w = some (channelInstr ch)) :
    step s = pollTurn ch (((s.setCmd rest).accept (channelInstr ch)).setPollCnt 0) := by
  rw [step, hs.1, if_neg (by decide), fetchCommand, hc]
  simp only [hd]
  cases ch
  · simp only [channelInstr]
    rw [exec, execHtRdh, startCommand_idle (by exact hs.1), requireActive_active (by exact ha)]
  · simp only [channelInstr]
    rw [exec, execHtRdtc, startCommand_idle (by exact hs.1), requireActive_active (by exact ha)]

/-- The turns of a poll whose status reads lack the bit and stay within the limit. -/
theorem run_statusScript (ch : Channel) (k : Nat) : ∀ (sts : List Byte) (s : State), s.Polling ch →
    (∀ n, s.params.pollLimit = .reads n → s.pollCnt + sts.length ≤ n) →
    (∀ b ∈ sts, channelReady ch b = false) → s.plays (statusScript sts) = true →
    Sys2Proof.core.run (sts.length + k) s =
      Sys2Proof.core.run k ((s.afterScript (statusScript sts)).setPollCnt (s.pollCnt + sts.length))
  | [], s, _, _, _, _ => by
    rw [statusScript, List.map_nil, afterScript_nil, List.length_nil, Nat.zero_add, Nat.add_zero]
    rfl
  | st :: sts, s, hs, hn, hst, h => by
    simp only [statusScript, List.map_cons] at h
    rw [plays_cons_eq, Bool.and_eq_true] at h
    have e := (step_polling hs).trans (pollTurn_not_ready hs.2.1
      (fun hp => by have := hn _ hp; simp at this) (hst st (by simp)) h.1)
    have ih := run_statusScript ch k sts ((s.afterScript [readOk false 0x5F 0x27 st]).setPollCnt (s.pollCnt + 1)) hs
      (fun n hp => by have := hn n hp; simp at this ⊢; omega) (fun b hb => hst b (by simp [hb])) h.2
    rw [show (st :: sts).length + k = (sts.length + k) + 1 by simp; omega]
    refine (run_succ e _).trans (ih.trans (congrArg (Sys2Proof.core.run k) ?_))
    simp [statusScript, State.afterScript, State.setPollCnt, Nat.add_assoc, Nat.add_comm 1]
    rfl

end Sys2Proof.Machine
end

