-- ==== Sys2Proof/Laws/Trace.lean ====
section
/-! SUPPORT. What every sequence of transactions does to the state, whatever the environment answers: it extends the history,
takes one answer for each transaction, moves LOCK, and changes nothing else; only its last transaction can be an error. -/

namespace Sys2Proof.Machine

/-- `r`, begun in `s`, makes at most `n` transactions, each with the property `P`; where it succeeds none is an error and
LOCK has the property `L` after it, and where it fails the last one, and no other, is an error. -/
def Reply.Does {α : Type} (r : Reply α) (s : State) (P : Event → Prop) (n : Nat) (L : Bool → Prop) : Prop :=
  match r with
  | .ok _ t => ∃ (es : List Event) (b : Bool), es.length ≤ n ∧ (∀ e ∈ es, P e ∧ e.answer ≠ .error) ∧ L b ∧
      t = (s.afterScript es).setLock b
  | .err t => ∃ (es : List Event) (e : Event) (b : Bool), es.length + 1 ≤ n ∧ (∀ e ∈ es, P e ∧ e.answer ≠ .error) ∧
      P e ∧ e.answer = .error ∧ t = (s.afterScript (es ++ [e])).setLock b

theorem does_ok {α : Type} {P : Event → Prop} {L : Bool → Prop} (a : α) (s : State) (h : L s.lock) :
    (Reply.ok a s).Does s P 0 L :=
  ⟨[], s.lock, by simp, by simp, h, by rw [afterScript_nil, setLock_self rfl]⟩

theorem does_ok_setLock {α : Type} {P : Event → Prop} {L : Bool → Prop} (a : α) (s : State) {l : Bool} (h : L l) :
    (Reply.ok a (s.setLock l)).Does s P 0 L :=
  ⟨[], l, by simp, by simp, h, by rw [afterScript_nil]⟩

/-- A sequence begun after LOCK is set is one begun before it. -/
theorem does_of_setLock {α : Type} {r : Reply α} {s : State} {P : Event → Prop} {n : Nat} {L : Bool → Prop} {b : Bool}
    (h : r.Does (s.setLock b) P n L) : r.Does s P n L := by
  cases r <;> exact h

theorem does_andThen {α β : Type} {r : Reply α} {k : α → State → Reply β} {s : State} {P : Event → Prop} {n m : Nat}
    {L L' : Bool → Prop} (h : r.Does s P n L)
    (hk : ∀ a t, L t.lock → t.params = s.params → (k a t).Does t P m L') : (r.andThen k).Does s P (n + m) L' := by
  cases r with
  | ok a t =>
    obtain ⟨es, l, hn, he, hl, rfl⟩ := h
    have hk := hk a ((s.afterScript es).setLock l) hl rfl
    rw [Reply.andThen_ok]
    cases hr : k a ((s.afterScript es).setLock l) with
    | ok b u =>
      rw [hr] at hk
      obtain ⟨fs, l', hm, hf, hl', rfl⟩ := hk
      refine ⟨es ++ fs, l', by rw [List.length_append]; omega, fun e h => ?_, hl', ?_⟩
      · exact (List.mem_append.1 h).elim (he e) (hf e)
      · rw [afterScript_setLock, setLock_setLock, afterScript_afterScript]
    | err u =>
      rw [hr] at hk
      obtain ⟨fs, e, b, hm, hf, hP, hE, rfl⟩ := hk
      refine ⟨es ++ fs, e, b, by rw [List.length_append]; omega, fun e h => ?_, hP, hE, ?_⟩
      · exact (List.mem_append.1 h).elim (he e) (hf e)
      · rw [afterScript_setLock, setLock_setLock, afterScript_afterScript, List.append_assoc]
  | err t =>
    obtain ⟨es, e, b, hn, he, hP, hE, rfl⟩ := h
    exact ⟨es, e, b, by omega, he, hP, hE, rfl⟩

theorem does_mono {α : Type} {r : Reply α} {s : State} {P : Event → Prop} {n m : Nat} {L L' : Bool → Prop}
    (h : r.Does s P n L) (hL : ∀ b, L b → L' b) (hn : n ≤ m) : r.Does s P m L' := by
  cases r with
  | ok a t =>
    obtain ⟨es, b, h1, he, hb, h2⟩ := h
    exact ⟨es, b, by omega, he, hL b hb, h2⟩
  | err t =>
    obtain ⟨es, e, b, h1, h2⟩ := h
    exact ⟨es, e, b, by omega, h2⟩

theorem busRead_does {dev reg : Byte} {s : State} {P : Event → Prop}
    (hP : ∀ a : Answer, P ⟨s.lock, .read dev reg, a⟩) : (busRead dev reg s).Does s P 1 (· = s.lock) := by
  rcases busRead_cases dev reg s with ⟨b, -, h⟩ | ⟨-, h⟩ <;> rw [h]
  · exact ⟨[readOk s.lock dev reg b], s.lock, by simp, by simpa [readOk] using hP _, rfl, (setLock_self (by simp)).symm⟩
  · exact ⟨[], failEvent (readOk s.lock dev reg 0), s.lock, by simp, by simp, hP _, rfl, (setLock_self (by simp)).symm⟩

theorem busWrite_does {dev reg v : Byte} {s : State} {P : Event → Prop}
    (hP : ∀ a : Answer, P ⟨s.lock, .write dev reg v, a⟩) : (busWrite dev reg v s).Does s P 1 (· = s.lock) := by
  rcases busWrite_cases dev reg v s with ⟨b, -, h⟩ | ⟨-, h⟩ <;> rw [h]
  · exact ⟨[writeOk s.lock dev reg v b], s.lock, by simp, by simpa [writeOk] using hP _, rfl, (setLock_self (by simp)).symm⟩
  · exact ⟨[], failEvent (writeOk s.lock dev reg v 0), s.lock, by simp, by simp, hP _, rfl, (setLock_self (by simp)).symm⟩

theorem rmw_does {dev reg setm clrm : Byte} {s : State} {P : Event → Prop}
    (hr : ∀ a : Answer, P ⟨true, .read dev reg, a⟩) (hw : ∀ (v : Byte) (a : Answer), P ⟨true, .write dev reg v, a⟩) :
    (rmw dev reg setm clrm s).Does s P 2 (· = false) :=
  does_andThen (n := 1) (m := 1) (does_of_setLock (busRead_does hr)) fun _ t hl _ =>
    does_andThen (busWrite_does (by rw [hl]; exact hw _)) fun _ t _ _ => does_ok_setLock (L := (· = false)) _ t rfl

theorem fetch2_does {dev r0 r1 : Byte} {s : State} {P : Event → Prop}
    (h0 : ∀ a : Answer, P ⟨true, .read dev r0, a⟩) (h1 : ∀ a : Answer, P ⟨true, .read dev r1, a⟩) :
    (fetch2 dev r0 r1 s).Does s P 2 (· = false) :=
  does_andThen (n := 1) (m := 1) (does_of_setLock (busRead_does h0)) fun _ t hl _ =>
    does_andThen (busRead_does (by rw [hl]; exact h1)) fun _ t _ _ => does_ok_setLock (L := (· = false)) _ t rfl

theorem fetch3_does {dev r0 r1 r2 : Byte} {s : State} {P : Event → Prop}
    (h0 : ∀ a : Answer, P ⟨true, .read dev r0, a⟩) (h1 : ∀ a : Answer, P ⟨true, .read dev r1, a⟩)
    (h2 : ∀ a : Answer, P ⟨true, .read dev r2, a⟩) :
    (fetch3 dev r0 r1 r2 s).Does s P 3 (· = false) :=
  does_andThen (n := 1) (m := 2) (does_of_setLock (busRead_does h0)) fun _ t hl _ =>
    does_andThen (busRead_does (by rw [hl]; exact h1)) fun _ t hl' _ =>
      does_andThen (busRead_does (by rw [hl', hl]; exact h2)) fun _ t _ _ => does_ok_setLock (L := (· = false)) _ t rfl

/-- Each transaction of a sequence begun with LOCK `l` stands in the address map, if `l` is 0 (20_memory.md rules R43, R52). -/
def inMapIf (m : CalMap) (l : Bool) (e : Event) : Prop := l = false → eventInMap m e = true

theorem ptTempReading_does (s : State) :
    (ptTempReading s).Does s (inMapIf s.params.calMap s.lock) 3 (fun b => s.lock = false → b = false) :=
  does_andThen (n := 1) (m := 2) (busRead_does fun _ h => by rw [h]; rfl) fun st t hl _ => by
    split
    · exact does_andThen (n := 2) (m := 0) (fetch2_does (fun _ _ => rfl) (fun _ _ => rfl))
        fun _ u hu _ => does_ok _ u fun _ => hu
    · exact does_mono (does_ok _ t fun h => hl.trans h) (fun _ h => h) (by omega)

theorem ptPressReading_does (s : State) :
    (ptPressReading s).Does s (inMapIf s.params.calMap s.lock) 4 (fun b => s.lock = false → b = false) :=
  does_andThen (n := 1) (m := 3) (busRead_does fun _ h => by rw [h]; rfl) fun st t hl _ => by
    split
    · exact does_andThen (n := 3) (m := 0) (fetch3_does (fun _ _ => rfl) (fun _ _ => rfl) (fun _ _ => rfl))
        fun _ u hu _ => does_ok _ u fun _ => hu
    · exact does_mono (does_ok _ t fun h => hl.trans h) (fun _ h => h) (by omega)

/-- The number of bytes of an item. -/
def itemSize (i : CalItem) : Nat := if calItemPaired i then 2 else 1

theorem readItem_does (i : CalItem) (r : CalBytes) (s : State) {m : CalMap} {l : Bool} (hl : l = false → s.lock = false) :
    (readItem m i r s).Does s (inMapIf m l) (itemSize i) (fun b => l = false → b = false) := by
  rw [readItem, itemSize]
  split
  · rename_i hp
    refine does_andThen (n := 2) (m := 0) (fetch2_does (fun _ _ => ?_) (fun _ _ => ?_)) fun _ u hu _ => does_ok _ u fun _ => hu
    · cases i <;> simp [calItemPaired] at hp <;> simp [eventInMap, htDev, calItemAddr]
    · cases i <;> simp [calItemPaired] at hp <;> simp [eventInMap, htDev, calItemAddr]
  · rename_i hp
    refine does_andThen (n := 1) (m := 0) (busRead_does fun _ h => ?_) fun _ u hu _ => does_ok _ u fun h => hu.trans (hl h)
    rw [hl h]
    cases i <;> simp [calItemPaired] at hp <;> simp [eventInMap, htDev, calItemAddr]

theorem readItems_does (m : CalMap) (l : Bool) : ∀ (is : List CalItem) (r : CalBytes) (s : State),
    (l = false → s.lock = false) →
    (readItems m is r s).Does s (inMapIf m l) (is.map itemSize).sum (fun b => l = false → b = false)
  | [], r, s, hl => does_ok r s hl
  | i :: is, r, s, hl => by
    rw [readItems, List.map_cons, List.sum_cons]
    exact does_andThen (readItem_does i r s hl) fun r t ht _ => readItems_does m l is r t ht

/-- The thirteen reads of HT.CAL, whatever the environment answers. -/
theorem calReads_does (s : State) (l : Bool) (hl : l = false → s.lock = false) :
    (readItems s.params.calMap (calOrder s.params.calMap) noCalBytes s).Does s (inMapIf s.params.calMap l) 13
      (fun b => l = false → b = false) := by
  have h := readItems_does s.params.calMap l (calOrder s.params.calMap) noCalBytes s hl
  rwa [((calOrder_perm s.params.calMap).map itemSize).sum_eq] at h

end Sys2Proof.Machine
end

