-- ==== Sys2Proof/Laws/Transaction.lean ====
section
/-! SUPPORT. The transaction level: runs of it, one law for each line, and for each sequence of bus operations that its lines,
run one by one, end where the sequence ends, or, on a transport error, at the lines that handle the error. -/

namespace Sys2Proof.Machine

/-! ## Runs -/

/-- Some steps of the transaction level lead from one block to another. -/
def Reaches (b c : Block) : Prop := ∃ n, transactionCore.run n b = .next c

theorem run_add (M : Host.Core) {m : Nat} : ∀ {n : Nat} {s t : M.State}, M.run n s = .next t → M.run (n + m) s = M.run m t
  | 0, s, t, h => by
    obtain rfl := Host.Outcome.next.inj h
    rw [Nat.zero_add]
  | n + 1, s, t, h => by
    rw [show n + 1 + m = (n + m) + 1 by omega]
    cases hs : M.step s with
    | next u =>
      rw [run_succ_of M hs] at h ⊢
      exact run_add M h
    | fault r => simp only [Host.Core.run, hs] at h; cases h
    | refused r => simp only [Host.Core.run, hs] at h; cases h

theorem Reaches.refl (b : Block) : Reaches b b := ⟨0, rfl⟩

theorem Reaches.trans {b c d : Block} (h : Reaches b c) (h' : Reaches c d) : Reaches b d := by
  obtain ⟨n, hn⟩ := h
  obtain ⟨m, hm⟩ := h'
  exact ⟨n + m, by rw [run_add _ hn, hm]⟩

theorem Reaches.one {b c : Block} (h : blockStep b = .next c) : Reaches b c :=
  ⟨1, by rw [run_succ_of transactionCore h]; rfl⟩

/-- A block that reaches one that stops with a fault stops with it. -/
theorem Reaches.fault {b c : Block} {r : Fault} (h : Reaches b c) (hf : blockStep c = .fault r) :
    ∃ n, transactionCore.run n b = .fault r := by
  obtain ⟨n, hn⟩ := h
  refine ⟨n + 1, ?_⟩
  rw [run_add _ hn]
  have : transactionCore.step c = .fault r := hf
  simp only [Host.Core.run, this]

/-- A line that answers a next block is one step. -/
theorem Reaches.line {l : Line} {rest : List Line} {s : State} {w : Working} {c : Block}
    (h : runLine l ⟨s, rest, w⟩ = .next c) : Reaches ⟨s, l :: rest, w⟩ c := Reaches.one h

/-! ## Sequences of bus operations -/

/-- The lines, run from `s` and `w`, end where the sequence `r` ends, with working values that are `k` of its result; where
`r` fails they end at the lines that handle the error. -/
def Reply.RunsAs {α : Type} (r : Reply α) (lines : List Line) (s : State) (w : Working) (k : α → Working → Prop) : Prop :=
  match r with
  | .ok a t => ∃ w', (∀ rest, Reaches ⟨s, lines ++ rest, w⟩ ⟨t, rest, w'⟩) ∧ t.running = s.running ∧ k a w'
  | .err t => ∃ w', ∀ rest, Reaches ⟨s, lines ++ rest, w⟩ ⟨t, errorLines s.running, w'⟩

theorem runsAs_andThen {α β : Type} {r : Reply α} {f : α → State → Reply β} {l l' : List Line} {s : State} {w : Working}
    {k : α → Working → Prop} {k' : β → Working → Prop} (h : r.RunsAs l s w k)
    (hf : ∀ a t w', t.running = s.running → k a w' → (f a t).RunsAs l' t w' k') :
    (r.andThen f).RunsAs (l ++ l') s w k' := by
  cases r with
  | ok a t =>
    obtain ⟨w', h1, hr, hk⟩ := h
    have h2 := hf a t w' hr hk
    rw [Reply.andThen_ok]
    cases he : f a t with
    | ok b u =>
      rw [he] at h2
      obtain ⟨w'', h3, hr', hk'⟩ := h2
      exact ⟨w'', fun rest => List.append_assoc l l' rest ▸ (h1 _).trans (h3 rest), hr'.trans hr, hk'⟩
    | err u =>
      rw [he] at h2
      obtain ⟨w'', h3⟩ := h2
      exact ⟨w'', fun rest => List.append_assoc l l' rest ▸ hr ▸ (h1 _).trans (h3 rest)⟩
  | err t =>
    obtain ⟨w', h1⟩ := h
    exact ⟨w', fun rest => List.append_assoc l l' rest ▸ h1 _⟩

/-- A sequence begun after LOCK is moved. -/
theorem runsAs_lock {α : Type} {r : Reply α} {l : List Line} {s : State} {w : Working} {on : Bool}
    {k : α → Working → Prop} (h : r.RunsAs l (s.setLock on) w k) : r.RunsAs (.lock on :: l) s w k := by
  have hx (rest : List Line) : Reaches ⟨s, .lock on :: (l ++ rest), w⟩ ⟨s.setLock on, l ++ rest, w⟩ := Reaches.line rfl
  cases r with
  | ok a t =>
    obtain ⟨w', h1, hr, hk⟩ := h
    exact ⟨w', fun rest => (hx rest).trans (h1 rest), hr, hk⟩
  | err t =>
    obtain ⟨w', h1⟩ := h
    exact ⟨w', fun rest => (hx rest).trans (h1 rest)⟩

theorem runsAs_ok {α : Type} {a : α} {s : State} {w : Working} {k : α → Working → Prop} (h : k a w) :
    (Reply.ok a s).RunsAs [] s w k := ⟨w, fun _ => Reaches.refl _, rfl, h⟩

theorem runsAs_ok_setLock {α : Type} {a : α} {s : State} {w : Working} {on : Bool} {k : α → Working → Prop} (h : k a w) :
    (Reply.ok a (s.setLock on)).RunsAs [.lock on] s w k :=
  ⟨w, fun _ => Reaches.line rfl, rfl, h⟩

theorem busRead_runsAs (dev reg : Byte) (v : Slot) (s : State) (w : Working) :
    (busRead dev reg s).RunsAs [.read dev reg v] s w (fun x w' => w' = w.put v x) := by
  rcases busRead_cases dev reg s with ⟨b, -, h⟩ | ⟨-, h⟩ <;> rw [h]
  · exact ⟨_, fun _ => Reaches.line (by rw [runLine, h]; rfl), rfl, rfl⟩
  · exact ⟨w, fun _ => Reaches.line (by rw [runLine, h]; rfl)⟩

theorem busWrite_runsAs (dev reg setm clrm : Byte) (s : State) (w : Working) :
    (busWrite dev reg (rmwByte w.old setm clrm) s).RunsAs [.write dev reg setm clrm] s w (fun _ w' => w' = w) := by
  rcases busWrite_cases dev reg (rmwByte w.old setm clrm) s with ⟨b, -, h⟩ | ⟨-, h⟩ <;> rw [h]
  · exact ⟨w, fun _ => Reaches.line (by rw [runLine]; dsimp only; rw [h]; rfl), rfl, rfl⟩
  · exact ⟨w, fun _ => Reaches.line (by rw [runLine]; dsimp only; rw [h]; rfl)⟩

theorem rmw_runsAs (dev reg setm clrm : Byte) (s : State) (w : Working) :
    (rmw dev reg setm clrm s).RunsAs (rmwLines dev reg setm clrm) s w (fun _ _ => True) :=
  runsAs_lock <|
    runsAs_andThen (l := [_]) (busRead_runsAs dev reg .old _ w) fun old t w' _ hw => by
      subst hw
      exact runsAs_andThen (l := [_]) (l' := [_]) (busWrite_runsAs dev reg setm clrm t (w.put .old old))
        fun _ u w'' _ _ => runsAs_ok_setLock trivial

theorem fetch2_runsAs (dev r0 r1 : Byte) (s : State) (w : Working) :
    (fetch2 dev r0 r1 s).RunsAs (sampleLines dev r0 r1) s w (fun b w' => w'.lo = b.1 ∧ w'.hi = b.2) :=
  runsAs_lock <|
    runsAs_andThen (l := [_]) (busRead_runsAs dev r0 .lo _ w) fun lo t w' _ hw => by
      subst hw
      exact runsAs_andThen (l := [_]) (busRead_runsAs dev r1 .hi t _) fun hi u w'' _ hw => by
        subst hw
        exact runsAs_ok_setLock ⟨rfl, rfl⟩

theorem fetch3_runsAs (dev r0 r1 r2 : Byte) (s : State) (w : Working) :
    (fetch3 dev r0 r1 r2 s).RunsAs [.lock true, .read dev r0 .lo, .read dev r1 .mid, .read dev r2 .hi, .lock false] s w
      (fun b w' => w'.lo = b.1 ∧ w'.mid = b.2.1 ∧ w'.hi = b.2.2) :=
  runsAs_lock <|
    runsAs_andThen (l := [_]) (busRead_runsAs dev r0 .lo _ w) fun lo t w' _ hw => by
      subst hw
      exact runsAs_andThen (l := [_]) (busRead_runsAs dev r1 .mid t _) fun mid u w'' _ hw => by
        subst hw
        exact runsAs_andThen (l := [_]) (busRead_runsAs dev r2 .hi u _) fun hi v w3 _ hw => by
          subst hw
          exact runsAs_ok_setLock ⟨rfl, rfl, rfl⟩

/-! ## HT.CAL -/

theorem readItem_runsAs (m : CalMap) (i : CalItem) (r : CalBytes) (s : State) (w : Working) (hw : w.cal = r) :
    (readItem m i r s).RunsAs (itemLines m i) s w (fun r' w' => w'.cal = r') := by
  subst hw
  by_cases hp : calItemPaired i = true
  · rw [readItem, itemLines, if_pos hp, if_pos hp]
    refine runsAs_andThen (l := _ :: _ :: _ :: [_]) (l' := []) (k := fun (b : Byte × Byte) w' => w'.cal = putItem i b.1 b.2 w.cal) ?_
      fun b t w' _ h => runsAs_ok (k := fun r' w' => w'.cal = r') h
    exact runsAs_lock <|
      runsAs_andThen (l := [_]) (busRead_runsAs htDev _ (.cal i false) _ w) fun lo t w' _ hw => by
        subst hw
        exact runsAs_andThen (l := [_]) (busRead_runsAs htDev _ (.cal i true) t _) fun hi u w'' _ hw => by
          subst hw
          exact runsAs_ok_setLock (by cases i <;> first | rfl | cases hp)
  · rw [readItem, itemLines, if_neg hp, if_neg hp]
    refine runsAs_andThen (l := [_]) (l' := []) (busRead_runsAs htDev _ (.cal i false) s w) fun lo t w' _ hw => ?_
    subst hw
    exact runsAs_ok (by cases i <;> first | rfl | cases hp rfl)

theorem readItems_runsAs (m : CalMap) : ∀ (is : List CalItem) (r : CalBytes) (s : State) (w : Working), w.cal = r →
    (readItems m is r s).RunsAs (is.flatMap (itemLines m)) s w (fun r' w' => w'.cal = r')
  | [], _, _, _, hw => runsAs_ok hw
  | i :: is, r, s, w, hw =>
    runsAs_andThen (readItem_runsAs m i r s w hw) fun r' t w' _ h => readItems_runsAs m is r' t w' h

theorem calWriteLines_reaches (s : State) (w : Working) (rest : List Line) :
    Reaches ⟨s, calWriteLines ++ rest, w⟩ ⟨s.setCal (unpackCal w.cal), rest, w⟩ := ⟨8, rfl⟩

theorem calibrate_runsAs (s : State) (w : Working) (hw : w.cal = noCalBytes) :
    (calibrate s).RunsAs (calLines s.params.calMap) s w (fun _ _ => True) :=
  runsAs_andThen (readItems_runsAs _ _ _ s w hw) fun r t w' _ h => by
    subst h
    exact ⟨w', calWriteLines_reaches t w', rfl, trivial⟩

/-! ## Ends of commands -/

theorem errorLines_reaches_raise {s : State} {w : Working} {i : Option Instr} (h : i ≠ some .htAct) :
    Reaches ⟨s, errorLines i, w⟩ (Block.ended (s.raise .transportErr)) := by
  rw [errorLines, if_neg h]
  exact Reaches.line rfl

theorem errorLines_reaches_activationFails (s : State) (w : Working) :
    Reaches ⟨s, errorLines (some .htAct), w⟩ (Block.ended (activationFails s)) := ⟨3, rfl⟩

/-- Everything a delivery can do: the command ends. -/
theorem deliverResult_next {d : Delivery} {w : Working} {s : State} {c : Block} (h : deliverResult d w s = .next c) :
    ∃ st b v, c = Block.ended (s.finish st b v) := by
  cases d <;> simp only [deliverResult] at h
  case interp =>
    split at h <;> cases h
    exact ⟨_, _, _, rfl⟩
  all_goals cases h; exact ⟨_, _, _, rfl⟩

/-! ## The lines of commands -/

/-- No word starts HT.CAL (30_encoding.md rule R74). -/
theorem decode_ne_htCal : ∀ w : Byte, decode w ≠ some .htCal := by decide

theorem pollLines_fit (m : CalMap) (ch : Channel) : linesFit m (channelInstr ch) .outside (pollLines ch) = true := by
  cases ch <;> rfl

/-- A line at a place where it may stand, before lines that fit. -/
theorem linesFit_cons {m : CalMap} {i : Instr} {p q : LockPlace} {l : Line} {rest : List Line}
    (h : p.line m i l rest = some q) (hr : linesFit m i q rest = true) (hl : l.isFinish = false := by rfl) :
    linesFit m i p (l :: rest) = true := by
  simp [linesFit, h, hl, hr]

/-- Everything that lines which fit can begin with: the `finish` that ends them, or a line after which the rest fits. -/
theorem linesFit_cases {m : CalMap} {i : Instr} {p : LockPlace} {l : Line} {rest : List Line}
    (h : linesFit m i p (l :: rest) = true) :
    (∃ d, l = .finish d ∧ rest = []) ∨ ∃ q, p.line m i l rest = some q ∧ linesFit m i q rest = true := by
  rw [linesFit] at h
  split at h
  · cases h
  · rename_i q hq
    split at h
    · rename_i hl
      cases l <;> first | exact .inl ⟨_, rfl, List.isEmpty_iff.1 h⟩ | cases hl
    · exact .inr ⟨q, hq, h⟩

/-- A single access of a command outside its sections, before lines that fit. -/
theorem single_fit {m : CalMap} {i : Instr} {dev reg : Byte} {v : Slot} {rest : List Line}
    (hs : ⟨false, dev, reg⟩ ∈ commandSingles m i) (h : linesFit m i .outside rest = true) :
    linesFit m i .outside (.read dev reg v :: rest) = true :=
  linesFit_cons (q := .outside) (by exact if_pos hs) h

/-- A critical section of two reads, before lines that fit. -/
theorem pair_fit {m : CalMap} {i : Instr} {dev r0 r1 : Byte} {v0 v1 : Slot} {rest : List Line}
    (hs : readsOf dev [r0, r1] ∈ commandSections m i) (h : linesFit m i .outside rest = true) :
    linesFit m i .outside (.lock true :: .read dev r0 v0 :: .read dev r1 v1 :: .lock false :: rest) = true :=
  linesFit_cons (q := .inside [] (readsOf dev [r0, r1])) (by exact if_pos hs) <|
    linesFit_cons (q := .inside (readsOf dev [r0]) (readsOf dev [r1])) (by exact if_pos rfl) <|
    linesFit_cons (q := .inside (readsOf dev [r0, r1]) []) (by exact if_pos rfl) <|
    linesFit_cons (q := .outside) rfl h

/-- A read-modify-write, before lines that fit. -/
theorem rmwLines_fit {m : CalMap} {i : Instr} {dev setm clrm : Byte} {rest : List Line}
    (hs : rmwSection dev ∈ commandSections m i) (h : linesFit m i .outside rest = true) :
    linesFit m i .outside (rmwLines dev regCtrl setm clrm ++ rest) = true :=
  linesFit_cons (q := .inside [] (rmwSection dev)) (by exact if_pos hs) <|
    linesFit_cons (q := .inside [⟨false, dev, 0x20⟩] [⟨true, dev, 0x20⟩]) (by exact if_pos rfl) <|
    linesFit_cons (q := .inside (rmwSection dev) []) (by exact if_pos rfl) <|
    linesFit_cons (q := .outside) rfl h

/-- The lines of one calibration item, before lines that fit. -/
theorem itemLines_fit {m : CalMap} {i : Instr} (hi : i = .htAct ∨ i = .htCal) (c : CalItem) {rest : List Line}
    (h : linesFit m i .outside rest = true) : linesFit m i .outside (itemLines m c ++ rest) = true := by
  have hp : ∀ a ∈ [m.ho0, m.ho1, m.to0, m.to1], readsOf 0x5F [a, a + 1] ∈ commandSections m i := by
    intro a ha
    have ha : readsOf 0x5F [a, a + 1] ∈ calSections m := List.mem_map_of_mem ha
    rcases hi with rfl | rfl
    · exact List.mem_cons_of_mem _ ha
    · exact ha
  have hq : ∀ a ∈ [m.hp0, m.hp1, m.tp0, m.tp1, m.tmsb], (⟨false, 0x5F, a⟩ : Access) ∈ commandSingles m i := by
    intro a ha
    have ha : (⟨false, 0x5F, a⟩ : Access) ∈ readsOf 0x5F [m.hp0, m.hp1, m.tp0, m.tp1, m.tmsb] :=
      List.mem_map_of_mem ha
    rcases hi with rfl | rfl <;> exact ha
  cases c
  case ho0 => exact pair_fit (hp _ (by simp [calItemAddr])) h
  case ho1 => exact pair_fit (hp _ (by simp [calItemAddr])) h
  case to0 => exact pair_fit (hp _ (by simp [calItemAddr])) h
  case to1 => exact pair_fit (hp _ (by simp [calItemAddr])) h
  all_goals exact single_fit (hq _ (by simp [calItemAddr])) h

theorem calLines_fit {m : CalMap} {i : Instr} (hi : i = .htAct ∨ i = .htCal) {rest : List Line}
    (h : linesFit m i .outside rest = true) : linesFit m i .outside (calLines m ++ rest) = true := by
  rw [calLines, List.append_assoc]
  generalize calOrder m = is
  induction is with
  | nil => exact h
  | cons c is ih =>
    rw [List.flatMap_cons, List.append_assoc]
    exact itemLines_fit hi c ih

/-- The lines of every command a word can start run through its critical sections whole. -/
theorem commandLines_fit (m : CalMap) {i : Instr} (hi : i ≠ .htCal) :
    linesFit m i .outside (commandLines m i) = true := by
  cases i
  case htCal => exact absurd rfl hi
  case htAct =>
    rw [commandLines, List.append_assoc, List.append_assoc]
    exact linesFit_cons (q := .outside) rfl <| linesFit_cons (q := .outside) rfl <|
      rmwLines_fit List.mem_cons_self (calLines_fit (.inl rfl) rfl)
  case htSetbdu a => cases a <;> exact linesFit_cons (q := .outside) rfl (rmwLines_fit List.mem_cons_self rfl)
  all_goals rfl

/-! ## The address map -/

/-- The accesses of a command outside its critical sections are those the map lists with LOCK 0. -/
theorem commandSingles_inMap {m : CalMap} {i : Instr} {e : Event} (h : eventAccess e ∈ commandSingles m i)
    (hl : e.lock = false) : eventInMap m e = true := by
  obtain ⟨l, t, a⟩ := e
  dsimp only at hl
  subst hl
  cases t <;> cases i <;> simp_all [commandSingles, readsOf, eventAccess, eventInMap]
  all_goals aesop

/-- The accesses of a command's critical sections are those the map lists with LOCK 1. -/
theorem commandSections_inMap {m : CalMap} {i : Instr} {e : Event} {s : List Access} (hs : s ∈ commandSections m i)
    (h : eventAccess e ∈ s) (hl : e.lock = true) : eventInMap m e = true := by
  obtain ⟨l, t, a⟩ := e
  dsimp only at hl
  subst hl
  cases t <;> cases i <;>
    simp_all [commandSections, calSections, rmwSection, readsOf, eventAccess, eventInMap]
  all_goals aesop

/-! ## Places -/

theorem errorLines_ne_nil (r : Option Instr) : errorLines r ≠ [] := by
  rw [errorLines]
  split <;> simp

theorem LockPlace.free_eq_some {p q : LockPlace} (h : p.free = some q) : p = .outside ∧ q = .outside := by
  cases p <;> cases h
  exact ⟨rfl, rfl⟩

theorem LockPlace.update_eq_some {p q : LockPlace} (h : p.update = some q) : q = p := by
  cases p with
  | outside => cases h; rfl
  | inside done left => cases done <;> cases left <;> cases h; rfl

/-- An access that may be made at a place is one the map lists with LOCK as it stands there. Answered without an error, it
leaves the block at the place after it; answered with an error, it failed at that place. -/
theorem lockAt_access {s : State} {i : Instr} {p q : LockPlace} {e : Event} (hl : s.LockAt i p) (he : e.lock = s.lock)
    (h : p.access s.params.calMap i (eventAccess e) = some q) :
    eventInMap s.params.calMap e = true ∧ (e.answer ≠ .error → (s.afterScript [e]).LockAt i q) ∧
      (e.answer = .error → (s.afterScript [e]).FailedAt i p) := by
  have hf : e.answer = .error → (s.afterScript [e]).FailedAt i p := fun hE =>
    ⟨s.events, e, rfl, hE, he, Option.isSome_of_eq_some h, by cases p <;> exact hl⟩
  cases p with
  | outside =>
    simp only [LockPlace.access] at h
    split at h
    · rename_i hm
      cases h
      exact ⟨commandSingles_inMap hm (he.trans hl), fun _ => hl, hf⟩
    · cases h
  | inside done left =>
    cases left with
    | nil => cases h
    | cons a left =>
      simp only [LockPlace.access] at h
      split at h
      · rename_i ha
        cases h
        obtain ⟨h1, h2, before, made, h3, h4, h5⟩ := hl
        refine ⟨commandSections_inMap h2 (by rw [ha]; simp) (he.trans h1), fun hne =>
          ⟨h1, by rw [ha]; simpa using h2, before, made ++ [e], by simp [h3], by simp [h4], fun x hx => ?_⟩, hf⟩
        rcases List.mem_append.1 hx with hx | hx
        · exact h5 x hx
        · rw [List.mem_singleton.1 hx]
          exact ⟨he.trans h1, hne⟩
      · cases h

end Sys2Proof.Machine
end

