-- ==== Sys2Proof/Tests/Slice0.lean ====
section
/-! SUPPORT. The model's own tests: the well-formedness checks refuse, words written out from 30_encoding.md decode, steps on
the vectors of 95_test_vectors.md, and for every statement a state and operands that meet its hypotheses. -/

namespace Sys2Proof.Tests

open Sys2Proof.Machine

/-! ## Well-formedness -/

theorem test_wf_htCal_refused : Instr.htCal.wellFormed = false := by decide

/-- 20_memory.md rule R43: 0x2F lies below the range, and 0x3F as a low byte puts the high byte at 0x40. -/
theorem test_wf_calMap_range_refused :
    ({ defaultCalMap with hp0 := 0x2F } : CalMap).wellFormed = false ∧
    ({ defaultCalMap with to1 := 0x3F } : CalMap).wellFormed = false := by decide

/-- 20_memory.md rule R43: `CAL_A_HP0` on the high byte of `HO0`. -/
theorem test_wf_calMap_overlap_refused : ({ defaultCalMap with hp0 := 0x37 } : CalMap).wellFormed = false := by decide

theorem test_wf_calMap_default : defaultCalMap.wellFormed = true := by decide

/-- 00_scope.md rule R5: a positive integer or `INF`. -/
theorem test_wf_pollLimit_zero_refused : (PollLimit.reads 0).wellFormed = false ∧
    (PollLimit.reads 1).wellFormed = true ∧ PollLimit.inf.wellFormed = true := by decide

theorem test_wf_params_refused : (Params.mk .b64 (.reads 0) defaultCalMap).wellFormed = false ∧
    (Params.mk .b64 .inf { defaultCalMap with hp0 := 0x2F }).wellFormed = false := by decide

/-! ## Decoding: `000UPPPA`, each word written out from 30_encoding.md rules R70 and R72 -/

theorem test_decode_pt : decode 0b00000000 = some .ptInit ∧ decode 0b00000010 = some .ptIdent ∧
    decode 0b00000100 = some .ptRdtc ∧ decode 0b00000110 = some .ptRdtf ∧ decode 0b00001000 = some .ptRdpm := by decide

theorem test_decode_ht : decode 0b00010000 = some .htInit ∧ decode 0b00010010 = some .htPdown ∧
    decode 0b00010100 = some .htAct ∧ decode 0b00010110 = some (.htSetbdu false) ∧
    decode 0b00010111 = some (.htSetbdu true) ∧ decode 0b00011010 = some .htRdh ∧
    decode 0b00011100 = some .htRdtc := by decide

/-- 30_encoding.md rule R74: `OP` 5..7 of PT, `OP` 7 of HT, `A` = 1 elsewhere, HT.CAL, `Z` not 0. -/
theorem test_decode_illegal : [0x0A, 0x0C, 0x0E, 0x1E, 0x01, 0x11, 0x18, 0x19, 0x1B, 0x20, 0x80, 0x94, 0xFF].map decode =
    List.replicate 13 none := by decide

/-- 30_encoding.md rule R72: HT.CAL has a code point. -/
theorem test_encode_htCal : encode .htCal = 0b00011000 := by decide

/-! ## States of the tests -/

/-- The reset state with an environment that will answer as a script says. -/
def idle (es : List Event) : State := { State.reset with answers := es.map (·.answer) }

/-- The thirteen bytes of 95_test_vectors.md program P1. -/
def p1Bytes : CalBytes := ⟨0x3C, 0x8C, 0xA0, 0x18, 0xC4, 0x00, 0x10, 0x00, 0x50, 0x00, 0x01, 0x00, 0x03⟩

/-- `CAL` after 95_test_vectors.md program P1. -/
def p1Cal : Cal := ⟨some 60, some 140, some 160, some 280, some 4096, some 20480, some 256, some 768⟩

/-- An active block with that calibration and a limit on the poll. -/
def active (lim : PollLimit) (es : List Event) : State :=
  { idle es with htState := .active, cal := p1Cal, params := ⟨.b64, lim, defaultCalMap⟩ }

/-- An initialised block with the default parameters. -/
def inited (es : List Event) : State := { idle es with htState := .inited, params := ⟨.b64, .inf, defaultCalMap⟩ }

def resOf (o : Host.Outcome State Fault Refusal) : Option Res :=
  match o with
  | .next s => some s.res
  | _ => none

/-- The requests made, with LOCK, and the HT unit after them. -/
def busOf (o : Host.Outcome State Fault Refusal) : Option (List (Bool × Txn) × HtState × Bool) :=
  match o with
  | .next s => some (s.events.map fun e => (e.lock, e.txn), s.htState, s.cal = p1Cal)
  | _ => none

/-! ## One step per vector -/

/-- 2.3: `[R 5D 20 -> 04, W 5D 20 B4]`. -/
theorem test_ptInit : busOf (exec .ptInit (idle [readOk true 0x5D 0x20 0x04, writeOk true 0x5D 0x20 0xB4 0])) =
    some ([(true, .read 0x5D 0x20), (true, .write 0x5D 0x20 0xB4)], .uninit, false) := by decide

/-- 2.3: `R 5D 0F -> 00` is OK with the byte 0. -/
theorem test_ptIdent : resOf (exec .ptIdent (idle [readOk false 0x5D 0x0F 0x00])) = some ⟨some .ok, some 0x00, none⟩ := by
  decide

/-- 2.3: 749/60. -/
theorem test_ptRdtc : resOf (exec .ptRdtc
    (idle [readOk false 0x5D 0x27 1, readOk true 0x5D 0x2B 0x80, readOk true 0x5D 0x2C 0xC8])) =
    some ⟨some .ok, none, some (.b64 0x4028F77777777778)⟩ := by decide

/-- S6: every bit but bit 0. -/
theorem test_ptRdtc_not_ready : resOf (exec .ptRdtc (idle [readOk false 0x5D 0x27 0xFE])) =
    some ⟨some .notReady, none, some (.b64 0xC071126666666666)⟩ := by decide

/-- 2.3: 54.47. -/
theorem test_ptRdtf : resOf (exec .ptRdtf
    (idle [readOk false 0x5D 0x27 1, readOk true 0x5D 0x2B 0x80, readOk true 0x5D 0x2C 0xC8])) =
    some ⟨some .ok, none, some (.b64 0x404B3C28F5C28F5C)⟩ := by decide

/-- 2.3: the Fahrenheit image of the sentinel. -/
theorem test_ptRdtf_not_ready : resOf (exec .ptRdtf (idle [readOk false 0x5D 0x27 0])) =
    some ⟨some .notReady, none, some (.b64 0xC07CBAB851EB851E)⟩ := by decide

/-- S7: 65535/4096. -/
theorem test_ptRdpm : resOf (exec .ptRdpm
    (idle [readOk false 0x5D 0x27 2, readOk true 0x5D 0x28 0, readOk true 0x5D 0x29 0, readOk true 0x5D 0x2A 1])) =
    some ⟨some .ok, none, some (.b64 0x402FFFE000000000)⟩ := by decide +kernel

/-- 2.3: the temperature bit is not the pressure bit. -/
theorem test_ptRdpm_not_ready : resOf (exec .ptRdpm (idle [readOk false 0x5D 0x27 1])) =
    some ⟨some .notReady, none, some (.b64 0xBFF0000000000000)⟩ := by decide

/-- 2.4: the other sensor's identity is a mismatch, and the state moves. -/
theorem test_htInit_mismatch : resOf (exec .htInit (idle [readOk false 0x5F 0x0F 0xBD])) =
      some ⟨some .idMismatch, some 0xBD, none⟩ ∧
    busOf (exec .htInit (idle [readOk false 0x5F 0x0F 0xBD])) = some ([(false, .read 0x5F 0x0F)], .inited, false) := by
  decide

/-- 2.4: HT.INIT in ACTIVE keeps the state and the calibration. -/
theorem test_htInit_active : busOf (exec .htInit (active .inf [readOk false 0x5F 0x0F 0xBC])) =
    some ([(false, .read 0x5F 0x0F)], .active, true) := by decide

/-- 2.4: `[R 5F 20 -> 85, W 5F 20 05]`. -/
theorem test_htPdown : busOf (exec .htPdown (active .inf [readOk true 0x5F 0x20 0x85, writeOk true 0x5F 0x20 0x05 0])) =
    some ([(true, .read 0x5F 0x20), (true, .write 0x5F 0x20 0x05)], .pdown, false) := by decide

/-- 2.4: on the read error nothing changes. -/
theorem test_htPdown_read_error :
    busOf (exec .htPdown (active .inf [failEvent (readOk true 0x5F 0x20 0)])) =
    some ([(true, .read 0x5F 0x20)], .active, true) := by decide

/-- P1, step 3: the write of 0x85, the calibration, and ACTIVE. -/
theorem test_htAct : (busOf (exec .htAct (inited (actScript defaultCalMap 0x04 0 p1Bytes)))).map (·.2) =
      some (.active, true) ∧
    (busOf (exec .htAct (inited (actScript defaultCalMap 0x04 0 p1Bytes)))).map (·.1.take 3) =
      some [(true, .read 0x5F 0x20), (true, .write 0x5F 0x20 0x85), (false, .read 0x5F 0x30)] := by decide

/-- 2.4: an error at the first calibration read: INITED, `CAL` emptied. -/
theorem test_htAct_error : busOf (exec .htAct (active .inf (failAt (actScript defaultCalMap 0x81 0 p1Bytes) 2))) =
    some ([(true, .read 0x5F 0x20), (true, .write 0x5F 0x20 0x81), (false, .read 0x5F 0x30)], .inited, false) := by decide

/-- 2.4: `[R 5F 20 -> 81, W 5F 20 85]`. -/
theorem test_htSetbdu_1 : busOf (exec (.htSetbdu true)
    (inited [readOk true 0x5F 0x20 0x81, writeOk true 0x5F 0x20 0x85 0])) =
    some ([(true, .read 0x5F 0x20), (true, .write 0x5F 0x20 0x85)], .inited, false) := by decide

/-- 2.4: `[R 5F 20 -> FF, W 5F 20 FB]`, the calibration kept. -/
theorem test_htSetbdu_0 : busOf (exec (.htSetbdu false)
    (active .inf [readOk true 0x5F 0x20 0xFF, writeOk true 0x5F 0x20 0xFB 0])) =
    some ([(true, .read 0x5F 0x20), (true, .write 0x5F 0x20 0xFB)], .active, true) := by decide

/-- 2.5, first row: the eight values, inside HT.ACT. -/
theorem test_htCal : (busOf (exec .htCal
    { inited (calScript defaultCalMap p1Bytes) with busy := true, running := some .htAct })).map (·.2.2) = some true := by
  decide

/-- 30_encoding.md rule R74: on CMD it is illegal. -/
theorem test_htCal_illegal : resOf (exec .htCal (idle [])) = some ⟨some .illegalCmd, none, none⟩ := by decide

/-- 2.7: 50 percent. -/
theorem test_htRdh : resOf (exec .htRdh (active (.reads 1)
    [readOk false 0x5F 0x27 2, readOk true 0x5F 0x28 0x00, readOk true 0x5F 0x29 0x30])) =
    some ⟨some .ok, none, some (.b64 0x4049000000000000)⟩ := by decide

/-- S8: a zero span. -/
theorem test_htRdh_zero_span : resOf (exec .htRdh { active (.reads 1)
    [readOk false 0x5F 0x27 2, readOk true 0x5F 0x28 0x11, readOk true 0x5F 0x29 0x22] with
      cal := { p1Cal with ho0 := some 0x1234, ho1 := some 0x1234 } }) = some ⟨some .calErr, none, none⟩ := by decide

/-- 2.7: 27.5 degrees. -/
theorem test_htRdtc : resOf (exec .htRdtc (active .inf
    [readOk false 0x5F 0x27 1, readOk true 0x5F 0x2A 0x00, readOk true 0x5F 0x2B 0x02])) =
    some ⟨some .ok, none, some (.b64 0x403B800000000000)⟩ := by decide

/-- 2.7: HT.RDTC in INITED. -/
theorem test_htRdtc_state : resOf (exec .htRdtc (inited [])) = some ⟨some .stateErr, none, none⟩ := by decide

/-! ## Numbers -/

/-- 2.2: -2821/30 and its Fahrenheit image, and the top row. -/
theorem test_ptTemp_ends : evalB64 (ptTempC 0 0) = 0xC057822222222222 ∧ evalB64 (c2f (ptTempC 0 0)) = 0xC0612851EB851EB8 ∧
    evalB64 (ptTempC 0xFF 0xFF) = 0x4044FBBBBBBBBBBC ∧ evalB64 (c2f (ptTempC 0xFF 0xFF)) = 0x405AE28F5C28F5C3 := by decide

/-- 2.2: the least and the greatest pressure. -/
theorem test_ptPress_ends : evalB64 (ptPressMbar 0 0 0) = 0 ∧ evalB64 (ptPressMbar 0xFF 0xFF 0xFF) = 0x40AFFFC020000000 := by
  decide

/-- 2.6: a rounded result, a negative one, and a decreasing line. -/
theorem test_interp : evalB64 (interp2 500 300 1000 274 672 ⟨80, 1⟩) = 0x40483B6DB6DB6DB7 ∧
    evalB64 (interp2 0 1000 2000 8 808 ⟨80, 1⟩) = 0xC058C00000000000 ∧
    evalB64 (interp2 5 0 7 255 0 ⟨2, 0⟩) = 0x404236DB6DB6DB6E := by decide

/-- 2.5: compositions and the shared register. -/
theorem test_unpack : compose16 0x34 0x12 = 4660 ∧ compose16 0xFF 0xFF = 65535 ∧ assemble10 0x12 1 = 274 ∧
    assemble10 0xFF 3 = 1023 ∧ msb0 0xC4 = 0 ∧ msb1 0xC4 = 1 ∧ msb0 0xFE = 2 ∧ msb1 0xFE = 3 := by decide

/-! ## For every statement, a state and operands that meet its hypotheses

`test_hyp_<Name>` is for `Obligations.<Name>`; a statement without hypotheses has none. Every script can be played: -/

theorem playsFrom_fixed : ∀ (es : List Event) (h : List Event), playsFrom (es.map (·.answer)) h es = true
  | [], _ => rfl
  | e :: es, h => by simp [playsFrom, nextAnswer, playsFrom_fixed es]

theorem plays_idle (es : List Event) : (idle es).plays es = true := playsFrom_fixed es []
theorem plays_inited (es : List Event) : (inited es).plays es = true := playsFrom_fixed es []
theorem plays_active (lim : PollLimit) (es : List Event) : (active lim es).plays es = true := playsFrom_fixed es []

theorem idle_idle (es : List Event) : (idle es).Idle := ⟨rfl, rfl, rfl⟩
theorem inited_idle (es : List Event) : (inited es).Idle := ⟨rfl, rfl, rfl⟩
theorem active_idle (lim : PollLimit) (es : List Event) : (active lim es).Idle := ⟨rfl, rfl, rfl⟩

theorem test_hyp_DecodeOfEncode : (Instr.htSetbdu true).wellFormed = true ∧ Instr.ptInit.wellFormed = true := by decide

theorem test_hyp_StepRunsDecodedCommand : (presentWord 0x17 State.reset).busy = false ∧
    (presentWord 0x17 State.reset).cmd = 0x17 :: [] ∧ decode 0x17 = some (.htSetbdu true) := ⟨rfl, rfl, by decide⟩

/-- The code point of HT.CAL, and the least word with `Z` not 0. -/
theorem test_hyp_IllegalWordReportsIllegalCmd : (presentWord 0x18 State.reset).Idle ∧
    (presentWord 0x18 State.reset).cmd = 0x18 :: [] ∧ decode 0x18 = none ∧ decode 0x20 = none :=
  ⟨⟨rfl, rfl, rfl⟩, rfl, by decide, by decide⟩

theorem test_hyp_IdleBlockWaits : State.reset.busy = false ∧ State.reset.cmd = [] := ⟨rfl, rfl⟩

/-- A block inside a status poll, with an environment that answers as a script says. -/
def polling (ch : Channel) (lim : PollLimit) (n : Nat) (es : List Event) : State :=
  { active lim es with busy := true, running := some (channelInstr ch), pollCnt := n }

theorem plays_polling (ch : Channel) (lim : PollLimit) (n : Nat) (es : List Event) :
    (polling ch lim n es).plays es = true := playsFrom_fixed es []

theorem polling_polling (ch : Channel) (lim : PollLimit) (n : Nat) (es : List Event) :
    (polling ch lim n es).Polling ch := ⟨rfl, rfl, rfl⟩

/-- A turn without the bit, with a word waiting; and any command on the same state. -/
theorem test_hyp_BusyBlockAcceptsNoCommand :
    (∃ t, step (polling .hum .inf 0 [readOk false 0x5F 0x27 0]) = .next t) ∧
    (polling .hum .inf 0 []).busy = true ∧ (polling .hum .inf 0 []).running ≠ some .htAct := ⟨⟨_, rfl⟩, rfl, by decide⟩

theorem test_hyp_PtInitSetsPowerAndOdrBits (old w : Byte) (k : Nat) :
    (idle (rmwScript 0x5D 0x20 old (old ||| 0xB0) w)).Idle ∧
    (idle (rmwScript 0x5D 0x20 old (old ||| 0xB0) w)).plays (rmwScript 0x5D 0x20 old (old ||| 0xB0) w) = true ∧
    (idle (failAt (rmwScript 0x5D 0x20 old (old ||| 0xB0) w) k)).plays
      (failAt (rmwScript 0x5D 0x20 old (old ||| 0xB0) w) k) = true :=
  ⟨idle_idle _, plays_idle _, plays_idle _⟩

theorem test_hyp_PtIdentReturnsIdentityByte (b : Byte) :
    (idle [readOk false 0x5D 0x0F b]).Idle ∧ (idle [readOk false 0x5D 0x0F b]).plays [readOk false 0x5D 0x0F b] = true ∧
    (idle (failAt [readOk false 0x5D 0x0F b] 0)).plays (failAt [readOk false 0x5D 0x0F b] 0) = true :=
  ⟨idle_idle _, plays_idle _, plays_idle _⟩

/-- 0xFE is not ready, 0x01 is, and each of the three reads can fail. -/
theorem test_hyp_PtRdtcReadsCelsiusOrSentinel (lo hi : Byte) (k : Nat) :
    let status (st : Byte) := [readOk false 0x5D 0x27 st]
    let script := status 0x01 ++ [readOk true 0x5D 0x2B lo, readOk true 0x5D 0x2C hi]
    ((0xFE : Byte).getLsbD 0 = false ∧ (idle (status 0xFE)).Idle ∧ (idle (status 0xFE)).plays (status 0xFE) = true) ∧
    ((0x01 : Byte).getLsbD 0 = true ∧ (idle script).Idle ∧ (idle script).plays script = true) ∧
    ((idle (failAt script k)).Idle ∧ (idle (failAt script k)).plays (failAt script k) = true) :=
  ⟨⟨by decide, idle_idle _, plays_idle _⟩, ⟨by decide, idle_idle _, plays_idle _⟩, idle_idle _, plays_idle _⟩

/-- The same three scripts. -/
theorem test_hyp_PtRdtfReadsFahrenheitOrConvertedSentinel (lo hi : Byte) (k : Nat) :
    let status (st : Byte) := [readOk false 0x5D 0x27 st]
    let script := status 0x01 ++ [readOk true 0x5D 0x2B lo, readOk true 0x5D 0x2C hi]
    ((0xFE : Byte).getLsbD 0 = false ∧ (idle (status 0xFE)).Idle ∧ (idle (status 0xFE)).plays (status 0xFE) = true) ∧
    ((0x01 : Byte).getLsbD 0 = true ∧ (idle script).Idle ∧ (idle script).plays script = true) ∧
    ((idle (failAt script k)).Idle ∧ (idle (failAt script k)).plays (failAt script k) = true) :=
  ⟨⟨by decide, idle_idle _, plays_idle _⟩, ⟨by decide, idle_idle _, plays_idle _⟩, idle_idle _, plays_idle _⟩

/-- 0x01, the temperature bit alone, is not ready for pressure; 0x02 is. -/
theorem test_hyp_PtRdpmReadsPressureOrSentinel (lo mid hi : Byte) (k : Nat) :
    let status (st : Byte) := [readOk false 0x5D 0x27 st]
    let script := status 0x02 ++ [readOk true 0x5D 0x28 lo, readOk true 0x5D 0x29 mid, readOk true 0x5D 0x2A hi]
    ((0x01 : Byte).getLsbD 1 = false ∧ (idle (status 0x01)).Idle ∧ (idle (status 0x01)).plays (status 0x01) = true) ∧
    ((0x02 : Byte).getLsbD 1 = true ∧ (idle script).Idle ∧ (idle script).plays script = true) ∧
    ((idle (failAt script k)).Idle ∧ (idle (failAt script k)).plays (failAt script k) = true) :=
  ⟨⟨by decide, idle_idle _, plays_idle _⟩, ⟨by decide, idle_idle _, plays_idle _⟩, idle_idle _, plays_idle _⟩

theorem test_hyp_HtInitChecksIdentity (b : Byte) :
    (idle [readOk false 0x5F 0x0F b]).Idle ∧ (idle [readOk false 0x5F 0x0F b]).plays [readOk false 0x5F 0x0F b] = true ∧
    (idle (failAt [readOk false 0x5F 0x0F b] 0)).plays (failAt [readOk false 0x5F 0x0F b] 0) = true :=
  ⟨idle_idle _, plays_idle _, plays_idle _⟩

/-- `UNINIT` for the first clause, `INITED` for the three others. -/
theorem test_hyp_HtPdownClearsPowerBitAndCalibration (old w : Byte) (k : Nat) :
    let script := rmwScript 0x5F 0x20 old (old &&& 0x7F) w
    ((idle script).Idle ∧ (idle script).htState = .uninit) ∧
    ((inited script).Idle ∧ (inited script).htState ≠ .uninit ∧ (inited script).plays script = true) ∧
    ((inited (failAt script k)).Idle ∧ (inited (failAt script k)).htState ≠ .uninit ∧
      (inited (failAt script k)).plays (failAt script k) = true) :=
  ⟨⟨idle_idle _, rfl⟩, ⟨inited_idle _, nofun, plays_inited _⟩, inited_idle _, nofun, plays_inited _⟩

theorem test_hyp_HtActPowersUpAndCalibrates (old w : Byte) (r : CalBytes) (k : Nat) :
    let script := actScript defaultCalMap old w r
    ((idle script).Idle ∧ (idle script).htState = .uninit) ∧
    ((inited script).Idle ∧ (inited script).params.calMap = defaultCalMap ∧ (inited script).htState ≠ .uninit ∧
      (inited script).plays script = true) ∧
    ((inited (failAt script k)).Idle ∧ (inited (failAt script k)).params.calMap = defaultCalMap ∧
      (inited (failAt script k)).htState ≠ .uninit ∧ (inited (failAt script k)).plays (failAt script k) = true) :=
  ⟨⟨idle_idle _, rfl⟩, ⟨inited_idle _, rfl, nofun, plays_inited _⟩, inited_idle _, rfl, nofun, plays_inited _⟩

theorem test_hyp_HtSetbduSetsOrClearsBduBit (a : Bool) (old w : Byte) (k : Nat) :
    let script := rmwScript 0x5F 0x20 old (if a then old ||| 0x04 else old &&& 0xFB) w
    ((idle script).Idle ∧ (idle script).htState = .uninit) ∧
    ((inited script).Idle ∧ (inited script).htState ≠ .uninit ∧ (inited script).plays script = true) ∧
    ((inited (failAt script k)).Idle ∧ (inited (failAt script k)).htState ≠ .uninit ∧
      (inited (failAt script k)).plays (failAt script k) = true) :=
  ⟨⟨idle_idle _, rfl⟩, ⟨inited_idle _, nofun, plays_inited _⟩, inited_idle _, nofun, plays_inited _⟩

/-- The block inside HT.ACT, after its read-modify-write. -/
def activating (es : List Event) : State := { inited es with busy := true, running := some .htAct }

theorem test_hyp_HtCalUnpacksThirteenBytes (r : CalBytes) (k : Nat) :
    let script := calScript defaultCalMap r
    ((activating script).busy = true ∧ (activating script).running = some .htAct ∧ (activating script).lock = false ∧
      (activating script).params.calMap = defaultCalMap ∧ (activating script).plays script = true) ∧
    ((activating (failAt script k)).busy = true ∧ (activating (failAt script k)).running = some .htAct ∧
      (activating (failAt script k)).lock = false ∧ (activating (failAt script k)).params.calMap = defaultCalMap ∧
      (activating (failAt script k)).plays (failAt script k) = true) ∧
    State.reset.Idle :=
  ⟨⟨rfl, rfl, rfl, rfl, playsFrom_fixed _ []⟩, ⟨rfl, rfl, rfl, rfl, playsFrom_fixed _ []⟩, rfl, rfl, rfl⟩

/-- The defaults, and a choice that reverses their order and ends at 0x3F. -/
theorem test_hyp_CalibrationReadsAscend : defaultCalMap.wellFormed = true ∧
    (CalMap.mk 0x3F 0x3E 0x3D 0x3C 0x3B 0x38 0x36 0x34 0x30).wellFormed = true := by decide

/-- An HT.ACT that ends `OK`; and two bytes that agree in the bits that count. -/
theorem test_hyp_CalDependsOnlyOnBytesRead :
    (∃ t, exec .htAct (inited (actScript defaultCalMap 0 0 p1Bytes)) = .next t ∧ t.res.status = some .ok) ∧
    (0xC5 : Byte).toNat % 4 = (0x01 : Byte).toNat % 4 ∧ (0xC5 : Byte).toNat / 4 % 4 = (0x06 : Byte).toNat / 4 % 4 :=
  ⟨⟨_, rfl, rfl⟩, by decide, by decide⟩

/-- Clause by clause: `INITED`; ready at once with limit 1; not ready; each read failing. -/
theorem test_hyp_HtRdhReadsHumidity (lo hi : Byte) (k : Nat) :
    let status (st : Byte) := [readOk false 0x5F 0x27 st]
    let script := status 0x02 ++ [readOk true 0x5F 0x28 lo, readOk true 0x5F 0x29 hi]
    ((inited []).Idle ∧ (inited []).htState ≠ .active) ∧
    ((active (.reads 1) script).Idle ∧ (active (.reads 1) script).htState = .active ∧
      (active (.reads 1) script).params.pollLimit ≠ .reads 0 ∧ (0x02 : Byte).getLsbD 1 = true ∧
      (active (.reads 1) script).plays script = true ∧ (active (.reads 1) script).cal.ho0 = some 4096 ∧
      (active (.reads 1) script).cal.ho1 = some 20480 ∧ (active (.reads 1) script).cal.hp0 = some 60 ∧
      (active (.reads 1) script).cal.hp1 = some 140) ∧
    ((0x01 : Byte).getLsbD 1 = false ∧ (active (.reads 1) (status 0x01)).plays (status 0x01) = true) ∧
    (active (.reads 1) (failAt script k)).plays (failAt script k) = true :=
  ⟨⟨inited_idle _, nofun⟩, ⟨active_idle _ _, rfl, nofun, by decide, plays_active _ _, rfl, rfl, rfl, rfl⟩,
    ⟨by decide, plays_active _ _⟩, plays_active _ _⟩

theorem test_hyp_HtRdtcReadsTemperature (lo hi : Byte) (k : Nat) :
    let status (st : Byte) := [readOk false 0x5F 0x27 st]
    let script := status 0x01 ++ [readOk true 0x5F 0x2A lo, readOk true 0x5F 0x2B hi]
    ((inited []).Idle ∧ (inited []).htState ≠ .active) ∧
    ((active (.reads 1) script).Idle ∧ (active (.reads 1) script).htState = .active ∧
      (active (.reads 1) script).params.pollLimit ≠ .reads 0 ∧ (0x01 : Byte).getLsbD 0 = true ∧
      (active (.reads 1) script).plays script = true ∧ (active (.reads 1) script).cal.to0 = some 256 ∧
      (active (.reads 1) script).cal.to1 = some 768 ∧ (active (.reads 1) script).cal.tp0 = some 160 ∧
      (active (.reads 1) script).cal.tp1 = some 280) ∧
    ((0xFE : Byte).getLsbD 0 = false ∧ (active (.reads 1) (status 0xFE)).plays (status 0xFE) = true) ∧
    (active (.reads 1) (failAt script k)).plays (failAt script k) = true :=
  ⟨⟨inited_idle _, nofun⟩, ⟨active_idle _ _, rfl, nofun, by decide, plays_active _ _, rfl, rfl, rfl, rfl⟩,
    ⟨by decide, plays_active _ _⟩, plays_active _ _⟩

/-- The limit met; below it: without the bit, with it, and each read failing. -/
theorem test_hyp_PollTurnsUntilReady (ch : Channel) (lo hi : Byte) (k : Nat) :
    let status (st : Byte) := [readOk false 0x5F 0x27 st]
    let script := status 0x03 ++ sampleScript ch lo hi
    ((polling ch (.reads 3) 3 []).Polling ch ∧ (polling ch (.reads 3) 3 []).params.pollLimit = .reads 3) ∧
    ((polling ch (.reads 3) 2 (status 0xFC)).Polling ch ∧ (polling ch (.reads 3) 2 (status 0xFC)).params.pollLimit ≠ .reads 2 ∧
      (0xFC : Byte).getLsbD (readyBit ch) = false ∧ (polling ch (.reads 3) 2 (status 0xFC)).plays (status 0xFC) = true) ∧
    ((polling ch (.reads 3) 2 script).Polling ch ∧ (0x03 : Byte).getLsbD (readyBit ch) = true ∧
      (polling ch (.reads 3) 2 script).plays script = true ∧
      ∃ c, channelCal ch (polling ch (.reads 3) 2 script).cal = some c) ∧
    (polling ch (.reads 3) 2 (failAt script k)).plays (failAt script k) = true :=
  ⟨⟨polling_polling _ _ _ _, rfl⟩, ⟨polling_polling _ _ _ _, by simp [polling, active], by cases ch <;> decide, plays_polling _ _ _ _⟩,
    ⟨polling_polling _ _ _ _, by cases ch <;> decide, plays_polling _ _ _ _, by cases ch <;> exact ⟨_, rfl⟩⟩,
    plays_polling _ _ _ _⟩

/-- An active block with one word on CMD. -/
def commanded (lim : PollLimit) (w : Byte) (es : List Event) : State := { active lim es with cmd := [w] }

theorem plays_commanded (lim : PollLimit) (w : Byte) (es : List Event) : (commanded lim w es).plays es = true :=
  playsFrom_fixed es []

/-- The second status read is the last that the limit 2 allows. -/
theorem test_hyp_ReadyAtKthPollMakesExactlyKReads (lo hi : Byte) :
    let script := statusScript ([0x01] ++ [0x02]) ++ sampleScript .hum lo hi
    let s := commanded (.reads 2) 0x1A script
    s.Idle ∧ s.htState = .active ∧ s.cmd = 0x1A :: [] ∧ decode 0x1A = some (channelInstr .hum) ∧
      channelCal .hum s.cal = some ⟨4096, 20480, 60, 140⟩ ∧
      (∀ b ∈ [(0x01 : Byte)], b.getLsbD (readyBit .hum) = false) ∧ (0x02 : Byte).getLsbD (readyBit .hum) = true ∧
      (∀ n, s.params.pollLimit = .reads n → [(0x01 : Byte)].length < n) ∧ s.plays script = true :=
  ⟨⟨rfl, rfl, rfl⟩, rfl, rfl, by decide, rfl, by decide, by decide,
    fun n h => by obtain rfl : 2 = n := PollLimit.reads.inj h; decide, plays_commanded _ _ _⟩

/-- 95_test_vectors.md 2.7, with the limit 1 and with the limit 3. -/
theorem test_hyp_TimeoutAfterExactlyPollLimitReads :
    (let s := commanded (.reads 1) 0x1C (statusScript [0x00])
     s.Idle ∧ s.htState = .active ∧ s.cmd = 0x1C :: [] ∧ decode 0x1C = some (channelInstr .temp) ∧
      (∀ b ∈ [(0x00 : Byte)], b.getLsbD (readyBit .temp) = false) ∧
      s.params.pollLimit = .reads [(0x00 : Byte)].length ∧ 0 < [(0x00 : Byte)].length ∧
      s.plays (statusScript [0x00]) = true) ∧
    (let s := commanded (.reads 3) 0x1C (statusScript [0x00, 0x02, 0x02])
     s.params.pollLimit = .reads [(0x00 : Byte), 0x02, 0x02].length ∧
      (∀ b ∈ [(0x00 : Byte), 0x02, 0x02], b.getLsbD (readyBit .temp) = false) ∧
      s.plays (statusScript [0x00, 0x02, 0x02]) = true) :=
  ⟨⟨⟨rfl, rfl, rfl⟩, rfl, rfl, by decide, by decide, rfl, by decide, plays_commanded _ _ _⟩,
    rfl, by decide, plays_commanded _ _ _⟩

theorem test_hyp_UnboundedPollKeepsRunning :
    let s := polling .temp .inf 0 (statusScript [0x00, 0x02])
    s.Polling .temp ∧ s.params.pollLimit = .inf ∧ (∀ b ∈ [(0x00 : Byte), 0x02], b.getLsbD (readyBit .temp) = false) ∧
      s.plays (statusScript [0x00, 0x02]) = true :=
  ⟨polling_polling _ _ _ _, rfl, by decide, plays_polling _ _ _ _⟩

theorem polling_inv (ch : Channel) (lim : PollLimit) (n : Nat) (es : List Event) (h : pollWithin lim n = true) :
    (polling ch lim n es).Inv :=
  ⟨rfl, rfl, .inr ⟨rfl, by cases ch <;> simp [polling, channelInstr], rfl, h⟩⟩

/-- At the limit, and with all reads left. -/
theorem test_hyp_BoundedPollFinishes :
    ((polling .hum (.reads 1) 1 []).Inv ∧ (polling .hum (.reads 1) 1 []).busy = true ∧
      (polling .hum (.reads 1) 1 []).params.pollLimit = .reads 1) ∧
    (polling .temp (.reads 5) 0 []).Inv :=
  ⟨⟨polling_inv _ _ _ _ (by decide), rfl, rfl⟩, polling_inv _ _ _ _ (by decide)⟩

/-- Idle, and inside a poll at the limit. -/
theorem test_hyp_StepKeepsBlockInvariant : State.reset.Inv ∧ (polling .hum (.reads 3) 3 []).Inv :=
  ⟨⟨rfl, rfl, .inl ⟨rfl, rfl⟩⟩, polling_inv _ _ _ _ (by decide)⟩

/-- A read of the HT control register, locked, stands in the history; the next command runs. -/
theorem test_hyp_StepKeepsToAddressMap :
    let s : State := { presentWord 0x10 (idle [readOk false 0x5F 0x0F 0xBC]) with events := [readOk true 0x5F 0x20 0] }
    s.lock = false ∧ s.BusInv ∧ ∃ t, step s = .next t :=
  ⟨rfl, fun e he => by obtain rfl := List.mem_singleton.1 he; rfl, _, rfl⟩

theorem test_hyp_StepKeepsResultWellFormed :
    State.reset.ResInv ∧ ∃ t, step (presentWord 0x10 (idle [readOk false 0x5F 0x0F 0xBC])) = .next t :=
  ⟨⟨rfl, nofun⟩, _, rfl⟩

theorem test_hyp_StepExtendsHistory :
    ∃ t, step (presentWord 0x14 (inited (actScript defaultCalMap 0 0 p1Bytes))) = .next t ∧ t.events.length = 15 :=
  ⟨_, rfl, rfl⟩

/-- A command, and a turn of a poll. -/
theorem test_hyp_TransportErrorIsNeverSwallowed :
    ((idle (failAt [readOk false 0x5F 0x0F 0] 0)).Idle ∧
      ∃ t, exec .htInit (idle (failAt [readOk false 0x5F 0x0F 0] 0)) = .next t) ∧
    (polling .hum .inf 1 (failAt [readOk false 0x5F 0x27 0] 0)).Polling .hum ∧
      ∃ t, step (polling .hum .inf 1 (failAt [readOk false 0x5F 0x27 0] 0)) = .next t :=
  ⟨⟨idle_idle _, _, rfl⟩, polling_polling _ _ _ _, _, rfl⟩

/-- A refused command, and two that are not. -/
theorem test_hyp_StateErrChangesOnlyRes : (idle []).Idle ∧ (idle []).htState = .uninit ∧
    (∃ t, exec .htAct (inited (actScript defaultCalMap 0 0 p1Bytes)) = .next t ∧ t.busy = false) ∧
    ∃ t, exec .htInit (idle [readOk false 0x5F 0x0F 0]) = .next t ∧ t.busy = false :=
  ⟨idle_idle _, rfl, ⟨_, rfl, rfl⟩, _, rfl, rfl⟩

/-- One step for each row: HT.INIT, HT.ACT with success and with an error, HT.PDOWN, another command. -/
theorem test_hyp_HtStateFollowsTable :
    (∃ t, exec .htInit (idle [readOk false 0x5F 0x0F 0xBC]) = .next t ∧ t.htState = .inited) ∧
    (∃ t, exec .htAct (inited (actScript defaultCalMap 0 0 p1Bytes)) = .next t ∧ t.htState = .active) ∧
    (∃ t, exec .htAct (active .inf (failAt (actScript defaultCalMap 0 0 p1Bytes) 0)) = .next t ∧ t.htState = .inited) ∧
    (∃ t, exec .htPdown (inited (rmwScript 0x5F 0x20 0 0 0)) = .next t ∧ t.htState = .pdown) ∧
    ∃ t, exec .htRdh (inited []) = .next t ∧ t.htState = .inited :=
  ⟨⟨_, rfl, rfl⟩, ⟨_, rfl, rfl⟩, ⟨_, rfl, rfl⟩, ⟨_, rfl, rfl⟩, _, rfl, rfl⟩

/-- `CAL` kept, emptied and populated. -/
theorem test_hyp_OnlyActivationPopulatesCal :
    (∃ t, exec .htRdh (inited []) = .next t ∧ t.cal = Cal.empty) ∧
    (∃ t, exec .htPdown (active .inf (rmwScript 0x5F 0x20 0 0 0)) = .next t ∧ t.cal = Cal.empty) ∧
    ∃ t, exec .htAct (inited (actScript defaultCalMap 0 0 p1Bytes)) = .next t ∧ t.cal = p1Cal :=
  ⟨⟨_, rfl, rfl⟩, ⟨_, rfl, rfl⟩, _, rfl, rfl⟩

theorem test_hyp_ReadsAndPtCommandsKeepHtUnit :
    (∃ t, exec .ptIdent (active .inf [readOk false 0x5D 0x0F 0xBD]) = .next t) ∧
    (∃ t, exec .htRdh (active .inf [readOk false 0x5F 0x27 0]) = .next t) ∧
    (polling .temp (.reads 2) 2 []).Polling .temp ∧ ∃ t, step (polling .temp (.reads 2) 2 []) = .next t :=
  ⟨⟨_, rfl⟩, ⟨_, rfl⟩, polling_polling _ _ _ _, _, rfl⟩

/-- The same bus, parameters and history, `UNINIT` with an empty `CAL` beside `ACTIVE` with a full one. -/
theorem test_hyp_PtCommandsIgnoreHtUnit :
    let s := active .inf [readOk false 0x5D 0x0F 0xBD]
    let s' : State := { s with htState := .uninit, cal := Cal.empty }
    s.Idle ∧ s'.Idle ∧ s.answers = s'.answers ∧ s.events = s'.events ∧ s.params = s'.params ∧
      ∃ t, exec .ptIdent s = .next t :=
  ⟨⟨rfl, rfl, rfl⟩, ⟨rfl, rfl, rfl⟩, rfl, rfl, rfl, _, rfl⟩

/-- A command that ends in its first step, a poll that ends at its limit, and the two stops of the host's read. -/
theorem test_hyp_FinishedCommandLeavesIdleBlock :
    ((idle []).Idle ∧ ∃ t, exec .htAct (idle []) = .next t ∧ t.busy = false) ∧
    ((polling .hum (.reads 1) 1 []).Polling .hum ∧ ∃ t, step (polling .hum (.reads 1) 1 []) = .next t ∧ t.busy = false) ∧
    (polling .hum .inf 0 []).busy = true ∧ State.reset.busy = false ∧ State.reset.res.status = none :=
  ⟨⟨idle_idle _, _, rfl, rfl⟩, ⟨polling_polling _ _ _ _, _, rfl, rfl⟩, rfl, rfl, rfl⟩

/-! ## The transaction level -/

/-- PT.INIT, word 0x00, on CMD of an idle block at the transaction level. -/
def initBlock : Block := ⟨presentWord 0x00 (idle (rmwScript 0x5D 0x20 0x04 0xB4 0)), [], Working.none⟩

/-- 40_pressure_temp.md rule R104: acceptance, `LOCK <- 1` and the read leave BUSY and LOCK 1, one transaction made. -/
theorem test_block_inside_critical_section : ∃ c, transactionCore.run 3 initBlock = .next c ∧
    c.state.busy = true ∧ c.state.lock = true ∧ c.state.events = [readOk true 0x5D 0x20 0x04] ∧ c.work.old = 0x04 :=
  ⟨_, rfl, rfl, rfl, rfl, rfl⟩

/-- The write, `LOCK <- 0` and the `finish` end it: `old = 0x04` gives the write of 0xB4. -/
theorem test_block_ends : ∃ c, transactionCore.run 6 initBlock = .next c ∧ c.state.busy = false ∧ c.todo = [] ∧
    c.state.res = ⟨some .ok, none, none⟩ ∧ c.state.events = rmwScript 0x5D 0x20 0x04 0xB4 0 :=
  ⟨_, rfl, rfl, rfl, rfl, rfl⟩

/-- One step of each kind: acceptance, a state update, a transaction, and a delivery. -/
theorem test_hyp_BlockStepIsOneTransactionUpdateOrResult :
    (∃ c, blockStep initBlock = .next c) ∧ (∃ c, blockStep ⟨idle [], [.lock true], Working.none⟩ = .next c) ∧
    (∃ c, blockStep ⟨idle [], [.read 0x5D 0x0F .b], Working.none⟩ = .next c) ∧
    ∃ c, blockStep ⟨idle [], [.finish .done], Working.none⟩ = .next c :=
  ⟨⟨_, rfl⟩, ⟨_, rfl⟩, ⟨_, rfl⟩, _, rfl⟩

/-- An idle block with a command before it, and a block at the head of a poll. -/
theorem test_hyp_TransactionStepsMakeEachStep (w : Working) :
    (initBlock.AtRest ∧ ∃ t, step initBlock.state = .next t) ∧
    Block.AtRest ⟨polling .hum .inf 0 [readOk false 0x5F 0x27 0], pollLines .hum, w⟩ :=
  ⟨⟨.inl ⟨⟨rfl, rfl, rfl⟩, rfl⟩, _, rfl⟩, .inr ⟨.hum, polling_polling _ _ _ _, rfl⟩⟩

/-- Idle; inside a critical section before its last read, which fails in the next step; after its first read has failed, with
LOCK still to be cleared; and after a status read has failed, with LOCK 0. -/
theorem test_hyp_BlockStepKeepsCriticalSections :
    (initBlock.Inv ∧ ∃ c, blockStep initBlock = .next c) ∧
    (∃ b c : Block, b.Inv ∧ b.state.lock = true ∧ blockStep b = .next c ∧
      c.state.events = b.state.events ++ [failEvent (readOk true 0x5F 0x29 0)]) ∧
    Block.Inv ⟨{ polling .hum .inf 1 [] with lock := true, events := [failEvent (readOk true 0x5F 0x28 0)] },
      [.finish (.raise .transportErr)], Working.none⟩ ∧
    Block.Inv ⟨{ polling .hum .inf 1 [] with events := [failEvent (readOk false 0x5F 0x27 0)] },
      [.finish (.raise .transportErr)], Working.none⟩ := by
  have hB : ∀ {s : State} {e : Event}, s.events = [e] → eventInMap s.params.calMap e = true → s.BusInv := by
    intro s e hs he x hx
    rw [hs, List.mem_singleton] at hx
    exact hx ▸ he
  exact ⟨⟨⟨nofun, .inl ⟨⟨rfl, rfl, rfl⟩, rfl⟩⟩, _, rfl⟩,
    ⟨⟨{ polling .hum .inf 1 [] with lock := true, answers := [.error], events := [readOk true 0x5F 0x28 0] },
      [.read 0x5F 0x29 .hi, .lock false, .spanCheck .hum, .finish (.interp .hum)], Working.none⟩, _,
      ⟨hB rfl rfl, .inr (.inl ⟨.htRdh, .inside (readsOf 0x5F [0x28]) (readsOf 0x5F [0x29]), rfl, rfl,
        ⟨rfl, List.mem_singleton.2 rfl, [], _, rfl, rfl, by simp [readOk]⟩, rfl⟩)⟩, rfl, rfl, rfl⟩,
    ⟨hB rfl rfl, .inr (.inr ⟨.htRdh, .inside [] (readsOf 0x5F [0x28, 0x29]), rfl, rfl,
      ⟨[], _, rfl, rfl, rfl, rfl, rfl, List.mem_singleton.2 rfl, [], [], rfl, rfl, nofun⟩, nofun, [], rfl⟩)⟩,
    ⟨hB rfl rfl, .inr (.inr ⟨.htRdh, .outside, rfl, rfl, ⟨[], _, rfl, rfl, rfl, rfl, rfl⟩, nofun, [], rfl⟩)⟩⟩

/-- 10_state.md rule R29: LOCK 1 after a failed status read, which no critical section has, and LOCK 0 after a failed read of
one. -/
theorem test_failed_lock (w : Working) :
    ¬ Block.Inv ⟨{ polling .hum .inf 1 [] with lock := true, events := [failEvent (readOk false 0x5F 0x27 0)] },
      [.finish (.raise .transportErr)], w⟩ ∧
    ¬ Block.Inv ⟨{ polling .hum .inf 1 [] with events := [failEvent (readOk true 0x5F 0x28 0)] },
      [.finish (.raise .transportErr)], w⟩ := by
  constructor <;> rintro ⟨-, ⟨h, -⟩ | ⟨i, p, -, -, -, h⟩ | ⟨i, p, -, -, ⟨before, e, h, -, hl, -⟩, -⟩⟩
  case left.inl | right.inl => cases h.1
  case left.inr.inl | right.inr.inl => cases h
  all_goals
    obtain ⟨-, h⟩ := List.append_inj' (s₁ := []) h rfl
    cases h
    cases hl

/-- 20_memory.md rule R52: LOCK dropped between the read and the write of a read-modify-write, LOCK held past the last read of
a fetch, and two calibration pairs in one section are all refused. -/
theorem test_linesFit_refuses :
    linesFit defaultCalMap .ptInit .outside [.lock true, .read 0x5D 0x20 .old, .lock false, .lock true,
      .write 0x5D 0x20 0xB0 0, .lock false, .finish .done] = false ∧
    linesFit defaultCalMap .htRdh .outside [.lock true, .read 0x5F 0x28 .lo, .read 0x5F 0x29 .hi, .spanCheck .hum,
      .lock false, .finish (.interp .hum)] = false ∧
    linesFit defaultCalMap .htRdh .outside [.lock true, .read 0x5F 0x28 .lo, .read 0x5F 0x29 .hi, .spanCheck .hum,
      .finish (.interp .hum)] = false ∧
    linesFit defaultCalMap .htAct .outside [.lock true, .read 0x5F 0x36 (.cal .ho0 false), .read 0x5F 0x37 (.cal .ho0 true),
      .read 0x5F 0x3A (.cal .ho1 false), .read 0x5F 0x3B (.cal .ho1 true), .lock false, .finish .done] = false := by decide

/-- The widest humidity and temperature operands, and the span 1. -/
theorem test_hyp_interpOperands : InterpOperands 65535 65535 0 1023 0 ⟨80, 1⟩ ∧ InterpOperands 0 0 65535 0 255 ⟨2, 0⟩ ∧
    InterpOperands 1 0 1 0 1 ⟨80, 1⟩ := by
  unfold InterpOperands; decide

theorem test_hyp_InterpolationInRationals : InterpOperands 65535 65535 0 1023 0 ⟨80, 1⟩ := test_hyp_interpOperands.1

/-- The first operand is `out0`. -/
theorem test_hyp_InterpolationExactAtPoints : InterpOperands 0 0 65535 0 255 ⟨2, 0⟩ := test_hyp_interpOperands.2.1

/-- A rising, a falling and a flat line. -/
theorem test_hyp_InterpolationStrictlyMonotoneInRationals :
    InterpOperands 0 256 768 160 280 ⟨80, 1⟩ ∧ (0 : Int) < 1 ∧ (0 : Int) < (280 - 160) * (768 - 256) ∧
    InterpOperands 0 256 768 280 160 ⟨80, 1⟩ ∧ ((160 - 280) * (768 - 256) : Int) < 0 ∧
    InterpOperands 0 300 1000 200 200 ⟨80, 1⟩ := by
  unfold InterpOperands; decide

theorem test_hyp_InterpolationMonotoneInBinary64 :
    InterpOperands 0 256 768 160 280 ⟨80, 1⟩ ∧ InterpOperands 65535 256 768 160 280 ⟨80, 1⟩ ∧ (0 : Int) ≤ 65535 ∧
    (0 : Int) ≤ (280 - 160) * (768 - 256) ∧ InterpOperands 5 0 7 255 0 ⟨2, 0⟩ ∧ ((0 - 255) * (7 - 0) : Int) ≤ 0 := by
  unfold InterpOperands; decide

theorem test_hyp_InterpolationPointsMaySwap : InterpOperands 65535 65535 0 1023 0 ⟨80, 1⟩ := test_hyp_interpOperands.1

theorem test_hyp_InterpolationRoundingBound : InterpOperands 65535 65535 0 1023 0 ⟨80, 1⟩ := test_hyp_interpOperands.1

end Sys2Proof.Tests
end

section
/-! PROOFS. The registers HT.CAL reads (42_calibration_unpack.md rule R146), and the block after reset. -/

namespace Sys2Proof.Machine

/-- The registers of one calibration item (20_memory.md rule R43). -/
def itemRegs (m : CalMap) (i : CalItem) : List Byte :=
  if calItemPaired i then [calItemAddr m i, calItemAddr m i + 1] else [calItemAddr m i]

theorem itemScript_regs (m : CalMap) (r : CalBytes) (i : CalItem) :
    (itemScript m r i).map eventReg = itemRegs m i := by
  cases i <;> rfl

theorem calScript_regs (m : CalMap) (r : CalBytes) :
    (calScript m r).map eventReg = (calOrder m).flatMap (itemRegs m) := by
  rw [calScript, List.map_flatMap]
  exact congrArg (fun f => (calOrder m).flatMap f) (funext (itemScript_regs m r))

theorem calOrder_regs_perm (m : CalMap) : ((calOrder m).flatMap (itemRegs m)).Perm m.locations :=
  (calOrder_perm m).flatMap_right (itemRegs m)

theorem mem_itemRegs {m : CalMap} {i : CalItem} {x : Byte} (h : x ∈ itemRegs m i) :
    x = calItemAddr m i ∨ x = calItemAddr m i + 1 := by
  rw [itemRegs] at h
  split at h <;> simp_all

theorem calItemAddr_mem_itemRegs (m : CalMap) (i : CalItem) : calItemAddr m i ∈ itemRegs m i := by
  rw [itemRegs]
  split <;> simp

theorem calItemAddr_le {m : CalMap} (h : m.wellFormed = true) (i : CalItem) : calItemAddr m i ≤ 0x3F#8 := by
  rw [CalMap.wellFormed, Bool.and_eq_true, List.all_eq_true] at h
  have hm : calItemAddr m i ∈ m.locations := by cases i <;> simp [CalMap.locations, calItemAddr]
  have hr := h.1 _ hm
  rw [Bool.and_eq_true] at hr
  exact of_decide_eq_true hr.2

/-- Of two items of an allowed map, the one at the lower address has all its registers below those of the other. -/
theorem itemRegs_lt {m : CalMap} (h : m.wellFormed = true) {i j : CalItem} (hij : calItemAddr m i ≤ calItemAddr m j)
    (hne : ∀ x ∈ itemRegs m i, ∀ y ∈ itemRegs m j, x ≠ y) :
    ∀ x ∈ itemRegs m i, ∀ y ∈ itemRegs m j, x < y := by
  intro x hx y hy
  have hj := calItemAddr_mem_itemRegs m j
  have hij' := hne _ (calItemAddr_mem_itemRegs m i) _ hj
  have hxj := hne _ hx _ hj
  have h1 := calItemAddr_le h i
  have h2 := calItemAddr_le h j
  rcases mem_itemRegs hx with rfl | rfl <;> rcases mem_itemRegs hy with rfl | rfl <;> bv_omega

theorem itemRegs_ascend {m : CalMap} (h : m.wellFormed = true) (i : CalItem) :
    (itemRegs m i).Pairwise (· < ·) := by
  have h1 := calItemAddr_le h i
  rw [itemRegs]
  split
  · simp only [List.pairwise_pair]; bv_omega
  · exact List.pairwise_singleton _ _

theorem calOrder_regs_ascend {m : CalMap} (h : m.wellFormed = true) :
    ((calOrder m).flatMap (itemRegs m)).Pairwise (· < ·) := by
  have hnd : ((calOrder m).flatMap (itemRegs m)).Nodup := by
    rw [(calOrder_regs_perm m).nodup_iff]
    exact of_decide_eq_true (Bool.and_eq_true _ _ ▸ h).2
  have hne := (List.pairwise_flatMap.1 hnd).2
  exact List.pairwise_flatMap.2 ⟨fun i _ => itemRegs_ascend h i,
    (calOrder_sorted m).imp₂ (fun _ _ hij hne => itemRegs_lt h hij hne) hne⟩

theorem calOrder_defaultCalMap : calOrder defaultCalMap = calItems := by decide

end Sys2Proof.Machine

open Sys2Proof Sys2Proof.Machine

/-- Settles O20: the items stand in ascending address, and their registers are distinct. -/
theorem calibrationReadsAscend : Obligations.CalibrationReadsAscend := by
  intro m r h
  rw [calScript_regs]
  exact ⟨calOrder_regs_ascend h, calOrder_regs_perm m⟩

/-- Settles O19: the default addresses ascend in the order of `calItems`. -/
theorem defaultCalibrationReads : Obligations.DefaultCalibrationReads := by
  intro r
  rw [calScript, calOrder_defaultCalMap]
  rfl

/-- Settles O31: nothing has been made or delivered, and either choice of the open `POLL_LIMIT` is allowed. -/
theorem resetMeetsBlockInvariant : Obligations.ResetMeetsBlockInvariant := by
  have hbus : State.reset.BusInv := fun e he => absurd he List.not_mem_nil
  have hpoll : Config.pollLimit.wellFormed = true := by
    unfold Config.pollLimit
    cases Config.pollLimitChoice with
    | none => rfl
    | some n => exact decide_eq_true n.succ_pos
  refine ⟨⟨rfl, rfl, .inl ⟨rfl, rfl⟩⟩, hbus, ⟨rfl, fun v hv => by cases hv⟩, ⟨hbus, .inl ⟨⟨rfl, rfl, rfl⟩, rfl⟩⟩, ?_⟩
  exact Bool.and_eq_true _ _ ▸ ⟨hpoll, by decide⟩
end

section
/-! PROOFS. One step of the transaction level (00_scope.md rule R2). -/

namespace Sys2Proof.Machine

/-! ## Everything one line can do -/

/-- The access a line makes. -/
def Line.access : Line → Option Access
  | .read dev reg _ => some ⟨false, dev, reg⟩
  | .write dev reg _ _ => some ⟨true, dev, reg⟩
  | _ => none

/-- A line that neither moves LOCK, nor goes over the bus, nor ends the command. -/
def Line.isLocal : Line → Bool
  | .lock _ => false
  | .read _ _ _ => false
  | .write _ _ _ _ => false
  | .finish _ => false
  | _ => true

/-- At most one of `CAL`, `HT_STATE` and `POLLCNT` is written. -/
inductive State.LocalUpdate (s : State) : State → Prop
  | same : s.LocalUpdate s
  | cal (k : Cal) : s.LocalUpdate (s.setCal k)
  | htState (h : HtState) : s.LocalUpdate (s.setHtState h)
  | pollCnt (n : Nat) : s.LocalUpdate (s.setPollCnt n)

/-- What a line can do in a block whose remaining lines are those after it. -/
inductive LineStep (b : Block) : Line → Block → Prop
  | ended {l : Line} (st : Status) (byte : Option Byte) (value : Option FNum) :
      LineStep b l (Block.ended (b.state.finish st byte value))
  | answered {l : Line} (e : Event) (w : Working) (hl : l.access = some (eventAccess e))
      (hlock : e.lock = b.state.lock) (ha : e.answer = nextAnswer b.state.answers b.state.events e.txn)
      (hok : e.answer ≠ .error) : LineStep b l ⟨b.state.afterScript [e], b.todo, w⟩
  | failed {l : Line} (e : Event) (hl : l.access = some (eventAccess e))
      (hlock : e.lock = b.state.lock) (ha : e.answer = nextAnswer b.state.answers b.state.events e.txn)
      (herr : e.answer = .error) : LineStep b l ⟨b.state.afterScript [e], errorLines b.state.running, b.work⟩
  | lock (on : Bool) : LineStep b (.lock on) { b with state := b.state.setLock on }
  | updated {l : Line} {t : State} (hl : l.isLocal = true) (hu : b.state.LocalUpdate t) :
      LineStep b l { b with state := t }
  | again (ch : Channel) (n : Nat) :
      LineStep b (.pollCount ch) { b with state := b.state.setPollCnt n, todo := pollLines ch }

theorem lineStep_of_deliverResult {b c : Block} {l : Line} {d : Delivery}
    (h : deliverResult d b.work b.state = .next c) : LineStep b l c := by
  obtain ⟨st, byte, value, rfl⟩ := deliverResult_next h
  exact .ended st byte value

theorem lineStep_read (b : Block) (dev reg : Byte) (v : Slot) :
    LineStep b (.read dev reg v) (b.answered (busRead dev reg b.state) fun x => b.work.put v x) := by
  rcases busRead_cases dev reg b.state with ⟨x, hp, h⟩ | ⟨hp, h⟩ <;> rw [h]
  · exact .answered _ _ rfl rfl ((plays_cons _ _ _).1 hp).1.symm nofun
  · exact .failed _ rfl rfl ((plays_cons _ _ _).1 hp).1.symm rfl

theorem lineStep_write (b : Block) (dev reg setm clrm : Byte) :
    LineStep b (.write dev reg setm clrm)
      (b.answered (busWrite dev reg (rmwByte b.work.old setm clrm) b.state) fun _ => b.work) := by
  rcases busWrite_cases dev reg (rmwByte b.work.old setm clrm) b.state with ⟨x, hp, h⟩ | ⟨hp, h⟩ <;> rw [h]
  · exact .answered _ _ rfl rfl ((plays_cons _ _ _).1 hp).1.symm nofun
  · exact .failed _ rfl rfl ((plays_cons _ _ _).1 hp).1.symm rfl

/-- A line that answers a next block makes one of the steps of `LineStep`. -/
theorem runLine_lineStep {l : Line} {b c : Block} (h : runLine l b = .next c) : LineStep b l c := by
  cases l <;> simp only [runLine] at h
  case require states =>
    split at h
    · cases h; exact .updated rfl .same
    · exact lineStep_of_deliverResult h
  case lock on => cases h; exact .lock on
  case read dev reg v => cases h; exact lineStep_read b dev reg v
  case write dev reg setm clrm => cases h; exact lineStep_write b dev reg setm clrm
  case emptyCal => cases h; exact .updated rfl (.cal _)
  case setState hs => cases h; exact .updated rfl (.htState _)
  case initState => cases h; exact .updated rfl (.htState _)
  case unlessReady bit e =>
    split at h
    · cases h; exact .updated rfl .same
    · exact lineStep_of_deliverResult h
  case pollClear => cases h; exact .updated rfl (.pollCnt 0)
  case pollCheck =>
    split at h
    · exact lineStep_of_deliverResult h
    · cases h; exact .updated rfl .same
  case pollCount ch =>
    cases h
    split
    · exact .updated rfl (.pollCnt _)
    · exact .again ch _
  case calWrite n => cases h; exact .updated rfl (.cal _)
  case spanCheck ch =>
    split at h
    · cases h
    · split at h
      · exact lineStep_of_deliverResult h
      · cases h; exact .updated rfl .same
  case finish d => exact lineStep_of_deliverResult h

/-! ## A step of the block -/

/-- Everything an idle block finds on CMD. -/
theorem fetchCommand_cases (s : State) :
    fetchCommand s = .waiting ∨ ∃ w rest, s.cmd = w :: rest ∧
      ((∃ i, decode w = some i ∧ fetchCommand s = .command i (s.setCmd rest)) ∨
        (decode w = none ∧ fetchCommand s = .illegal (s.setCmd rest))) := by
  unfold fetchCommand
  cases s.cmd with
  | nil => exact .inl rfl
  | cons w rest =>
    refine .inr ⟨w, rest, rfl, ?_⟩
    cases hd : decode w with
    | some i => exact .inl ⟨i, rfl, by simp only [hd]⟩
    | none => exact .inr ⟨rfl, by simp only [hd]⟩

/-- Everything a step of the block can do: the next line, waiting, the acceptance of a command word, or the refusal of an
illegal one. -/
theorem blockStep_cases {b c : Block} (h : blockStep b = .next c) :
    (∃ l rest, b.todo = l :: rest ∧ LineStep { b with todo := rest } l c) ∨
    (b.state.busy = false ∧ c = b) ∨
    ∃ w rest, b.state.busy = false ∧ b.state.cmd = w :: rest ∧
      ((∃ i, decode w = some i ∧ c = Block.begin i (b.state.setCmd rest)) ∨
        c = Block.ended (illegalCommand (b.state.setCmd rest))) := by
  rw [blockStep] at h
  split at h
  · rename_i l rest hl
    exact .inl ⟨l, rest, hl, runLine_lineStep h⟩
  · split at h
    · cases h
    · rename_i hb
      rw [Bool.not_eq_true] at hb
      rcases fetchCommand_cases b.state with hf | ⟨w, rest, hc, ⟨i, hd, hf⟩ | ⟨-, hf⟩⟩ <;> rw [hf] at h <;> cases h
      · exact .inr (.inl ⟨hb, rfl⟩)
      · exact .inr (.inr ⟨w, rest, hb, hc, .inl ⟨i, hd, rfl⟩⟩)
      · exact .inr (.inr ⟨w, rest, hb, hc, .inr rfl⟩)

/-! ## A transport error -/

/-- A step that extends the history by a failed transaction leaves LOCK as that was made with, and the lines that handle the
error (20_memory.md rule R51). -/
theorem blockStep_failed {b c : Block} (h : blockStep b = .next c) {e : Event}
    (he : c.state.events = b.state.events ++ [e]) (herr : e.answer = .error) :
    e.lock = b.state.lock ∧ c.state.lock = b.state.lock ∧ c.todo = errorLines b.state.running := by
  have hno (h : b.state.events = b.state.events ++ [e]) : False := by simp at h
  rcases blockStep_cases h with ⟨l, rest, -, hs⟩ | ⟨-, rfl⟩ | ⟨w, rest, -, -, ⟨i, -, rfl⟩ | rfl⟩
  · cases hs with
    | answered e' w hl hlock ha hok =>
      obtain rfl : e' = e := by simpa using he
      exact absurd herr hok
    | failed e' hl hlock ha herr' =>
      obtain rfl : e' = e := by simpa using he
      exact ⟨hlock, rfl, rfl⟩
    | updated hl hu => cases hu <;> exact (hno he).elim
    | ended => exact (hno he).elim
    | lock => exact (hno he).elim
    | again => exact (hno he).elim
  all_goals exact (hno he).elim

end Sys2Proof.Machine

open Sys2Proof Sys2Proof.Machine

/-- Settles O53: a line makes one of the steps of `LineStep`, and an idle block waits, accepts a word or refuses one. -/
theorem blockStepIsOneTransactionUpdateOrResult : Obligations.BlockStepIsOneTransactionUpdateOrResult := by
  intro b c h
  rcases blockStep_cases h with ⟨l, rest, -, hs⟩ | ⟨-, rfl⟩ | ⟨w, rest, hb, hc, ⟨i, hd, rfl⟩ | rfl⟩
  · cases hs with
    | ended st byte value => exact .inr (.inr (.inr (.inr (.inr (.inr ⟨st, byte, value, _, .inl rfl, rfl, rfl⟩)))))
    | answered e w hl hlock ha hok => exact .inl ⟨e, hlock, ha, rfl⟩
    | failed e hl hlock ha herr => exact .inl ⟨e, hlock, ha, rfl⟩
    | lock on => exact .inr (.inr (.inr (.inl ⟨on, rfl⟩)))
    | updated hl hu =>
      cases hu with
      | same => exact .inr (.inl ⟨b.state.cal, rfl⟩)
      | cal k => exact .inr (.inl ⟨k, rfl⟩)
      | htState k => exact .inr (.inr (.inl ⟨k, rfl⟩))
      | pollCnt n => exact .inr (.inr (.inr (.inr (.inl ⟨n, rfl⟩))))
    | again ch n => exact .inr (.inr (.inr (.inr (.inl ⟨n, rfl⟩))))
  · exact .inr (.inl ⟨c.state.cal, rfl⟩)
  · exact .inr (.inr (.inr (.inr (.inr (.inl ⟨w, rest, i, hc, hd, hb, rfl⟩)))))
  · exact .inr (.inr (.inr (.inr (.inr (.inr ⟨.illegalCmd, none, none, rest, .inr ⟨rfl, w, hc⟩, rfl, rfl⟩)))))
end

section
/-! PROOFS. LOCK and the critical sections at every instant (20_memory.md rules R51 and R52). -/

namespace Sys2Proof.Machine

/-! ## Where a line leads -/

theorem LockPlace.line_of_isLocal {m : CalMap} {i : Instr} {l : Line} {rest : List Line} {p q : LockPlace}
    (hl : l.isLocal = true) (h : p.line m i l rest = some q) : q = p := by
  have hfree (h : p.free = some q) : q = p := by
    obtain ⟨rfl, rfl⟩ := LockPlace.free_eq_some h
    rfl
  cases l <;> simp only [LockPlace.line] at h
  case lock => cases hl
  case read => cases hl
  case write => cases hl
  case finish => cases hl
  case emptyCal => exact LockPlace.update_eq_some h
  case setState => exact LockPlace.update_eq_some h
  case pollCount =>
    split at h
    · exact hfree h
    · cases h
  all_goals exact hfree h

theorem LockPlace.line_of_access {m : CalMap} {i : Instr} {l : Line} {rest : List Line} {p : LockPlace} {a : Access}
    (hl : l.access = some a) : p.line m i l rest = p.access m i a := by
  cases l <;> cases hl <;> rfl

theorem LockPlace.line_pollCount {m : CalMap} {i : Instr} {ch : Channel} {rest : List Line} {p q : LockPlace}
    (h : p.line m i (.pollCount ch) rest = some q) : i = channelInstr ch ∧ p = .outside := by
  simp only [LockPlace.line] at h
  split at h
  · exact ⟨‹_›, (LockPlace.free_eq_some h).1⟩
  · cases h

theorem lockAt_setLock {s : State} {i : Instr} {on : Bool} {rest : List Line} {p q : LockPlace}
    (h : p.line s.params.calMap i (.lock on) rest = some q) : (s.setLock on).LockAt i q := by
  cases on with
  | true =>
    cases p with
    | inside => cases h
    | outside =>
      simp only [LockPlace.line, if_true, LockPlace.opened] at h
      split at h
      · rename_i hm
        cases h
        exact ⟨rfl, hm, s.events, [], (List.append_nil _).symm, rfl, nofun⟩
      · cases h
  | false =>
    rcases p with _ | ⟨done, _ | ⟨a, left⟩⟩ <;> cases h
    rfl

theorem State.LocalUpdate.busInv {s t : State} (hu : s.LocalUpdate t) (h : s.BusInv) : t.BusInv := by
  cases hu <;> exact h

theorem State.LocalUpdate.busy {s t : State} (hu : s.LocalUpdate t) : t.busy = s.busy := by
  cases hu <;> rfl

theorem State.LocalUpdate.running {s t : State} (hu : s.LocalUpdate t) : t.running = s.running := by
  cases hu <;> rfl

theorem State.LocalUpdate.params {s t : State} (hu : s.LocalUpdate t) : t.params = s.params := by
  cases hu <;> rfl

theorem State.LocalUpdate.lockAt {s t : State} (hu : s.LocalUpdate t) {i : Instr} {p : LockPlace} (h : s.LockAt i p) :
    t.LockAt i p := by
  cases hu <;> cases p <;> exact h

theorem State.LocalUpdate.failedAt {s t : State} (hu : s.LocalUpdate t) {i : Instr} {p : LockPlace}
    (h : s.FailedAt i p) : t.FailedAt i p := by
  cases hu <;> exact h

/-! ## The invariant -/

/-- A block inside command `i` whose remaining lines fit: the second case of `Block.Inv`. -/
def Block.Fits (i : Instr) (b : Block) : Prop :=
  ∃ p, b.state.busy = true ∧ b.state.running = some i ∧ b.state.LockAt i p ∧
    linesFit b.state.params.calMap i p b.todo = true

/-- A block whose last transaction failed in command `i`: the third case of `Block.Inv`. -/
def Block.Failed (i : Instr) (b : Block) : Prop :=
  ∃ p, b.state.busy = true ∧ b.state.running = some i ∧ b.state.FailedAt i p ∧
    b.todo ≠ [] ∧ b.todo <:+ errorLines (some i)

theorem Block.inv_iff (b : Block) :
    b.Inv ↔ b.state.BusInv ∧ ((b.state.Idle ∧ b.todo = []) ∨ (∃ i, b.Fits i) ∨ ∃ i, b.Failed i) := Iff.rfl

theorem Block.Fits.inv {i : Instr} {b : Block} (h : b.Fits i) (hb : b.state.BusInv) : b.Inv := ⟨hb, .inr (.inl ⟨i, h⟩)⟩

theorem Block.Failed.inv {i : Instr} {b : Block} (h : b.Failed i) (hb : b.state.BusInv) : b.Inv :=
  ⟨hb, .inr (.inr ⟨i, h⟩)⟩

theorem ended_inv {s : State} (hb : s.BusInv) (st : Status) (byte : Option Byte) (value : Option FNum) :
    (Block.ended (s.finish st byte value)).Inv := ⟨hb, .inl ⟨⟨rfl, rfl, rfl⟩, rfl⟩⟩

theorem begin_fits {s : State} (hl : s.lock = false) {i : Instr} (hi : i ≠ .htCal) : (Block.begin i s).Fits i :=
  ⟨.outside, rfl, rfl, hl, commandLines_fit _ hi⟩

theorem busInv_afterScript {s : State} (hb : s.BusInv) {e : Event} (he : eventInMap s.params.calMap e = true) :
    (s.afterScript [e]).BusInv := by
  intro x hx
  rcases List.mem_append.1 hx with hx | hx
  · exact hb x hx
  · rw [List.mem_singleton.1 hx]
    exact he

/-- A line of a command whose remaining lines fit keeps the invariant. -/
theorem Block.Fits.step {i : Instr} {b c : Block} {l : Line} {rest : List Line} (h : b.Fits i) (hb : b.state.BusInv)
    (ht : b.todo = l :: rest) (hs : LineStep { b with todo := rest } l c) : c.Inv := by
  obtain ⟨p, hbusy, hrun, hat, hfit⟩ := h
  rw [ht] at hfit
  rcases linesFit_cases hfit with ⟨d, rfl, rfl⟩ | ⟨q, hq, hrest⟩
  · cases hs with
    | ended st byte value => exact ended_inv hb st byte value
    | answered e w hl => cases hl
    | failed e hl => cases hl
    | updated hl => cases hl
  · cases hs with
    | ended st byte value => exact ended_inv hb st byte value
    | answered e w hl hlock ha hok =>
      rw [LockPlace.line_of_access hl] at hq
      obtain ⟨hmap, hmade, -⟩ := lockAt_access hat hlock hq
      exact Block.Fits.inv ⟨q, hbusy, hrun, hmade hok, hrest⟩ (busInv_afterScript hb hmap)
    | failed e hl hlock ha herr =>
      rw [LockPlace.line_of_access hl] at hq
      obtain ⟨hmap, -, hfailed⟩ := lockAt_access hat hlock hq
      exact Block.Failed.inv ⟨p, hbusy, hrun, hfailed herr, errorLines_ne_nil _, hrun ▸ List.suffix_rfl⟩
        (busInv_afterScript hb hmap)
    | lock on => exact Block.Fits.inv ⟨q, hbusy, hrun, lockAt_setLock hq, hrest⟩ hb
    | updated hl hu =>
      obtain rfl := LockPlace.line_of_isLocal hl hq
      exact Block.Fits.inv ⟨q, hu.busy.trans hbusy, hu.running.trans hrun, hu.lockAt hat, hu.params ▸ hrest⟩
        (hu.busInv hb)
    | again ch n =>
      obtain ⟨rfl, rfl⟩ := LockPlace.line_pollCount hq
      exact Block.Fits.inv ⟨.outside, hbusy, hrun, hat, pollLines_fit _ ch⟩ hb

/-- The lines that handle a transport error: its `finish`, or an update before it. -/
theorem errorLines_suffix {r : Option Instr} {l : Line} {rest : List Line} (h : l :: rest <:+ errorLines r) :
    (∃ d, l = .finish d) ∨ rest ≠ [] ∧ (l = .emptyCal ∨ l = .setState .inited) := by
  rw [errorLines] at h
  split at h <;> simp only [List.suffix_cons_iff, List.suffix_nil, List.cons.injEq] at h
  · rcases h with ⟨rfl, rfl⟩ | ⟨rfl, rfl⟩ | ⟨rfl, -⟩ | h
    · exact .inr ⟨List.cons_ne_nil _ _, .inl rfl⟩
    · exact .inr ⟨List.cons_ne_nil _ _, .inr rfl⟩
    · exact .inl ⟨_, rfl⟩
    · cases h
  · rcases h with ⟨rfl, -⟩ | h
    · exact .inl ⟨_, rfl⟩
    · cases h

/-- A line that handles a transport error keeps the invariant. -/
theorem Block.Failed.step {i : Instr} {b c : Block} {l : Line} {rest : List Line} (h : b.Failed i) (hb : b.state.BusInv)
    (ht : b.todo = l :: rest) (hs : LineStep { b with todo := rest } l c) : c.Inv := by
  obtain ⟨p, hbusy, hrun, hat, -, hsuf⟩ := h
  rw [ht] at hsuf
  have hupdate {t : State} (hu : b.state.LocalUpdate t) (hrest : rest ≠ []) : Block.Inv ⟨t, rest, b.work⟩ :=
    Block.Failed.inv ⟨p, hu.busy.trans hbusy, hu.running.trans hrun, hu.failedAt hat, hrest,
      (List.suffix_cons l rest).trans hsuf⟩ (hu.busInv hb)
  rcases errorLines_suffix hsuf with ⟨d, rfl⟩ | ⟨hrest, rfl | rfl⟩
  · cases hs with
    | ended st byte value => exact ended_inv hb st byte value
    | answered e w hl => cases hl
    | failed e hl => cases hl
    | updated hl => cases hl
  all_goals
    cases hs with
    | ended st byte value => exact ended_inv hb st byte value
    | answered e w hl => cases hl
    | failed e hl => cases hl
    | updated hl hu => exact hupdate hu hrest

theorem blockStep_inv {b c : Block} (hinv : b.Inv) (h : blockStep b = .next c) : c.Inv := by
  obtain ⟨hb, hcases⟩ := b.inv_iff.1 hinv
  rcases blockStep_cases h with ⟨l, rest, ht, hs⟩ | ⟨-, rfl⟩ | ⟨w, rest, hbusy, -, hdec⟩
  · rcases hcases with ⟨-, hnil⟩ | ⟨i, hfit⟩ | ⟨i, hfailed⟩
    · rw [hnil] at ht; cases ht
    · exact hfit.step hb ht hs
    · exact hfailed.step hb ht hs
  · exact hinv
  · rcases hcases with ⟨⟨-, hlock, -⟩, -⟩ | ⟨i, p, htrue, -⟩ | ⟨i, p, htrue, -⟩
    · rcases hdec with ⟨i, hd, rfl⟩ | rfl
      · exact (begin_fits (s := b.state.setCmd rest) hlock fun hi => decode_ne_htCal w (hi ▸ hd)).inv hb
      · exact ended_inv (s := b.state.setCmd rest) hb .illegalCmd none none
    · rw [hbusy] at htrue; cases htrue
    · rw [hbusy] at htrue; cases htrue

end Sys2Proof.Machine

open Sys2Proof Sys2Proof.Machine

/-- Settles O55: the invariant by the lines of the command in execution, the step into an error by `blockStep_failed`. -/
theorem blockStepKeepsCriticalSections : Obligations.BlockStepKeepsCriticalSections := fun _ _ hinv h =>
  ⟨blockStep_inv hinv h, fun _ he herr => blockStep_failed h he herr⟩
end

section
/-! PROOFS. A step of `Machine.step` is made by steps of the transaction level (log entries 1 and 18). -/

namespace Sys2Proof.Machine

/-! ## What a block does -/

/-- The steps of the transaction level make what `o` answers: a block at rest with that state, or that fault. -/
def Block.Makes (b : Block) (o : Host.Outcome State Fault Refusal) : Prop :=
  match o with
  | .next t => ∃ (n : Nat) (c : Block), transactionCore.run n b = .next c ∧ c.state = t ∧ c.AtRest
  | .fault r => ∃ n : Nat, transactionCore.run n b = .fault r
  | .refused _ => False

theorem makes_of_reaches {b c : Block} {t : State} (h : Reaches b c) (hc : c.state = t) (hr : c.AtRest) :
    b.Makes (.next t) := by
  obtain ⟨n, hn⟩ := h
  exact ⟨n, c, hn, hc, hr⟩

theorem Reaches.makes {b c : Block} {o : Host.Outcome State Fault Refusal} (h : Reaches b c) (hc : c.Makes o) :
    b.Makes o := by
  obtain ⟨n, hn⟩ := h
  cases o with
  | next t =>
    obtain ⟨m, d, hm, hd, hr⟩ := hc
    exact ⟨n + m, d, by rw [run_add _ hn, hm], hd, hr⟩
  | fault r =>
    obtain ⟨m, hm⟩ := hc
    exact ⟨n + m, by rw [run_add _ hn, hm]⟩
  | refused r => exact hc

/-- Some steps of the transaction level end the command in execution and leave the idle state `t`. -/
def Block.EndsIn (b : Block) (t : State) : Prop := Reaches b (Block.ended t) ∧ t.Idle

theorem Block.EndsIn.makes {b : Block} {t : State} (h : b.EndsIn t) : b.Makes (.next t) :=
  makes_of_reaches h.1 rfl (.inl ⟨h.2, rfl⟩)

theorem Reaches.endsIn {b c : Block} {t : State} (h : Reaches b c) (hc : c.EndsIn t) : b.EndsIn t :=
  ⟨h.trans hc.1, hc.2⟩

theorem finish_idle (st : Status) (byte : Option Byte) (value : Option FNum) (s : State) :
    (s.finish st byte value).Idle := ⟨rfl, rfl, rfl⟩

/-- A line that delivers a result ends the command. -/
theorem endsIn_of_line {l : Line} {rest : List Line} {s : State} {w : Working} {st : Status} {byte : Option Byte}
    {value : Option FNum} (h : runLine l ⟨s, rest, w⟩ = .next (Block.ended (s.finish st byte value))) :
    Block.EndsIn ⟨s, l :: rest, w⟩ (s.finish st byte value) := ⟨Reaches.line h, finish_idle _ _ _ s⟩

/-! ## Sequences of bus operations -/

theorem Reply.close_andThen {α β : Type} (r : Reply α) (f : α → State → Reply β) (g : β → State → State) :
    (r.andThen f).close g = r.close fun a s => (f a s).close g := by
  cases r <;> rfl

/-- The end of a command that handles a transport error by `e`. -/
def Reply.closeWith {α : Type} (r : Reply α) (e : State → State) (k : α → State → State) : State :=
  match r with
  | .ok a s => k a s
  | .err s => e s

theorem Reply.close_eq {α : Type} (r : Reply α) (k : α → State → State) :
    r.close k = r.closeWith (State.raise .transportErr) k := by
  cases r <;> rfl

theorem Reply.closeWith_andThen {α β : Type} (r : Reply α) (f : α → State → Reply β) (e : State → State)
    (k : β → State → State) : (r.andThen f).closeWith e k = r.closeWith e fun a s => (f a s).closeWith e k := by
  cases r <;> rfl

/-- A sequence and the lines after it, in a command whose error lines do what `e` does. -/
theorem endsIn_closeWith {α : Type} {r : Reply α} {e : State → State} {f : α → State → State} {l rest : List Line}
    {s : State} {w : Working} {k : α → Working → Prop} (h : r.RunsAs l s w k)
    (he : ∀ t w', Block.EndsIn ⟨t, errorLines s.running, w'⟩ (e t))
    (hf : ∀ a t w', r = .ok a t → t.running = s.running → k a w' → Block.EndsIn ⟨t, rest, w'⟩ (f a t)) :
    Block.EndsIn ⟨s, l ++ rest, w⟩ (r.closeWith e f) := by
  cases r with
  | ok a t =>
    obtain ⟨w', hr, hrun, hk⟩ := h
    exact (hr rest).endsIn (hf a t w' rfl hrun hk)
  | err t =>
    obtain ⟨w', hr⟩ := h
    exact (hr rest).endsIn (he t w')

/-- A sequence and the lines after it, in a command whose transport error has no effect of its own. -/
theorem endsIn_close {α : Type} {r : Reply α} {f : α → State → State} {l rest : List Line} {s : State} {w : Working}
    {k : α → Working → Prop} (hi : s.running ≠ some .htAct) (h : r.RunsAs l s w k)
    (hf : ∀ a t w', t.running = s.running → k a w' → Block.EndsIn ⟨t, rest, w'⟩ (f a t)) :
    Block.EndsIn ⟨s, l ++ rest, w⟩ (r.close f) := by
  rw [Reply.close_eq]
  exact endsIn_closeWith h (fun t _ => ⟨errorLines_reaches_raise hi, finish_idle _ _ _ t⟩) fun a t w' _ => hf a t w'

/-- A sequence begun after a line that moves nothing but the state. -/
theorem runsAs_line {α : Type} {r : Reply α} {l : Line} {ls : List Line} {s t : State} {w : Working}
    {k : α → Working → Prop} (hl : ∀ rest, runLine l ⟨s, rest, w⟩ = .next ⟨t, rest, w⟩) (hr : t.running = s.running)
    (h : r.RunsAs ls t w k) : r.RunsAs (l :: ls) s w k := by
  have hx (rest : List Line) : Reaches ⟨s, l :: (ls ++ rest), w⟩ ⟨t, ls ++ rest, w⟩ := Reaches.line (hl _)
  cases r with
  | ok a u =>
    obtain ⟨w', h1, hu, hk⟩ := h
    exact ⟨w', fun rest => (hx rest).trans (h1 rest), hu.trans hr, hk⟩
  | err u =>
    obtain ⟨w', h1⟩ := h
    exact ⟨w', fun rest => hr ▸ (hx rest).trans (h1 rest)⟩

/-! ## Commands -/

/-- `HT_REQUIRE({INITED, ACTIVE, PDOWN})`, before lines that end in what the body answers. -/
theorem requireInited_endsIn {body : State → State} {rest : List Line} {s : State} {w : Working}
    (h : Block.EndsIn ⟨s, rest, w⟩ (body s)) :
    Block.EndsIn ⟨s, .require initedStates :: rest, w⟩ (requireInited s body) := by
  cases hs : s.htState
  case uninit =>
    rw [requireInited_uninit hs]
    exact endsIn_of_line (by rw [runLine, hs]; rfl)
  all_goals
    rw [requireInited_other (by rw [hs]; nofun)]
    exact (Reaches.line (by rw [runLine, hs]; rfl)).endsIn h

/-- A PT status byte with the ready bit, before lines that end in `t`. -/
theorem endsIn_of_ready {bit : Nat} {e : FExpr} {rest : List Line} {s t : State} {w : Working}
    (hb : w.s.getLsbD bit = true) (h : Block.EndsIn ⟨s, rest, w⟩ t) :
    Block.EndsIn ⟨s, .unlessReady bit e :: rest, w⟩ t :=
  (Reaches.line (by exact if_pos hb)).endsIn h

theorem rmw_endsIn {dev reg setm clrm : Byte} {s : State} {w : Working} (hi : s.running ≠ some .htAct) :
    Block.EndsIn ⟨s, rmwLines dev reg setm clrm ++ [.finish .done], w⟩
      ((rmw dev reg setm clrm s).close fun _ s => s.finish .ok none none) :=
  endsIn_close hi (rmw_runsAs dev reg setm clrm s w) fun _ _ _ _ _ => endsIn_of_line rfl

/-- The PT reading of a temperature, delivered as its value `f` of the formula. -/
theorem ptTempReading_endsIn {f : FExpr → FExpr} {d : Delivery} {s : State} {w : Working}
    (hi : s.running ≠ some .htAct)
    (hd : ∀ (t : State) (w : Working), deliverResult d w t = .next (Block.ended (t.deliver .ok (f (ptTempC w.lo w.hi))))) :
    Block.EndsIn ⟨s, [.read ptDev regStatus .s, .unlessReady 0 (f sentinelC)] ++ sampleLines ptDev ptTLo ptTHi ++
      [.finish d], w⟩ ((ptTempReading s).close fun r s => s.deliver r.1 (f r.2)) := by
  rw [ptTempReading, Reply.close_andThen]
  refine endsIn_close (l := [_]) hi (busRead_runsAs ptDev regStatus .s s w) fun st t w' hrun hw => ?_
  obtain rfl := hw
  rw [← hrun] at hi
  split
  · rename_i hready
    rw [Reply.close_andThen]
    refine endsIn_of_ready hready (endsIn_close hi (fetch2_runsAs ptDev ptTLo ptTHi t _) ?_)
    intro b u w'' _ ⟨hlo, hhi⟩
    exact endsIn_of_line ((hd u w'').trans (by rw [hlo, hhi]; rfl))
  · rename_i hready
    exact endsIn_of_line (if_neg hready)

theorem ptPressReading_endsIn {s : State} {w : Working} (hi : s.running ≠ some .htAct) :
    Block.EndsIn ⟨s, commandLines s.params.calMap .ptRdpm, w⟩
      ((ptPressReading s).close fun r s => s.deliver r.1 r.2) := by
  rw [ptPressReading, Reply.close_andThen]
  refine endsIn_close (l := [_]) hi (busRead_runsAs ptDev regStatus .s s w) fun st t w' hrun hw => ?_
  obtain rfl := hw
  rw [← hrun] at hi
  split
  · rename_i hready
    rw [Reply.close_andThen]
    refine endsIn_of_ready hready
      (endsIn_close (rest := [_]) hi (fetch3_runsAs ptDev ptPLo ptPMid ptPHi t _) ?_)
    intro b u w'' _ ⟨hlo, hmid, hhi⟩
    exact endsIn_of_line (by rw [runLine, deliverResult, hlo, hmid, hhi]; rfl)
  · rename_i hready
    exact endsIn_of_line (if_neg hready)

theorem htInit_endsIn {s : State} {w : Working} (hi : s.running ≠ some .htAct) :
    Block.EndsIn ⟨s, [.read htDev regWhoami .b, .initState, .finish .identity], w⟩
      ((busRead htDev regWhoami s).close fun b s =>
        (s.setHtState (initedFrom s.htState)).finish (if b = htId then .ok else .idMismatch) (some b) none) := by
  refine endsIn_close (l := [_]) hi (busRead_runsAs htDev regWhoami .b s w) fun b t w' _ hw => ?_
  obtain rfl := hw
  exact (Reaches.line rfl).endsIn (endsIn_of_line rfl)

theorem ptIdent_endsIn {s : State} {w : Working} (hi : s.running ≠ some .htAct) :
    Block.EndsIn ⟨s, [.read ptDev regWhoami .b, .finish .byte], w⟩
      ((busRead ptDev regWhoami s).close fun b s => s.finish .ok (some b) none) := by
  refine endsIn_close (l := [_]) hi (busRead_runsAs ptDev regWhoami .b s w) fun b t w' _ hw => ?_
  obtain rfl := hw
  exact endsIn_of_line rfl

/-- HT.PDOWN once its state is checked: the read-modify-write with the updates between its transactions
(41_humidity_control.md rule R121). -/
theorem htPdown_endsIn {s : State} {w : Working} (hi : s.running ≠ some .htAct) :
    Block.EndsIn ⟨s, [.lock true, .read htDev regCtrl .old, .emptyCal, .setState .pdown, .write htDev regCtrl 0 htPower,
        .lock false] ++ [.finish .done], w⟩
      (((busRead htDev regCtrl (s.setLock true)).andThen fun old s =>
        (busWrite htDev regCtrl (rmwByte old 0 htPower) ((s.setCal Cal.empty).setHtState .pdown)).andThen fun _ s =>
          .ok () (s.setLock false)).close fun _ s => s.finish .ok none none) := by
  refine endsIn_close (k := fun _ _ => True) hi (runsAs_lock ?_) fun _ _ _ _ _ => endsIn_of_line rfl
  refine runsAs_andThen (l := [_]) (busRead_runsAs htDev regCtrl .old _ w) fun old t w' _ hw => ?_
  subst hw
  refine runsAs_line (t := t.setCal Cal.empty) (fun _ => rfl) rfl ?_
  refine runsAs_line (t := (t.setCal Cal.empty).setHtState .pdown) (fun _ => rfl) rfl ?_
  exact runsAs_andThen (l := [_]) (l' := [_]) (busWrite_runsAs htDev regCtrl 0 htPower _ (w.put .old old))
    fun _ u w'' _ _ => runsAs_ok_setLock trivial

/-- A read-modify-write holds no byte of the calibration. -/
theorem rmw_runsAs_cal (dev reg setm clrm : Byte) (s : State) (w : Working) :
    (rmw dev reg setm clrm s).RunsAs (rmwLines dev reg setm clrm) s w (fun _ w' => w'.cal = w.cal) :=
  runsAs_lock <|
    runsAs_andThen (l := [_]) (busRead_runsAs dev reg .old _ w) fun old t w' _ hw => by
      subst hw
      exact runsAs_andThen (l := [_]) (l' := [_]) (busWrite_runsAs dev reg setm clrm t (w.put .old old))
        fun _ u w'' _ hw => by
          subst hw
          exact runsAs_ok_setLock rfl

theorem rmw_params {dev reg setm clrm : Byte} {s t : State} {a : Unit} (h : rmw dev reg setm clrm s = .ok a t) :
    t.params = s.params := by
  have hd : (rmw dev reg setm clrm s).Does s (fun _ => True) 2 (· = false) :=
    rmw_does (fun _ => trivial) fun _ _ => trivial
  rw [h] at hd
  obtain ⟨es, b, -, -, -, rfl⟩ := hd
  rfl

theorem activationFails_endsIn {r : Option Instr} (hr : r = some .htAct) (t : State) (w : Working) :
    Block.EndsIn ⟨t, errorLines r, w⟩ (activationFails t) := by
  subst hr
  exact ⟨errorLines_reaches_activationFails t w, finish_idle _ _ _ _⟩

/-- HT.ACT once its state is checked and `CAL` is empty (41_humidity_control.md rule R122). -/
theorem activation_endsIn {s : State} {w : Working} (hi : s.running = some .htAct) (hw : w.cal = noCalBytes) :
    Block.EndsIn ⟨s, rmwLines htDev regCtrl htPowerOdr 0 ++
        (calLines s.params.calMap ++ [.setState .active, .finish .done]), w⟩
      (((rmw htDev regCtrl htPowerOdr 0 s).andThen fun _ s => calibrate s).closeWith activationFails fun _ s =>
        (s.setHtState .active).finish .ok none none) := by
  rw [Reply.closeWith_andThen]
  refine endsIn_closeWith (rmw_runsAs_cal htDev regCtrl htPowerOdr 0 s w) (activationFails_endsIn hi)
    fun _ t w' hr hrun hcal => ?_
  rw [← rmw_params hr]
  refine endsIn_closeWith (calibrate_runsAs t w' (hcal.trans hw)) (activationFails_endsIn (hrun.trans hi))
    fun _ u w'' _ _ _ => ?_
  exact (Reaches.line rfl).endsIn (endsIn_of_line rfl)

theorem execHtAct_eq {s : State} (hb : s.busy = false) :
    execHtAct s = .next (requireInited (s.accept .htAct) fun s =>
      ((rmw htDev regCtrl htPowerOdr 0 (s.setCal Cal.empty)).andThen fun _ s => calibrate s).closeWith activationFails
        fun _ s => (s.setHtState .active).finish .ok none none) := by
  rw [execHtAct, runCommand_idle hb]
  congr 2
  funext t
  generalize (rmw htDev regCtrl htPowerOdr 0 (t.setCal Cal.empty)).andThen _ = r
  cases r <;> rfl

theorem commandLines_htAct (m : CalMap) :
    commandLines m .htAct = .require initedStates :: .emptyCal ::
      (rmwLines htDev regCtrl htPowerOdr 0 ++ (calLines m ++ [.setState .active, .finish .done])) := by
  simp [commandLines]

/-! ## The status poll -/

theorem polling_running_ne_htAct {ch : Channel} {s : State} (h : s.Polling ch) : s.running ≠ some .htAct := by
  rw [h.2.2]
  cases ch <;> nofun

/-- The span check and the interpolation (43_interpolation.md rule R160). -/
theorem convertSample_makes (ch : Channel) (s : State) (w : Working) :
    Block.Makes ⟨s, [.spanCheck ch, .finish (.interp ch)], w⟩ (convertSample ch (compose16 w.lo w.hi) s) := by
  cases hk : channelCal ch s.cal with
  | none =>
    rw [convertSample, hk]
    exact (Reaches.refl _).fault (by rw [blockStep]; dsimp only; rw [runLine]; dsimp only; rw [hk])
  | some k =>
    rw [convertSample_of_cal hk]
    refine Block.EndsIn.makes ?_
    split
    · rename_i hspan
      exact endsIn_of_line (by rw [runLine]; dsimp only; rw [hk]; exact if_pos hspan)
    · rename_i hspan
      refine (Reaches.line (c := ⟨s, [.finish (.interp ch)], w⟩) ?_).endsIn (endsIn_of_line ?_)
      · rw [runLine]; dsimp only; rw [hk]; exact if_neg hspan
      · rw [runLine, deliverResult, hk]; rfl

theorem fetchSample_makes {ch : Channel} {s : State} (w : Working) (hi : s.running ≠ some .htAct) :
    Block.Makes ⟨s, sampleLines htDev (channelLo ch) (channelHi ch) ++ [.spanCheck ch, .finish (.interp ch)], w⟩
      (fetchSample ch s) := by
  have h := fetch2_runsAs htDev (channelLo ch) (channelHi ch) s w
  rw [fetchSample]
  cases hf : fetch2 htDev (channelLo ch) (channelHi ch) s with
  | ok b t =>
    rw [hf] at h
    obtain ⟨w', hr, -, hlo, hhi⟩ := h
    dsimp only
    rw [← hlo, ← hhi]
    exact (hr _).makes (convertSample_makes ch t w')
  | err t =>
    rw [hf] at h
    obtain ⟨w', hr⟩ := h
    exact Block.EndsIn.makes ⟨(hr _).trans (errorLines_reaches_raise hi), finish_idle _ _ _ t⟩

theorem pollCount_reaches (ch : Channel) (s : State) (rest : List Line) (w : Working) :
    Reaches ⟨s, .pollCount ch :: rest, w⟩
      ⟨s.setPollCnt (s.pollCnt + 1), if channelReady ch w.s then rest else pollLines ch, w⟩ := Reaches.line rfl

/-- One turn of the poll: to the end of the command, or to the head of the next turn. -/
theorem pollTurn_makes {ch : Channel} {s : State} (hs : s.Polling ch) (w : Working) :
    Block.Makes ⟨s, pollLines ch, w⟩ (pollTurn ch s) := by
  rw [pollTurn]
  split
  · rename_i hx
    exact Block.EndsIn.makes (endsIn_of_line (if_pos hx))
  · rename_i hx
    refine Reaches.makes (Reaches.line (c := ⟨s, (pollLines ch).tail, w⟩) (if_neg hx)) ?_
    have h := busRead_runsAs htDev regStatus .s s w
    rcases busRead_cases htDev regStatus s with ⟨st, -, hb⟩ | ⟨-, hb⟩ <;> rw [hb] at h ⊢ <;> dsimp only
    · obtain ⟨w', hr, -, hw⟩ := h
      obtain rfl := hw
      refine ((hr _).trans (pollCount_reaches ch _ _ _)).makes ?_
      split
      · rename_i hready
        rw [if_pos (by exact hready)]
        exact fetchSample_makes _ (polling_running_ne_htAct hs)
      · rename_i hready
        rw [if_neg (by exact hready)]
        exact makes_of_reaches (Reaches.refl _) rfl (.inr ⟨ch, hs, rfl⟩)
    · obtain ⟨w', hr⟩ := h
      exact Block.EndsIn.makes
        ⟨(hr _).trans (errorLines_reaches_raise (polling_running_ne_htAct hs)), finish_idle _ _ _ _⟩

/-- A read command: the check of the state, and the first turn of its poll. -/
theorem requireActive_makes {ch : Channel} {s : State} (hs : s.Polling ch) (w : Working) :
    Block.Makes ⟨s, [.require [.active], .pollClear] ++ pollLines ch, w⟩
      (requireActive s fun s => pollTurn ch (s.setPollCnt 0)) := by
  by_cases ha : s.htState = .active
  · rw [requireActive_active ha]
    refine Reaches.makes ((Reaches.line (c := ⟨s, .pollClear :: pollLines ch, w⟩) ?_).trans (Reaches.line rfl))
      (pollTurn_makes (s := s.setPollCnt 0) hs w)
    exact if_pos (List.mem_singleton.2 ha)
  · rw [requireActive_other ha]
    exact Block.EndsIn.makes (endsIn_of_line (by exact if_neg (mt List.mem_singleton.1 ha)))

/-! ## A step -/

/-- What a command that a word can start does in an idle block, the steps from its acceptance on make. -/
theorem exec_makes {i : Instr} (hi : i ≠ .htCal) {s : State} (hb : s.busy = false) (hl : s.lock = false) :
    (Block.begin i s).Makes (exec i s) := by
  have hne (hi : i ≠ .htAct) : (s.accept i).running ≠ some .htAct := fun h => hi (Option.some.inj h)
  have hpoll (ch : Channel) : (s.accept (channelInstr ch)).Polling ch := ⟨rfl, hl, rfl⟩
  cases i <;> simp only [exec]
  case ptInit =>
    rw [execPtInit, runCommand_idle hb]
    exact (rmw_endsIn (hne nofun)).makes
  case ptIdent =>
    rw [execPtIdent, runCommand_idle hb]
    exact (ptIdent_endsIn (hne nofun)).makes
  case ptRdtc =>
    rw [execPtRdtc, runCommand_idle hb]
    exact (ptTempReading_endsIn (f := id) (d := .tempC) (hne nofun) fun _ _ => rfl).makes
  case ptRdtf =>
    rw [execPtRdtf, runCommand_idle hb]
    exact (ptTempReading_endsIn (f := c2f) (d := .tempF) (hne nofun) fun _ _ => rfl).makes
  case ptRdpm =>
    rw [execPtRdpm, runCommand_idle hb]
    exact (ptPressReading_endsIn (hne nofun)).makes
  case htInit =>
    rw [execHtInit, runCommand_idle hb]
    exact (htInit_endsIn (hne nofun)).makes
  case htPdown =>
    rw [execHtPdown, runCommand_idle hb]
    exact (requireInited_endsIn (htPdown_endsIn (hne nofun))).makes
  case htAct =>
    rw [execHtAct_eq hb, Block.begin, commandLines_htAct]
    refine (requireInited_endsIn (Reaches.endsIn (Reaches.line rfl) ?_)).makes
    exact activation_endsIn (s := (s.accept .htAct).setCal Cal.empty) rfl rfl
  case htSetbdu a =>
    rw [execHtSetbdu, runCommand_idle hb]
    cases a <;> exact (requireInited_endsIn (rmw_endsIn (hne nofun))).makes
  case htCal => exact absurd rfl hi
  case htRdh =>
    rw [execHtRdh, startCommand_idle hb]
    exact requireActive_makes (hpoll .hum) _
  case htRdtc =>
    rw [execHtRdtc, startCommand_idle hb]
    exact requireActive_makes (hpoll .temp) _

/-- A step of an idle block: waiting, the whole command of the next word, or the refusal of an illegal one. -/
theorem step_idle_makes {s : State} (hs : s.Idle) (w : Working) : Block.Makes ⟨s, [], w⟩ (step s) := by
  obtain ⟨hb, hl, -⟩ := id hs
  rw [step, hb, if_neg Bool.false_ne_true]
  -- What one step of the block answers, once its tests are decided.
  have hone {c : Block} (h : blockStep ⟨s, [], w⟩ = .next c) : Reaches ⟨s, [], w⟩ c := Reaches.one h
  rw [blockStep] at hone
  dsimp only at hone
  rw [hb, if_neg Bool.false_ne_true] at hone
  rcases fetchCommand_cases s with hf | ⟨word, rest, -, ⟨i, hd, hf⟩ | ⟨-, hf⟩⟩ <;> rw [hf] at hone ⊢
  · exact makes_of_reaches (hone rfl) rfl (.inl ⟨hs, rfl⟩)
  · exact (hone rfl).makes
      (exec_makes (s := s.setCmd rest) (fun hi => decode_ne_htCal word (hi ▸ hd)) hb hl)
  · exact Block.EndsIn.makes ⟨hone rfl, finish_idle _ _ _ _⟩

end Sys2Proof.Machine

open Sys2Proof Sys2Proof.Machine

/-- Settles O54: an idle block by its command, a polling one by the next turn of its poll. -/
theorem transactionStepsMakeEachStep : Obligations.TransactionStepsMakeEachStep := by
  intro ⟨s, todo, w⟩ hb
  have h : Block.Makes ⟨s, todo, w⟩ (step s) := by
    rcases hb with ⟨hs, ht⟩ | ⟨ch, hs, ht⟩ <;> cases ht
    · exact step_idle_makes hs w
    · rw [step_polling hs]
      exact pollTurn_makes hs w
  exact h
end

section
/-! PROOFS. Everything a command can do at an idle block, and one turn of a status poll: what it leaves of the HT unit
(10_state.md rules R22 and R23), and whether the command is over (rule R29). -/

namespace Sys2Proof.Machine

/-! ## Sequences of transactions -/

theorem Reply.andThen_assoc {α β γ : Type} (r : Reply α) (f : α → State → Reply β) (g : β → State → Reply γ) :
    (r.andThen f).andThen g = r.andThen fun a s => (f a s).andThen g := by
  cases r <;> rfl

/-- A sequence moves nothing but the bus and LOCK, so what holds of either end of it then holds. -/
theorem Reply.Does.closeWith {α : Type} {r : Reply α} {s : State} {P : Event → Prop} {n : Nat} {L : Bool → Prop}
    {C : State → Prop} {e : State → State} {k : α → State → State} (h : r.Does s P n L)
    (he : ∀ es b, C (e ((s.afterScript es).setLock b))) (hk : ∀ a es b, C (k a ((s.afterScript es).setLock b))) :
    C (r.closeWith e k) := by
  cases r with
  | ok a t =>
    obtain ⟨es, b, -, -, -, rfl⟩ := h
    exact hk a es b
  | err t =>
    obtain ⟨es, x, b, -, -, -, -, rfl⟩ := h
    exact he (es ++ [x]) b

/-- The fifteen transactions of HT.ACT (41_humidity_control.md rule R122), whatever the environment answers. -/
theorem activationReads_does (s : State) :
    ((rmw htDev regCtrl htPowerOdr 0 s).andThen fun _ s =>
      readItems s.params.calMap (calOrder s.params.calMap) noCalBytes s).Does s (inMapIf s.params.calMap false) 15
        (· = false) :=
  does_andThen (n := 2) (m := 13) (rmw_does (fun _ _ => rfl) fun _ _ _ => rfl) fun _ t hl hp =>
    hp ▸ does_mono (calReads_does t false fun _ => hl) (fun _ h => h rfl) le_rfl

/-! ## One turn of a poll -/

/-- What one turn of the poll of `ch` can answer (43_interpolation.md rule R165): the end of the command, the head of the
next turn while the limit is not reached, or the fault of log entry 9. -/
inductive TurnOutcome (ch : Channel) (s : State) : Host.Outcome State Fault Refusal → Prop
  | ended (es : List Event) (n : Nat) (st : Status) (byte : Option Byte) (value : Option FNum) :
      TurnOutcome ch s (.next (((s.afterScript es).setPollCnt n).finish st byte value))
  | again (es : List Event) (hlimit : s.params.pollLimit ≠ .reads s.pollCnt) :
      TurnOutcome ch s (.next ((s.afterScript es).setPollCnt (s.pollCnt + 1)))
  | emptyCal (hcal : channelCal ch s.cal = none) : TurnOutcome ch s (.fault .emptyCalRead)

theorem convertSample_empty {ch : Channel} {raw : Code16} {s : State} (h : channelCal ch s.cal = none) :
    convertSample ch raw s = .fault .emptyCalRead := by
  rw [convertSample, h]

/-- The conversion after the transactions `es` of the turn. -/
theorem convertSample_turnOutcome (ch : Channel) (raw : Code16) (s : State) (es : List Event) (n : Nat) (b : Bool) :
    TurnOutcome ch s (convertSample ch raw (((s.afterScript es).setPollCnt n).setLock b)) := by
  cases hk : channelCal ch s.cal with
  | none =>
    rw [convertSample_empty (by exact hk)]
    exact .emptyCal hk
  | some k =>
    rw [convertSample_of_cal (by exact hk)]
    split
    · exact .ended es n .calErr none none
    · exact .ended es n .ok none _

/-- The fetch of the sample after the status read `es`, and its conversion. -/
theorem fetchSample_turnOutcome (ch : Channel) (s : State) (es : List Event) (n : Nat) :
    TurnOutcome ch s (fetchSample ch ((s.afterScript es).setPollCnt n)) := by
  have hd : (fetch2 htDev (channelLo ch) (channelHi ch) ((s.afterScript es).setPollCnt n)).Does _ (fun _ => True) 2
      (· = false) := fetch2_does (fun _ => trivial) fun _ => trivial
  rw [fetchSample]
  cases hf : fetch2 htDev (channelLo ch) (channelHi ch) ((s.afterScript es).setPollCnt n) with
  | ok b t =>
    rw [hf] at hd
    obtain ⟨fs, l, -, -, -, rfl⟩ := hd
    have h := convertSample_turnOutcome ch (compose16 b.1 b.2) s (es ++ fs) n l
    rwa [← afterScript_afterScript] at h
  | err t =>
    rw [hf] at hd
    obtain ⟨fs, e, b, -, -, -, -, rfl⟩ := hd
    have h := TurnOutcome.ended (ch := ch) (s := s) (es ++ (fs ++ [e])) n .transportErr none none
    rwa [← afterScript_afterScript] at h

theorem pollTurn_outcome (ch : Channel) (s : State) : TurnOutcome ch s (pollTurn ch s) := by
  rw [pollTurn]
  split
  · have h := TurnOutcome.ended (ch := ch) (s := s) [] s.pollCnt .timeout none none
    rwa [afterScript_nil] at h
  · rename_i hx
    rcases busRead_cases htDev regStatus s with ⟨st, -, h⟩ | ⟨-, h⟩ <;> rw [h] <;> dsimp only
    · split
      · exact fetchSample_turnOutcome ch s _ _
      · exact .again _ (mt (pollExhausted_iff s).2 hx)
    · exact .ended _ s.pollCnt .transportErr none none

/-- A turn of a poll leaves the HT unit, the words on CMD and the parameters as they are. -/
theorem TurnOutcome.frame {ch : Channel} {s t : State} (h : TurnOutcome ch s (.next t)) :
    t.cal = s.cal ∧ t.htState = s.htState ∧ t.cmd = s.cmd ∧ t.params = s.params := by
  cases h <;> exact ⟨rfl, rfl, rfl, rfl⟩

/-! ## One command -/

/-- The ends of a command, by state and status, that leave `CAL` and `HT_STATE` as they are (10_state.md rules R22, R23). -/
def keepsHtUnit (i : Instr) (h : HtState) (st : Status) : Prop :=
  match i with
  | .htInit => st = .transportErr
  | .htPdown => h = .uninit ∨ st = .transportErr
  | .htAct => h = .uninit
  | _ => True

/-- What a command can answer at an idle block. -/
inductive CommandOutcome (s : State) : Instr → Host.Outcome State Fault Refusal → Prop
  | ended {i : Instr} (es : List Event) (st : Status) (byte : Option Byte) (value : Option FNum)
      (hkeeps : keepsHtUnit i s.htState st) : CommandOutcome s i (.next ((s.afterScript es).finish st byte value))
  | identified (es : List Event) (b : Byte) :
      CommandOutcome s .htInit (.next (((s.afterScript es).setHtState (initedFrom s.htState)).finish
        (if b = htId then .ok else .idMismatch) (some b) none))
  | poweredDown (es : List Event) (st : Status) (hstate : s.htState ≠ .uninit) :
      CommandOutcome s .htPdown
        (.next ((((s.afterScript es).setCal Cal.empty).setHtState .pdown).finish st none none))
  | activated (es : List Event) (r : CalBytes) (hstate : s.htState ≠ .uninit) :
      CommandOutcome s .htAct
        (.next ((((s.afterScript es).setCal (unpackCal r)).setHtState .active).finish .ok none none))
  | activationFailed (es : List Event) (hstate : s.htState ≠ .uninit) :
      CommandOutcome s .htAct (.next (activationFails (s.afterScript es)))
  | turn (ch : Channel) {o : Host.Outcome State Fault Refusal} (hactive : s.htState = .active)
      (hturn : TurnOutcome ch ((s.accept (channelInstr ch)).setPollCnt 0) o) : CommandOutcome s (channelInstr ch) o

/-- The end of a command before its first transaction. -/
theorem raise_outcome {s : State} {i : Instr} {st : Status} (hk : keepsHtUnit i s.htState st) :
    CommandOutcome s i (.next (s.raise st)) := by
  have h := CommandOutcome.ended [] st none none hk
  rwa [afterScript_nil] at h

/-- A command whose transport error leaves the HT unit as it is. -/
theorem close_outcome {α : Type} {r : Reply α} {s : State} {i : Instr} {P : Event → Prop} {n : Nat} {L : Bool → Prop}
    {k : α → State → State} (h : r.Does (s.accept i) P n L) (he : keepsHtUnit i s.htState .transportErr)
    (hk : ∀ a es b, CommandOutcome s i (.next (k a (((s.accept i).afterScript es).setLock b)))) :
    CommandOutcome s i (.next (r.close k)) := by
  rw [Reply.close_eq]
  exact h.closeWith (C := fun t => CommandOutcome s i (.next t)) (fun es _ => .ended es .transportErr none none he) hk

theorem requireInited_outcome {s : State} {i : Instr} {body : State → State} (hu : keepsHtUnit i .uninit .stateErr)
    (h : s.htState ≠ .uninit → CommandOutcome s i (.next (body (s.accept i)))) :
    CommandOutcome s i (.next (requireInited (s.accept i) body)) := by
  by_cases hs : s.htState = .uninit
  · rw [requireInited_uninit (by exact hs)]
    exact raise_outcome (hs ▸ hu)
  · rw [requireInited_other (by exact hs)]
    exact h hs

theorem rmw_outcome {dev reg setm clrm : Byte} {s : State} {i : Instr} (hk : ∀ st, keepsHtUnit i s.htState st) :
    CommandOutcome s i (.next ((rmw dev reg setm clrm (s.accept i)).close fun _ s => s.finish .ok none none)) :=
  close_outcome (rmw_does (P := fun _ => True) (fun _ => trivial) fun _ _ => trivial) (hk _)
    fun _ es _ => .ended es .ok none none (hk _)

/-- HT.PDOWN once its state is checked (41_humidity_control.md rule R121). -/
theorem htPdown_outcome {s : State} (hs : s.htState ≠ .uninit) :
    CommandOutcome s .htPdown (.next
      (((busRead htDev regCtrl ((s.accept .htPdown).setLock true)).andThen fun old s =>
        (busWrite htDev regCtrl (rmwByte old 0 htPower) ((s.setCal Cal.empty).setHtState .pdown)).andThen fun _ s =>
          .ok () (s.setLock false)).close fun _ s => s.finish .ok none none)) := by
  rw [Reply.close_andThen]
  refine close_outcome (does_of_setLock (busRead_does (P := fun _ => True) fun _ => trivial)) (.inr rfl) fun old es _ => ?_
  have hend (fs : List Event) (st : Status) : CommandOutcome s .htPdown
      (.next (((((s.afterScript es).afterScript fs).setCal Cal.empty).setHtState .pdown).finish st none none)) := by
    rw [afterScript_afterScript]
    exact .poweredDown (es ++ fs) st hs
  rw [Reply.close_andThen, Reply.close_eq]
  exact (busWrite_does (P := fun _ => True) fun _ => trivial).closeWith
    (C := fun t => CommandOutcome s .htPdown (.next t)) (fun fs _ => hend fs .transportErr) fun _ fs _ => hend fs .ok

/-- HT.ACT once its state is checked (41_humidity_control.md rule R122). -/
theorem htAct_outcome {s : State} (hs : s.htState ≠ .uninit) :
    CommandOutcome s .htAct (.next
      (((rmw htDev regCtrl htPowerOdr 0 ((s.accept .htAct).setCal Cal.empty)).andThen fun _ s => calibrate s).closeWith
        activationFails fun _ s => (s.setHtState .active).finish .ok none none)) := by
  simp only [calibrate]
  rw [← Reply.andThen_assoc, Reply.closeWith_andThen]
  exact (activationReads_does _).closeWith (C := fun t => CommandOutcome s .htAct (.next t))
    (fun es _ => .activationFailed es hs) fun r es _ => .activated es r hs

/-- HT.RDH and HT.RDTC. -/
theorem requireActive_outcome (ch : Channel) (s : State) :
    CommandOutcome s (channelInstr ch)
      (requireActive (s.accept (channelInstr ch)) fun s => pollTurn ch (s.setPollCnt 0)) := by
  by_cases hs : s.htState = .active
  · rw [requireActive_active (by exact hs)]
    exact .turn ch hs (pollTurn_outcome ch _)
  · rw [requireActive_other (by exact hs)]
    exact raise_outcome (by cases ch <;> trivial)

theorem exec_outcome (i : Instr) {s : State} (hb : s.busy = false) : CommandOutcome s i (exec i s) := by
  cases i <;> rw [exec]
  case ptInit =>
    rw [execPtInit, runCommand_idle hb]
    exact rmw_outcome fun _ => trivial
  case ptIdent =>
    rw [execPtIdent, runCommand_idle hb]
    exact close_outcome (busRead_does (P := fun _ => True) fun _ => trivial) trivial
      fun b es _ => .ended es .ok (some b) none trivial
  case ptRdtc =>
    rw [execPtRdtc, runCommand_idle hb]
    exact close_outcome (ptTempReading_does _) trivial fun r es _ => .ended es r.1 none _ trivial
  case ptRdtf =>
    rw [execPtRdtf, runCommand_idle hb]
    exact close_outcome (ptTempReading_does _) trivial fun r es _ => .ended es r.1 none _ trivial
  case ptRdpm =>
    rw [execPtRdpm, runCommand_idle hb]
    exact close_outcome (ptPressReading_does _) trivial fun r es _ => .ended es r.1 none _ trivial
  case htInit =>
    rw [execHtInit, runCommand_idle hb]
    exact close_outcome (busRead_does (P := fun _ => True) fun _ => trivial) rfl fun b es _ => .identified es b
  case htPdown =>
    rw [execHtPdown, runCommand_idle hb]
    exact requireInited_outcome (.inl rfl) htPdown_outcome
  case htAct =>
    rw [execHtAct_eq hb]
    exact requireInited_outcome rfl htAct_outcome
  case htSetbdu a =>
    rw [execHtSetbdu, runCommand_idle hb]
    cases a <;> exact requireInited_outcome trivial fun _ => rmw_outcome fun _ => trivial
  case htCal =>
    rw [execHtCal, hb]
    exact raise_outcome trivial
  case htRdh =>
    rw [execHtRdh, startCommand_idle hb]
    exact requireActive_outcome .hum s
  case htRdtc =>
    rw [execHtRdtc, startCommand_idle hb]
    exact requireActive_outcome .temp s

theorem exec_next_outcome {i : Instr} {s t : State} (hb : s.busy = false) (h : exec i s = .next t) :
    CommandOutcome s i (.next t) := h ▸ exec_outcome i hb

end Sys2Proof.Machine
end

section
/-! PROOFS. The state of the block between steps (10_state.md rules R22 to R34). -/

namespace Sys2Proof.Machine

/-! ## The invariant -/

theorem channelCal_ne_none_of_inv {s : State} (hs : s.Inv) (ha : s.htState = .active) (ch : Channel) :
    channelCal ch s.cal ≠ none := by
  obtain ⟨-, hcal, -⟩ := hs
  rw [calMatchesState, if_pos ha] at hcal
  obtain ⟨k, hk⟩ := channelCal_of_full hcal ch
  rw [hk]
  nofun

theorem unpackCal_isFull (r : CalBytes) : (unpackCal r).isFull = true := rfl

/-- A finished command is idle, so `CAL` alone is left to match. -/
theorem finish_inv {s : State} (h : calMatchesState s.cal s.htState = true) (st : Status) (byte : Option Byte)
    (value : Option FNum) : (s.finish st byte value).Inv := ⟨rfl, h, .inl ⟨rfl, rfl⟩⟩

theorem pollWithin_zero (p : PollLimit) : pollWithin p 0 = true := by
  cases p <;> simp [pollWithin]

theorem pollWithin_succ {p : PollLimit} {n : Nat} (h : pollWithin p n = true) (hp : p ≠ .reads n) :
    pollWithin p (n + 1) = true := by
  cases p with
  | inf => rfl
  | reads k =>
    have hle : n ≤ k := of_decide_eq_true h
    have hne : k ≠ n := fun hk => hp (hk ▸ rfl)
    exact decide_eq_true (by omega)

theorem accept_setPollCnt_inv {s : State} (hs : s.Inv) (ha : s.htState = .active) (ch : Channel) :
    ((s.accept (channelInstr ch)).setPollCnt 0).Inv := by
  obtain ⟨hlock, hcal, -⟩ := hs
  exact ⟨hlock, hcal, .inr ⟨rfl, by cases ch <;> simp [State.accept, State.setPollCnt, channelInstr], ha, pollWithin_zero _⟩⟩

/-- A busy block that meets the invariant is inside a poll, in `ACTIVE` and within its limit. -/
theorem polling_of_inv {s : State} (hs : s.Inv) (hb : s.busy = true) :
    (∃ ch, s.Polling ch) ∧ s.htState = .active ∧ pollWithin s.params.pollLimit s.pollCnt = true := by
  obtain ⟨hlock, -, ⟨hidle, -⟩ | ⟨-, hrun, ha, hpoll⟩⟩ := hs
  · rw [hb] at hidle
    cases hidle
  · exact ⟨hrun.elim (fun h => ⟨.hum, hb, hlock, h⟩) fun h => ⟨.temp, hb, hlock, h⟩, ha, hpoll⟩

/-- A turn of a poll from the invariant does not stop, and keeps it. -/
theorem TurnOutcome.inv {ch : Channel} {s : State} {o : Host.Outcome State Fault Refusal} (h : TurnOutcome ch s o)
    (hs : s.Inv) (hb : s.busy = true) : ∃ t, o = .next t ∧ t.Inv := by
  obtain ⟨-, ha, hpoll⟩ := polling_of_inv hs hb
  have hfull := channelCal_ne_none_of_inv hs ha ch
  obtain ⟨hlock, hcal, hcase⟩ := hs
  cases h with
  | ended es n st byte value => exact ⟨_, rfl, finish_inv (by exact hcal) st byte value⟩
  | again es hlimit =>
    obtain ⟨hidle, -⟩ | ⟨-, hrun, -⟩ := hcase
    · rw [hb] at hidle
      cases hidle
    · exact ⟨_, rfl, hlock, hcal, .inr ⟨hb, hrun, ha, pollWithin_succ hpoll hlimit⟩⟩
  | emptyCal hnone => exact absurd hnone hfull

/-- HT.INIT neither enters nor leaves `ACTIVE`. -/
theorem calMatchesState_initedFrom {c : Cal} {h : HtState} (hc : calMatchesState c h = true) :
    calMatchesState c (initedFrom h) = true := by
  cases h <;> exact hc

/-- A command from the invariant does not stop, and keeps it. -/
theorem CommandOutcome.inv {i : Instr} {s : State} {o : Host.Outcome State Fault Refusal} (h : CommandOutcome s i o)
    (hs : s.Inv) : ∃ t, o = .next t ∧ t.Inv := by
  obtain ⟨-, hcal, -⟩ := id hs
  cases h with
  | ended es st byte value => exact ⟨_, rfl, finish_inv (by exact hcal) st byte value⟩
  | identified es b => exact ⟨_, rfl, finish_inv (by exact calMatchesState_initedFrom hcal) _ _ _⟩
  | poweredDown es st => exact ⟨_, rfl, finish_inv (by rfl) _ _ _⟩
  | activated es r => exact ⟨_, rfl, finish_inv (by exact unpackCal_isFull r) _ _ _⟩
  | activationFailed es => exact ⟨_, rfl, finish_inv (by rfl) _ _ _⟩
  | turn ch ha hturn => exact hturn.inv (accept_setPollCnt_inv hs ha ch) rfl

/-! ## The step -/

theorem step_command {s : State} {w : Byte} {rest : List Byte} {i : Instr} (hb : s.busy = false)
    (hc : s.cmd = w :: rest) (hd : decode w = some i) : step s = exec i (s.setCmd rest) := by
  rw [step, hb, if_neg Bool.false_ne_true, fetchCommand, hc]
  simp only [hd]

theorem step_waiting {s : State} (hb : s.busy = false) (hc : s.cmd = []) : step s = .next s := by
  rw [step, hb, if_neg Bool.false_ne_true, fetchCommand, hc]

/-- Everything a step of a busy block can do. -/
theorem step_busy_cases {s : State} (hb : s.busy = true) :
    (∃ ch, step s = pollTurn ch s) ∨ step s = .fault .lostPosition := by
  rw [step, if_pos hb, resumePoll]
  split
  · exact .inl ⟨.hum, rfl⟩
  · exact .inl ⟨.temp, rfl⟩
  · exact .inr rfl

theorem step_inv {s : State} (hs : s.Inv) : ∃ t, step s = .next t ∧ t.Inv := by
  cases hb : s.busy with
  | true =>
    obtain ⟨⟨ch, hp⟩, -⟩ := polling_of_inv hs hb
    rw [step_polling hp]
    exact (pollTurn_outcome ch s).inv hs hb
  | false =>
    rw [step, hb, if_neg Bool.false_ne_true]
    rcases fetchCommand_cases s with hf | ⟨w, rest, -, ⟨i, -, hf⟩ | ⟨-, hf⟩⟩ <;> rw [hf]
    · exact ⟨s, rfl, hs⟩
    · exact (exec_outcome i (s := s.setCmd rest) hb).inv hs
    · exact ⟨_, rfl, finish_inv (s := s.setCmd rest) hs.2.1 _ _ _⟩

theorem exec_busy {i : Instr} {s : State} (hb : s.busy = true) (hi : i ≠ .htCal ∨ s.running ≠ some .htAct) :
    exec i s = .fault .commandWhileBusy := by
  cases i
  case htCal => rw [exec, execHtCal, if_pos hb, if_neg (hi.resolve_left (not_not_intro rfl))]
  all_goals exact if_pos hb

/-! ## The result -/

/-- The host can read the result of a finished command (10_state.md rule R28). -/
theorem finish_readable (s : State) (st : Status) (byte : Option Byte) (value : Option FNum) :
    (s.finish st byte value).Idle ∧ (s.finish st byte value).res.status.isSome = true ∧
      hostReadRes (s.finish st byte value) = .next (s.finish st byte value).res :=
  ⟨finish_idle st byte value s, rfl, rfl⟩

theorem TurnOutcome.readable {ch : Channel} {s t : State} (h : TurnOutcome ch s (.next t)) (hs : s.busy = true)
    (ht : t.busy = false) : t.Idle ∧ t.res.status.isSome = true ∧ hostReadRes t = .next t.res := by
  cases h with
  | ended => exact finish_readable _ _ _ _
  | again => exact absurd (hs.symm.trans ht) nofun

theorem CommandOutcome.readable {i : Instr} {s t : State} (h : CommandOutcome s i (.next t)) (ht : t.busy = false) :
    t.Idle ∧ t.res.status.isSome = true ∧ hostReadRes t = .next t.res := by
  cases h with
  | turn ch ha hturn => exact hturn.readable rfl ht
  | _ => exact finish_readable _ _ _ _

end Sys2Proof.Machine

open Sys2Proof Sys2Proof.Machine

/-- Settles O32: a command by `CommandOutcome`, a turn of a poll by `TurnOutcome`. -/
theorem stepKeepsBlockInvariant : Obligations.StepKeepsBlockInvariant := fun _ hs => step_inv hs

/-- Settles O6: a busy block makes a turn of its poll, which leaves the words on CMD, and accepts no command. -/
theorem busyBlockAcceptsNoCommand : Obligations.BusyBlockAcceptsNoCommand := by
  refine ⟨fun s t hb h => ?_, fun i s hb hi => exec_busy hb hi⟩
  rcases step_busy_cases hb with ⟨ch, hs⟩ | hs <;> rw [hs] at h
  · obtain ⟨-, -, hcmd, -⟩ := TurnOutcome.frame (h ▸ pollTurn_outcome ch s)
    exact hcmd
  · cases h

/-- Settles O38: row by row over what a command can answer. -/
theorem htStateFollowsTable : Obligations.HtStateFollowsTable := by
  intro i s t hs h
  cases exec_next_outcome hs.1 h with
  | ended es st byte value hkeeps =>
    cases i
    case htInit => exact (if_neg fun hc => hc.1 (congrArg some hkeeps)).symm
    case htAct => exact (show s.htState = .uninit from hkeeps).trans (if_pos hkeeps).symm
    case htPdown =>
      refine ⟨id, fun hne hok => ?_, .inl rfl⟩
      rcases hkeeps with hu | rfl
      · exact absurd hu hne
      · cases hok
    all_goals rfl
  | identified es b =>
    have hst : some (if b = htId then Status.ok else .idMismatch) ≠ some .transportErr := by split <;> nofun
    exact if_congr (iff_and_self.2 fun _ => hst) rfl rfl
  | poweredDown es st hstate => exact ⟨fun hu => absurd hu hstate, fun _ _ => rfl, .inr rfl⟩
  | activated es r hstate => exact (if_neg hstate).symm
  | activationFailed es hstate => exact (if_neg hstate).symm
  | turn ch ha hturn =>
    obtain ⟨-, hht, -⟩ := hturn.frame
    cases ch <;> exact hht

/-- Settles O39: only the ends of HT.ACT and HT.PDOWN write `CAL`. -/
theorem onlyActivationPopulatesCal : Obligations.OnlyActivationPopulatesCal := by
  intro i s t hs h
  cases exec_next_outcome hs.1 h with
  | ended => exact .inl rfl
  | identified => exact .inl rfl
  | poweredDown => exact .inr (.inl ⟨rfl, .inr rfl⟩)
  | activated es r => exact .inr (.inr ⟨unpackCal_isFull r, rfl, rfl⟩)
  | activationFailed => exact .inr (.inl ⟨rfl, .inl rfl⟩)
  | turn ch ha hturn => exact .inl hturn.frame.1

/-- Settles O42: whatever ends a command is a `finish`. -/
theorem finishedCommandLeavesIdleBlock : Obligations.FinishedCommandLeavesIdleBlock := by
  refine ⟨fun i s t hs h ht => (exec_next_outcome hs.1 h).readable ht, fun ch s t hs h ht => ?_, fun s hb => ?_,
    fun s hb hr => ?_⟩
  · rw [step_polling hs] at h
    exact (h ▸ pollTurn_outcome ch s).readable hs.1 ht
  · exact if_pos hb
  · rw [hostReadRes, hb, if_neg Bool.false_ne_true, if_pos hr]

/-- Settles O3: `step_command`. -/
theorem stepRunsDecodedCommand : Obligations.StepRunsDecodedCommand := fun _ _ _ _ hb hc hd => step_command hb hc hd

/-- Settles O5: the runs from reset by induction on the number of steps. -/
theorem idleBlockWaits : Obligations.IdleBlockWaits := by
  refine ⟨fun _ hb hc => step_waiting hb hc, fun k => ?_⟩
  induction k with
  | zero => rfl
  | succ k ih => exact (run_succ (step_waiting rfl rfl) k).trans ih

/-- Settles O7: the table by evaluation, the wait because CMD is empty. -/
theorem resetLeavesTable : Obligations.ResetLeavesTable :=
  ⟨rfl, rfl, rfl, rfl, rfl, step_waiting rfl rfl⟩

/-- Settles O8: both code tables by evaluation. -/
theorem statusAndStateCodes : Obligations.StatusAndStateCodes := ⟨rfl, rfl⟩
end

section
/-! PROOFS. The PT unit does not see the HT unit (10_state.md rule R25). -/

namespace Sys2Proof.Machine

/-! ## Two states that agree on the bus -/

/-- The bus, LOCK and the parameters are the same; anything else may differ. -/
structure State.SameBus (s s' : State) : Prop where
  answers : s.answers = s'.answers
  events : s.events = s'.events
  params : s.params = s'.params
  lock : s.lock = s'.lock

/-- The same result, in states that agree on the bus. -/
inductive Reply.Agree {α : Type} : Reply α → Reply α → Prop
  | ok {s s' : State} (a : α) (h : s.SameBus s') : Agree (.ok a s) (.ok a s')
  | err {s s' : State} (h : s.SameBus s') : Agree (.err s) (.err s')

theorem State.SameBus.setLock {s s' : State} (h : s.SameBus s') (b : Bool) : (s.setLock b).SameBus (s'.setLock b) :=
  ⟨h.answers, h.events, h.params, rfl⟩

theorem State.SameBus.transact {s s' : State} (h : s.SameBus s') (x : Txn) : (s.transact x).SameBus (s'.transact x) := by
  obtain ⟨ha, he, hp, hl⟩ := h
  exact ⟨congrArg List.tail ha, by simp only [State.transact, ha, he, hl], hp, hl⟩

theorem busRead_agree (dev reg : Byte) {s s' : State} (h : s.SameBus s') :
    (busRead dev reg s).Agree (busRead dev reg s') := by
  rw [busRead, busRead, ← h.answers, ← h.events]
  cases nextAnswer s.answers s.events (.read dev reg) with
  | ok b => exact .ok b (h.transact _)
  | error => exact .err (h.transact _)

theorem busWrite_agree (dev reg v : Byte) {s s' : State} (h : s.SameBus s') :
    (busWrite dev reg v s).Agree (busWrite dev reg v s') := by
  rw [busWrite, busWrite, ← h.answers, ← h.events]
  cases nextAnswer s.answers s.events (.write dev reg v) with
  | ok b => exact .ok () (h.transact _)
  | error => exact .err (h.transact _)

theorem Reply.Agree.andThen {α β : Type} {r r' : Reply α} {k : α → State → Reply β} (h : r.Agree r')
    (hk : ∀ a {t t' : State}, t.SameBus t' → (k a t).Agree (k a t')) : (r.andThen k).Agree (r'.andThen k) := by
  cases h with
  | ok a h => exact hk a h
  | err h => exact .err h

theorem rmw_agree (dev reg setm clrm : Byte) {s s' : State} (h : s.SameBus s') :
    (rmw dev reg setm clrm s).Agree (rmw dev reg setm clrm s') :=
  (busRead_agree dev reg (h.setLock true)).andThen fun _ _ _ h =>
    (busWrite_agree dev reg _ h).andThen fun _ _ _ h => .ok () (h.setLock false)

theorem fetch2_agree (dev r0 r1 : Byte) {s s' : State} (h : s.SameBus s') :
    (fetch2 dev r0 r1 s).Agree (fetch2 dev r0 r1 s') :=
  (busRead_agree dev r0 (h.setLock true)).andThen fun _ _ _ h =>
    (busRead_agree dev r1 h).andThen fun _ _ _ h => .ok _ (h.setLock false)

theorem fetch3_agree (dev r0 r1 r2 : Byte) {s s' : State} (h : s.SameBus s') :
    (fetch3 dev r0 r1 r2 s).Agree (fetch3 dev r0 r1 r2 s') :=
  (busRead_agree dev r0 (h.setLock true)).andThen fun _ _ _ h =>
    (busRead_agree dev r1 h).andThen fun _ _ _ h =>
      (busRead_agree dev r2 h).andThen fun _ _ _ h => .ok _ (h.setLock false)

theorem ptTempReading_agree {s s' : State} (h : s.SameBus s') : (ptTempReading s).Agree (ptTempReading s') :=
  (busRead_agree ptDev regStatus h).andThen fun st _ _ h => by
    split
    · exact (fetch2_agree ptDev ptTLo ptTHi h).andThen fun _ _ _ h => .ok _ h
    · exact .ok _ h

theorem ptPressReading_agree {s s' : State} (h : s.SameBus s') : (ptPressReading s).Agree (ptPressReading s') :=
  (busRead_agree ptDev regStatus h).andThen fun st _ _ h => by
    split
    · exact (fetch3_agree ptDev ptPLo ptPMid ptPHi h).andThen fun _ _ _ h => .ok _ h
    · exact .ok _ h

/-! ## Ends of commands -/

/-- What the host and the bus see of a finished command. -/
def State.SameResult (s s' : State) : Prop := s'.res = s.res ∧ s'.events = s.events ∧ s'.answers = s.answers

theorem State.SameBus.finish {s s' : State} (h : s.SameBus s') (st : Status) (byte : Option Byte) (value : Option FNum) :
    (s.finish st byte value).SameResult (s'.finish st byte value) := ⟨rfl, h.events.symm, h.answers.symm⟩

theorem State.SameBus.deliver {s s' : State} (h : s.SameBus s') (st : Status) (e : FExpr) :
    (s.deliver st e).SameResult (s'.deliver st e) := by
  rw [State.deliver, State.deliver, h.params]
  exact h.finish st none _

theorem Reply.Agree.close {α : Type} {r r' : Reply α} {k : α → State → State} (h : r.Agree r')
    (hk : ∀ a {t t' : State}, t.SameBus t' → (k a t).SameResult (k a t')) : (r.close k).SameResult (r'.close k) := by
  cases h with
  | ok a h => exact hk a h
  | err h => exact h.finish .transportErr none none

/-- A command whose body gives the same result from states that agree on the bus. -/
theorem runCommand_sameResult {i : Instr} {s s' t : State} {body : State → State} (hb : s.busy = false)
    (hb' : s'.busy = false) (h : runCommand i s body = .next t)
    (hbody : (body (s.accept i)).SameResult (body (s'.accept i))) :
    ∃ t', runCommand i s' body = .next t' ∧ t.SameResult t' := by
  rw [runCommand_idle hb] at h
  cases h
  exact ⟨_, runCommand_idle hb', hbody⟩

end Sys2Proof.Machine

open Sys2Proof Sys2Proof.Machine

/-- Settles O41: a PT command is a sequence of transactions and an end, and neither looks at more than the bus. -/
theorem ptCommandsIgnoreHtUnit : Obligations.PtCommandsIgnoreHtUnit := by
  intro i s s' t hi hs hs' ha he hp h
  have hbus : (s.accept i).SameBus (s'.accept i) := ⟨ha, he, hp, hs.2.1.trans hs'.2.1.symm⟩
  rcases hi with rfl | rfl | rfl | rfl | rfl <;>
    simp only [exec, execPtInit, execPtIdent, execPtRdtc, execPtRdtf, execPtRdpm] at h ⊢ <;>
    refine runCommand_sameResult hs.1 hs'.1 h ?_
  · exact (rmw_agree _ _ _ _ hbus).close fun _ _ _ h => h.finish .ok none none
  · exact (busRead_agree _ _ hbus).close fun b _ _ h => h.finish .ok (some b) none
  · exact (ptTempReading_agree hbus).close fun r _ _ h => h.deliver r.1 r.2
  · exact (ptTempReading_agree hbus).close fun r _ _ h => h.deliver r.1 (c2f r.2)
  · exact (ptPressReading_agree hbus).close fun r _ _ h => h.deliver r.1 r.2
end

section
/-! PROOFS. What one step puts on the bus, whatever the environment answers: at most fifteen transactions, each one of the
address map (20_memory.md rules R43, R47 and R52), and a transport error ends the command (rule R51). -/

namespace Sys2Proof.Machine

/-! ## The bus between two states -/

/-- From `s` to `t` the transactions `es`, and no others, are made (20_memory.md rule R48). -/
structure State.Extends (s : State) (es : List Event) (t : State) : Prop where
  events : t.events = s.events ++ es
  answers : t.answers = s.answers.drop es.length
  params : t.params = s.params

theorem extends_nil {s t : State} (he : t.events = s.events) (ha : t.answers = s.answers) (hp : t.params = s.params) :
    s.Extends [] t := ⟨he.trans (List.append_nil _).symm, ha, hp⟩

theorem extends_afterScript (s : State) (es : List Event) (b : Bool) : s.Extends es ((s.afterScript es).setLock b) :=
  ⟨rfl, rfl, rfl⟩

theorem State.Extends.trans {s u t : State} {es fs : List Event} (h : s.Extends es u) (h' : u.Extends fs t) :
    s.Extends (es ++ fs) t where
  events := by rw [h'.events, h.events, List.append_assoc]
  answers := by rw [h'.answers, h.answers, List.drop_drop, List.length_append]
  params := h'.params.trans h.params

/-- The command has ended with `TRANSPORT_ERR`. -/
def State.EndedInTransportErr (t : State) : Prop := t.busy = false ∧ t.res.status = some .transportErr

/-- What a command or a turn of a poll, begun in `s`, can answer: at most `n` transactions, each with the property `P`, and
either none is an error, or the last one alone is and the command ends there with `TRANSPORT_ERR` (20_memory.md rule R51). -/
inductive BusOutcome (P : Event → Prop) (s : State) (n : Nat) : Host.Outcome State Fault Refusal → Prop
  | clean {t : State} (es : List Event) (hext : s.Extends es t) (hlen : es.length ≤ n)
      (hes : ∀ e ∈ es, P e ∧ e.answer ≠ .error) (hend : ¬ t.EndedInTransportErr) : BusOutcome P s n (.next t)
  | failed {t : State} (es : List Event) (e : Event) (hext : s.Extends (es ++ [e]) t) (hlen : es.length + 1 ≤ n)
      (hes : ∀ e ∈ es, P e ∧ e.answer ≠ .error) (he : P e) (herr : e.answer = .error) (hend : t.EndedInTransportErr) :
      BusOutcome P s n (.next t)
  | stopped (f : Fault) : BusOutcome P s n (.fault f)

section
variable {P : Event → Prop} {L : Bool → Prop} {s t u : State} {n k : Nat} {o : Host.Outcome State Fault Refusal}

/-- What is begun after error-free transactions is begun before them. -/
theorem BusOutcome.prepend {es : List Event} (h : BusOutcome P u k o) (hext : s.Extends es u)
    (hes : ∀ e ∈ es, P e ∧ e.answer ≠ .error) (hn : es.length + k ≤ n) : BusOutcome P s n o := by
  have happ {fs : List Event} (hfs : ∀ e ∈ fs, P e ∧ e.answer ≠ .error) (e : Event) (he : e ∈ es ++ fs) :
      P e ∧ e.answer ≠ .error := (List.mem_append.1 he).elim (hes e) (hfs e)
  cases h with
  | clean fs hx hlen hfs hend =>
    exact .clean (es ++ fs) (hext.trans hx) (by rw [List.length_append]; omega) (happ hfs) hend
  | failed fs e hx hlen hfs he herr hend =>
    exact .failed (es ++ fs) e (by rw [List.append_assoc]; exact hext.trans hx) (by rw [List.length_append]; omega)
      (happ hfs) he herr hend
  | stopped f => exact .stopped f

/-- The start may be moved to a state with the same bus. -/
theorem BusOutcome.of_start (h : BusOutcome P u k o) (hext : s.Extends [] u) (hn : k ≤ n) : BusOutcome P s n o :=
  h.prepend hext nofun (by rw [List.length_nil]; omega)

/-- An end without a transaction. -/
theorem BusOutcome.quiet (hext : s.Extends [] t) (hend : t.res.status ≠ some .transportErr) : BusOutcome P s n (.next t) :=
  .clean [] hext (Nat.zero_le n) nofun fun h => hend h.2

theorem BusOutcome.of_ok {α : Type} {a : α} (h : (Reply.ok a u).Does s P n L) (hk : L u.lock → BusOutcome P u k o) :
    BusOutcome P s (n + k) o := by
  obtain ⟨es, b, hlen, hes, hL, rfl⟩ := h
  exact (hk hL).prepend (extends_afterScript s es b) hes (by omega)

theorem BusOutcome.of_err {α : Type} (h : (Reply.err u : Reply α).Does s P n L) (hext : u.Extends [] t)
    (hend : t.EndedInTransportErr) : BusOutcome P s n (.next t) := by
  obtain ⟨es, e, b, hlen, hes, he, herr, rfl⟩ := h
  refine .failed es e ?_ hlen hes he herr hend
  simpa using (extends_afterScript s (es ++ [e]) b).trans hext

/-- A sequence of transactions and what the command does after it. -/
theorem BusOutcome.closeWith {α : Type} {r : Reply α} {e : State → State} {f : α → State → State} (h : r.Does s P n L)
    (he : ∀ u : State, u.Extends [] (e u) ∧ (e u).EndedInTransportErr)
    (hf : ∀ a u, L u.lock → u.params = s.params → BusOutcome P u k (.next (f a u))) :
    BusOutcome P s (n + k) (.next (r.closeWith e f)) := by
  cases r with
  | ok a u =>
    have hp : u.params = s.params := by
      obtain ⟨es, b, -, -, -, rfl⟩ := h
      rfl
    exact .of_ok h fun hL => hf a u hL hp
  | err u => exact (BusOutcome.of_err h (he u).1 (he u).2).of_start (extends_nil rfl rfl rfl) (Nat.le_add_right n k)

theorem BusOutcome.close {α : Type} {r : Reply α} {f : α → State → State} (h : r.Does s P n L)
    (hf : ∀ a u, L u.lock → BusOutcome P u k (.next (f a u))) : BusOutcome P s (n + k) (.next (r.close f)) := by
  rw [Reply.close_eq]
  exact .closeWith h (fun _ => ⟨extends_nil rfl rfl rfl, rfl, rfl⟩) fun a u hL _ => hf a u hL

/-! ## Commands -/

theorem requireInited_busOutcome {body : State → State} (h : BusOutcome P s n (.next (body s))) :
    BusOutcome P s n (.next (requireInited s body)) := by
  rw [requireInited]
  split
  · exact .quiet (extends_nil rfl rfl rfl) nofun
  · exact h

theorem requireActive_busOutcome {body : State → Host.Outcome State Fault Refusal} (h : BusOutcome P s n (body s)) :
    BusOutcome P s n (requireActive s body) := by
  rw [requireActive]
  split
  · exact h
  · exact .quiet (extends_nil rfl rfl rfl) nofun

end

section
variable {m : CalMap} {l : Bool} {s : State}

theorem rmw_busOutcome {dev : Byte} {setm clrm : Byte} (hdev : dev = ptDev ∨ dev = htDev) :
    BusOutcome (inMapIf m l) s 2 (.next ((rmw dev regCtrl setm clrm s).close fun _ s => s.finish .ok none none)) :=
  .close (n := 2) (k := 0) (rmw_does (fun _ _ => by rcases hdev with rfl | rfl <;> rfl)
    fun _ _ _ => by rcases hdev with rfl | rfl <;> rfl) fun _ _ _ => .quiet (extends_nil rfl rfl rfl) nofun

/-- The identity read, and an end without a transaction (40_pressure_temp.md rule R105, 41_humidity_control.md rule R120). -/
theorem whoami_busOutcome {dev : Byte} {f : Byte → State → State} (hdev : dev = ptDev ∨ dev = htDev)
    (hl : l = false → s.lock = false)
    (hf : ∀ b u, u.Extends [] (f b u) ∧ (f b u).res.status ≠ some .transportErr) :
    BusOutcome (inMapIf m l) s 1 (.next ((busRead dev regWhoami s).close f)) :=
  .close (n := 1) (k := 0) (busRead_does fun _ h => by rw [hl h]; rcases hdev with rfl | rfl <;> rfl)
    fun b u _ => .quiet (hf b u).1 (hf b u).2

/-- The PT readings: the status read, and then the locked fetch or the sentinel (40_pressure_temp.md rules R106 to R108). -/
theorem ptReading_busOutcome {β : Type} {n : Nat} {ready : Byte → Bool} {fetch : State → Reply β} {value : β → FExpr}
    {sentinel : FExpr} {f : FExpr → FExpr} (hl : l = false → s.lock = false)
    (hf : ∀ u : State, (fetch u).Does u (inMapIf m l) n (· = false)) :
    BusOutcome (inMapIf m l) s (1 + n) (.next (((busRead ptDev regStatus s).andThen fun st s =>
      if ready st then (fetch s).andThen fun b s => .ok (Status.ok, value b) s
      else .ok (.notReady, sentinel) s).close fun r s => s.deliver r.1 (f r.2))) := by
  rw [Reply.close_andThen]
  refine .close (busRead_does fun _ h => by rw [hl h]; rfl) fun st u _ => ?_
  split
  · rw [Reply.close_andThen]
    exact .close (k := 0) (hf u) fun _ _ _ => .quiet (extends_nil rfl rfl rfl) nofun
  · exact .quiet (extends_nil rfl rfl rfl) nofun

theorem ptTempReading_busOutcome {f : FExpr → FExpr} (hl : l = false → s.lock = false) :
    BusOutcome (inMapIf m l) s 3 (.next ((ptTempReading s).close fun r s => s.deliver r.1 (f r.2))) :=
  ptReading_busOutcome hl fun _ => fetch2_does (fun _ _ => rfl) fun _ _ => rfl

theorem ptPressReading_busOutcome (hl : l = false → s.lock = false) :
    BusOutcome (inMapIf m l) s 4 (.next ((ptPressReading s).close fun r s => s.deliver r.1 r.2)) :=
  ptReading_busOutcome (f := id) hl fun _ => fetch3_does (fun _ _ => rfl) (fun _ _ => rfl) fun _ _ => rfl

/-- HT.PDOWN once its state is checked (41_humidity_control.md rule R121). -/
theorem htPdown_busOutcome :
    BusOutcome (inMapIf m l) s 2 (.next
      (((busRead htDev regCtrl (s.setLock true)).andThen fun old s =>
        (busWrite htDev regCtrl (rmwByte old 0 htPower) ((s.setCal Cal.empty).setHtState .pdown)).andThen fun _ s =>
          .ok () (s.setLock false)).close fun _ s => s.finish .ok none none)) := by
  rw [Reply.close_andThen]
  refine .close (n := 1) (k := 1) (does_of_setLock (busRead_does fun _ _ => rfl)) fun old u hlock => ?_
  rw [Reply.close_andThen]
  refine BusOutcome.of_start (u := (u.setCal Cal.empty).setHtState .pdown) ?_ (extends_nil rfl rfl rfl) le_rfl
  exact .close (n := 1) (k := 0) (busWrite_does fun _ _ => by
      rw [State.setHtState_lock, State.setCal_lock, hlock]
      rfl)
    fun _ _ _ => .quiet (extends_nil rfl rfl rfl) nofun

/-- HT.ACT once its state is checked (41_humidity_control.md rule R122). -/
theorem htAct_busOutcome (hm : s.params.calMap = m) :
    BusOutcome (inMapIf m l) s 15 (.next
      (((rmw htDev regCtrl htPowerOdr 0 (s.setCal Cal.empty)).andThen fun _ s => calibrate s).closeWith
        activationFails fun _ s => (s.setHtState .active).finish .ok none none)) := by
  have hfails (u : State) : u.Extends [] (activationFails u) ∧ (activationFails u).EndedInTransportErr :=
    ⟨extends_nil rfl rfl rfl, rfl, rfl⟩
  refine BusOutcome.of_start (u := s.setCal Cal.empty) ?_ (extends_nil rfl rfl rfl) le_rfl
  rw [Reply.closeWith_andThen]
  refine .closeWith (n := 2) (k := 13) (rmw_does (fun _ _ => rfl) fun _ _ _ => rfl) hfails fun _ u hlock hp => ?_
  obtain rfl : u.params.calMap = m := (congrArg Params.calMap hp).trans hm
  rw [calibrate, Reply.closeWith_andThen]
  exact .closeWith (n := 13) (k := 0) (calReads_does u l fun _ => hlock) hfails
    fun _ _ _ _ => .quiet (extends_nil rfl rfl rfl) nofun

/-! ## The status poll -/

theorem convertSample_busOutcome (P : Event → Prop) (ch : Channel) (raw : Code16) (s : State) :
    BusOutcome P s 0 (convertSample ch raw s) := by
  cases hk : channelCal ch s.cal with
  | none =>
    rw [convertSample_empty hk]
    exact .stopped _
  | some k =>
    rw [convertSample_of_cal hk]
    split <;> exact .quiet (extends_nil rfl rfl rfl) nofun

theorem fetchSample_busOutcome (ch : Channel) : BusOutcome (inMapIf m l) s 2 (fetchSample ch s) := by
  have hd : (fetch2 htDev (channelLo ch) (channelHi ch) s).Does s (inMapIf m l) 2 (· = false) :=
    fetch2_does (fun _ _ => by cases ch <;> rfl) fun _ _ => by cases ch <;> rfl
  rw [fetchSample]
  cases hf : fetch2 htDev (channelLo ch) (channelHi ch) s with
  | ok b u =>
    rw [hf] at hd
    exact .of_ok hd fun _ => convertSample_busOutcome _ ch _ u
  | err u =>
    rw [hf] at hd
    exact .of_err hd (extends_nil rfl rfl rfl) ⟨rfl, rfl⟩

/-- One turn of a poll (43_interpolation.md rule R165); the head of the next turn is no end. -/
theorem pollTurn_busOutcome (ch : Channel) (hb : s.busy = true) (hl : l = false → s.lock = false) :
    BusOutcome (inMapIf m l) s 3 (pollTurn ch s) := by
  have hmap (a : Answer) : inMapIf m l ⟨s.lock, .read htDev regStatus, a⟩ := fun h => by rw [hl h]; rfl
  rw [pollTurn]
  split
  · exact .quiet (extends_nil rfl rfl rfl) nofun
  · rcases busRead_cases htDev regStatus s with ⟨st, -, h⟩ | ⟨-, h⟩ <;> rw [h] <;> dsimp only
    · have hread : ∀ e ∈ [readOk s.lock htDev regStatus st], inMapIf m l e ∧ e.answer ≠ .error := fun e he => by
        obtain rfl := List.mem_singleton.1 he
        exact ⟨hmap _, nofun⟩
      split
      · exact (fetchSample_busOutcome ch).prepend ⟨rfl, rfl, rfl⟩ hread le_rfl
      · exact .clean _ ⟨rfl, rfl, rfl⟩ (Nat.le_add_left 1 2) hread fun hend => absurd (hb.symm.trans hend.1) nofun
    · exact .failed [] _ ⟨rfl, rfl, rfl⟩ (Nat.le_add_left 1 2) nofun (hmap _) rfl ⟨rfl, rfl⟩

/-- HT.RDH and HT.RDTC once accepted (43_interpolation.md rules R166 and R167). -/
theorem readCommand_busOutcome {i : Instr} (ch : Channel) (hl : l = false → s.lock = false) :
    BusOutcome (inMapIf m l) (s.accept i) 3 (requireActive (s.accept i) fun s => pollTurn ch (s.setPollCnt 0)) :=
  have hturn : BusOutcome (inMapIf m l) ((s.accept i).setPollCnt 0) 3 (pollTurn ch ((s.accept i).setPollCnt 0)) :=
    pollTurn_busOutcome ch rfl hl
  requireActive_busOutcome (hturn.of_start (extends_nil rfl rfl rfl) le_rfl)

/-! ## A step -/

theorem exec_busOutcome (i : Instr) (hb : s.busy = false) :
    BusOutcome (inMapIf s.params.calMap s.lock) s 15 (exec i s) := by
  have hstart {i : Instr} {k : Nat} {o : Host.Outcome State Fault Refusal}
      (h : BusOutcome (inMapIf s.params.calMap s.lock) (s.accept i) k o) (hk : k ≤ 15) :
      BusOutcome (inMapIf s.params.calMap s.lock) s 15 o := h.of_start (extends_nil rfl rfl rfl) hk
  cases i <;> rw [exec]
  case ptInit =>
    rw [execPtInit, runCommand_idle hb]
    exact hstart (rmw_busOutcome (.inl rfl)) (by decide)
  case ptIdent =>
    rw [execPtIdent, runCommand_idle hb]
    exact hstart (whoami_busOutcome (.inl rfl) id fun _ _ => ⟨extends_nil rfl rfl rfl, nofun⟩) (by decide)
  case ptRdtc =>
    rw [execPtRdtc, runCommand_idle hb]
    exact hstart (ptTempReading_busOutcome (f := id) id) (by decide)
  case ptRdtf =>
    rw [execPtRdtf, runCommand_idle hb]
    exact hstart (ptTempReading_busOutcome id) (by decide)
  case ptRdpm =>
    rw [execPtRdpm, runCommand_idle hb]
    exact hstart (ptPressReading_busOutcome id) (by decide)
  case htInit =>
    rw [execHtInit, runCommand_idle hb]
    refine hstart (whoami_busOutcome (.inr rfl) id fun b _ => ⟨extends_nil rfl rfl rfl, ?_⟩) (by decide)
    by_cases hid : b = htId <;> simp [hid]
  case htPdown =>
    rw [execHtPdown, runCommand_idle hb]
    exact hstart (requireInited_busOutcome htPdown_busOutcome) (by decide)
  case htAct =>
    rw [execHtAct_eq hb]
    exact hstart (requireInited_busOutcome (htAct_busOutcome rfl)) le_rfl
  case htSetbdu a =>
    rw [execHtSetbdu, runCommand_idle hb]
    refine hstart (k := 2) (requireInited_busOutcome ?_) (by decide)
    cases a <;> exact rmw_busOutcome (.inr rfl)
  case htCal =>
    rw [execHtCal, hb]
    exact .quiet (extends_nil rfl rfl rfl) nofun
  case htRdh =>
    rw [execHtRdh, startCommand_idle hb]
    exact hstart (readCommand_busOutcome .hum id) (by decide)
  case htRdtc =>
    rw [execHtRdtc, startCommand_idle hb]
    exact hstart (readCommand_busOutcome .temp id) (by decide)

/-- A step waits, or it is a command or a turn of a poll. -/
theorem step_busOutcome (s : State) :
    step s = .next s ∨ BusOutcome (inMapIf s.params.calMap s.lock) s 15 (step s) := by
  cases hb : s.busy with
  | true =>
    refine .inr ?_
    rcases step_busy_cases hb with ⟨ch, h⟩ | h <;> rw [h]
    · exact (pollTurn_busOutcome ch hb id).of_start (extends_nil rfl rfl rfl) (by decide)
    · exact .stopped _
  | false =>
    rw [step, hb, if_neg Bool.false_ne_true]
    rcases fetchCommand_cases s with hf | ⟨w, rest, -, ⟨i, -, hf⟩ | ⟨-, hf⟩⟩ <;> rw [hf]
    · exact .inl rfl
    · exact .inr ((exec_busOutcome i (s := s.setCmd rest) hb).of_start (extends_nil rfl rfl rfl) le_rfl)
    · exact .inr (.quiet (extends_nil rfl rfl rfl) nofun)

end

/-! ## What a step adds to the history -/

theorem BusOutcome.history {P : Event → Prop} {s t : State} {n : Nat} (h : BusOutcome P s n (.next t)) :
    ∃ es, s.Extends es t ∧ es.length ≤ n ∧ ∀ e ∈ es, P e := by
  cases h with
  | clean es hext hlen hes => exact ⟨es, hext, hlen, fun e he => (hes e he).1⟩
  | failed es e hext hlen hes hP =>
    refine ⟨es ++ [e], hext, by simpa using hlen, fun x hx => ?_⟩
    rcases List.mem_append.1 hx with hx | hx
    · exact (hes x hx).1
    · exact List.mem_singleton.1 hx ▸ hP

theorem step_history {s t : State} (h : step s = .next t) :
    ∃ es, s.Extends es t ∧ es.length ≤ 15 ∧ ∀ e ∈ es, inMapIf s.params.calMap s.lock e := by
  rcases step_busOutcome s with hw | ho
  · cases hw.symm.trans h
    exact ⟨[], extends_nil rfl rfl rfl, Nat.zero_le _, nofun⟩
  · exact BusOutcome.history (h ▸ ho)

/-- 20_memory.md rule R51: only the last transaction can be an error, exactly if the command has ended with `TRANSPORT_ERR`. -/
theorem BusOutcome.error_last {P : Event → Prop} {s t : State} {n : Nat} (h : BusOutcome P s n (.next t)) :
    ∃ es, t.events = s.events ++ es ∧ (∀ e ∈ es.dropLast, e.answer ≠ .error) ∧
      ((∃ e ∈ es, e.answer = .error) ↔ t.EndedInTransportErr) := by
  cases h with
  | clean es hext hlen hes hend =>
    exact ⟨es, hext.events, fun e he => (hes e (List.mem_of_mem_dropLast he)).2,
      iff_of_false (fun ⟨e, he, herr⟩ => (hes e he).2 herr) hend⟩
  | failed es e hext hlen hes hP herr hend =>
    exact ⟨es ++ [e], hext.events, fun x hx => (hes x (by simpa using hx)).2,
      iff_of_true ⟨e, by simp, herr⟩ hend⟩

theorem TurnOutcome.lock {ch : Channel} {s t : State} (h : TurnOutcome ch s (.next t)) (hs : s.lock = false) :
    t.lock = false := by
  cases h with
  | ended => rfl
  | again => exact hs

theorem CommandOutcome.lock {i : Instr} {s t : State} (h : CommandOutcome s i (.next t)) (hs : s.lock = false) :
    t.lock = false := by
  cases h with
  | turn ch ha hturn => exact hturn.lock hs
  | _ => rfl

end Sys2Proof.Machine

open Sys2Proof Sys2Proof.Machine

/-- Settles O33: the old history keeps to the map, and so does every transaction of `step_history`. -/
theorem stepKeepsToAddressMap : Obligations.StepKeepsToAddressMap := by
  intro s t hl hs h e he
  obtain ⟨es, hext, -, hmap⟩ := step_history h
  rw [hext.params]
  rw [hext.events] at he
  exact (List.mem_append.1 he).elim (hs e) fun he => hmap e he hl

/-- Settles O35. -/
theorem stepExtendsHistory : Obligations.StepExtendsHistory := by
  intro s t h
  obtain ⟨es, hext, hlen, -⟩ := step_history h
  exact ⟨es, hlen, hext.events, hext.answers, hext.params⟩

/-- Settles O36: a command by `exec_busOutcome`, a turn of a poll by `pollTurn_busOutcome`. -/
theorem transportErrorIsNeverSwallowed : Obligations.TransportErrorIsNeverSwallowed := by
  refine ⟨fun i s t hs h => ?_, fun ch s t hs h => ?_⟩
  · obtain ⟨es, hes, hlast, hiff⟩ := BusOutcome.error_last (h ▸ exec_busOutcome i hs.1)
    exact ⟨es, hes, hlast, (exec_next_outcome hs.1 h).lock hs.2.1, hiff⟩
  · rw [step_polling hs] at h
    obtain ⟨es, hes, hlast, hiff⟩ :=
      BusOutcome.error_last (h ▸ pollTurn_busOutcome (m := s.params.calMap) (l := s.lock) ch hs.1 id)
    exact ⟨es, hes, hlast, TurnOutcome.lock (h ▸ pollTurn_outcome ch s) hs.2.1, hiff⟩
end

section
/-! PROOFS. The fields and the value of RES (30_encoding.md rules R76 and R77). -/

namespace Sys2Proof.Machine

/-! ## Finite values -/

/-- A formula that is finite in `NUM_B64` is finite under either choice of `NUMERICS`. -/
theorem evalF_isFinite {e : FExpr} (h : b64Finite (evalB64 e) = true) (n : Numerics) :
    (evalF n e).isFinite = true := by
  cases n with
  | b64 => exact h
  | q => rfl

/-- A literal between two integers is finite, and its rounding lies between them. -/
theorem lit_between {d : Decimal} {a b : Int} (ha : a.natAbs ≤ 2 ^ 53) (hb : b.natAbs ≤ 2 ^ 53)
    (had : (a : Rat) ≤ evalQ (.lit d)) (hdb : evalQ (.lit d) ≤ b) :
    b64Finite (evalB64 (.lit d)) = true ∧ a ≤ b64Value (evalB64 (.lit d)) ∧ b64Value (evalB64 (.lit d)) ≤ b := by
  have hint {z : Int} (hz : z.natAbs ≤ 2 ^ 53) : |(z : Rat)| ≤ 2 ^ 53 := by
    rw [← Int.cast_abs, ← Nat.cast_natAbs]
    exact_mod_cast hz
  have hbig : |evalQ (.lit d)| ≤ 2 ^ 53 :=
    abs_le.2 ⟨(abs_le.1 (hint ha)).1.trans had, hdb.trans (abs_le.1 (hint hb)).2⟩
  obtain ⟨hfin, hval⟩ := b64OfRat_value (abs_le_big (k := 53) (by decide) hbig)
  have heq : evalB64 (.lit d) = b64OfRat (evalQ (.lit d)) := b64OfDecimal_eq d.mantissa d.scale
  rw [heq, hval]
  exact ⟨hfin, int_le_rnd ha had, rnd_le_int hb hdb⟩

theorem sentinelC_value :
    b64Finite (evalB64 sentinelC) = true ∧ -274 ≤ b64Value (evalB64 sentinelC) ∧
      b64Value (evalB64 sentinelC) ≤ -273 := by
  have h := lit_between (d := ⟨-27315, 2⟩) (a := -274) (b := -273) (by decide) (by decide) (by norm_num [evalQ])
    (by norm_num [evalQ])
  exact_mod_cast h

theorem sentinelMbar_finite : b64Finite (evalB64 sentinelMbar) = true :=
  (lit_between (a := -1) (b := -1) (by decide) (by decide) (by norm_num [evalQ]) (by norm_num [evalQ])).1

theorem c2f_ptTempC_finite (lo hi : Byte) : b64Finite (evalB64 (c2f (ptTempC lo hi))) = true := by
  obtain ⟨hfin, hlow, hhigh⟩ := temp_value lo hi
  exact (c2f_value hfin (by linarith) (by linarith)).1

theorem c2f_sentinelC_finite : b64Finite (evalB64 (c2f sentinelC)) = true := by
  obtain ⟨hfin, hlow, hhigh⟩ := sentinelC_value
  exact (c2f_value hfin (by linarith) (by linarith)).1

theorem interpOperands_of_codes (raw : Code16) {out0 out1 : Code16} {p0 p1 : Nat} {scale : Decimal}
    (hne : (out1.toNat : Int) ≠ out0.toNat)
    (hscale : (scale = ⟨80, 1⟩ ∧ (p0 : Int) ≤ 1023 ∧ (p1 : Int) ≤ 1023) ∨
      (scale = ⟨2, 0⟩ ∧ (p0 : Int) ≤ 255 ∧ (p1 : Int) ≤ 255)) :
    InterpOperands raw.toNat out0.toNat out1.toNat p0 p1 scale := by
  have hraw := raw.isLt
  have h0 := out0.isLt
  have h1 := out1.isLt
  exact ⟨by omega, by omega, by omega, by omega, by omega, by omega, hne, by omega, by omega, hscale⟩

/-- The codes of a channel that is not flat are operands of an interpolation, whatever the sample (43_interpolation.md rules
R160 to R163). -/
theorem channelCal_operands {ch : Channel} {c : Cal} {k : ChannelCal} (h : channelCal ch c = some k) (hspan : k.span ≠ 0)
    (raw : Code16) : InterpOperands raw.toNat k.out0 k.out1 k.p0 k.p1 (channelScale ch) := by
  rw [ChannelCal.span, sub_ne_zero] at hspan
  cases ch with
  | hum =>
    simp only [channelCal] at h
    split at h <;> cases h
    exact interpOperands_of_codes raw hspan (.inr ⟨rfl, by omega, by omega⟩)
  | temp =>
    simp only [channelCal] at h
    split at h <;> cases h
    exact interpOperands_of_codes raw hspan (.inl ⟨rfl, by omega, by omega⟩)

theorem interpChannel_finite {ch : Channel} {c : Cal} {k : ChannelCal} (h : channelCal ch c = some k) (hspan : k.span ≠ 0)
    (raw : Code16) : b64Finite (evalB64 (interpChannel ch k raw)) = true := by
  obtain ⟨-, -, -, -, -, -, hfin, -⟩ := interp_value (channelCal_operands h hspan raw)
  exact hfin

/-! ## Ends of commands -/

/-- An end without a value, with the byte its status allows. -/
theorem finish_resInv (s : State) {st : Status} {byte : Option Byte}
    (h : (Res.mk (some st) byte none).wellFormed = true) : (s.finish st byte none).ResInv := ⟨h, nofun⟩

/-- An end with a reading. -/
theorem deliver_resInv (s : State) {st : Status} {e : FExpr} (hst : st = .ok ∨ st = .notReady)
    (he : b64Finite (evalB64 e) = true) : (s.deliver st e).ResInv := by
  refine ⟨?_, fun v hv => ?_⟩
  · rcases hst with rfl | rfl <;> rfl
  · cases hv
    exact evalF_isFinite he _

theorem close_resInv {α : Type} (r : Reply α) {k : α → State → State} (hk : ∀ a u, (k a u).ResInv) :
    (r.close k).ResInv := by
  cases r with
  | ok a u => exact hk a u
  | err u => exact finish_resInv u (st := .transportErr) rfl

/-- The PT readings: the sentinel, or the value of the fetched bytes. -/
theorem ptReading_resInv {β : Type} {s : State} {ready : Byte → Bool} {fetch : State → Reply β} {value : β → FExpr}
    {sentinel : FExpr} {f : FExpr → FExpr} (hvalue : ∀ b, b64Finite (evalB64 (f (value b))) = true)
    (hsentinel : b64Finite (evalB64 (f sentinel)) = true) :
    (((busRead ptDev regStatus s).andThen fun st s =>
      if ready st then (fetch s).andThen fun b s => .ok (Status.ok, value b) s
      else .ok (.notReady, sentinel) s).close fun r s => s.deliver r.1 (f r.2)).ResInv := by
  rw [Reply.close_andThen]
  refine close_resInv _ fun st u => ?_
  split
  · rw [Reply.close_andThen]
    exact close_resInv _ fun b v => deliver_resInv v (.inl rfl) (hvalue b)
  · exact deliver_resInv u (.inr rfl) hsentinel

theorem requireInited_resInv {s : State} {body : State → State} (h : (body s).ResInv) :
    (requireInited s body).ResInv := by
  rw [requireInited]
  split
  · exact finish_resInv s (st := .stateErr) rfl
  · exact h

/-! ## Outcomes -/

/-- If `o` is a next state, its RES is as it should be. -/
def NextResInv (o : Host.Outcome State Fault Refusal) : Prop := ∀ t, o = .next t → t.ResInv

theorem nextResInv_next {t : State} (h : t.ResInv) : NextResInv (.next t) := by
  rintro _ ⟨⟩
  exact h

theorem nextResInv_fault (f : Fault) : NextResInv (.fault f) := by
  rintro t ⟨⟩

theorem convertSample_resInv (ch : Channel) (raw : Code16) (s : State) : NextResInv (convertSample ch raw s) := by
  cases hk : channelCal ch s.cal with
  | none =>
    rw [convertSample_empty hk]
    exact nextResInv_fault _
  | some k =>
    rw [convertSample_of_cal hk]
    refine nextResInv_next ?_
    split
    · exact finish_resInv s (st := .calErr) rfl
    · rename_i hspan
      exact deliver_resInv s (.inl rfl) (interpChannel_finite hk hspan raw)

theorem fetchSample_resInv (ch : Channel) (s : State) : NextResInv (fetchSample ch s) := by
  rw [fetchSample]
  cases fetch2 htDev (channelLo ch) (channelHi ch) s with
  | ok b u => exact convertSample_resInv ch _ u
  | err u => exact nextResInv_next (finish_resInv u (st := .transportErr) rfl)

/-- A turn of a poll that goes on leaves RES as it is. -/
theorem pollTurn_resInv (ch : Channel) {s : State} (hs : s.ResInv) : NextResInv (pollTurn ch s) := by
  rw [pollTurn]
  split
  · exact nextResInv_next (finish_resInv s (st := .timeout) rfl)
  · rcases busRead_cases htDev regStatus s with ⟨st, -, h⟩ | ⟨-, h⟩ <;> rw [h] <;> dsimp only
    · split
      · exact fetchSample_resInv ch _
      · exact nextResInv_next hs
    · exact nextResInv_next (finish_resInv _ (st := .transportErr) rfl)

/-- HT.RDH and HT.RDTC once accepted. -/
theorem readCommand_resInv (ch : Channel) {s : State} (hs : s.ResInv) :
    NextResInv (requireActive s fun s => pollTurn ch (s.setPollCnt 0)) := by
  rw [requireActive]
  split
  · exact pollTurn_resInv ch (s := s.setPollCnt 0) hs
  · exact nextResInv_next (finish_resInv s (st := .stateErr) rfl)

/-- HT.ACT once its state is checked: it ends without a byte and without a value. -/
theorem htAct_resInv (r : Reply Unit) :
    (r.closeWith activationFails fun _ s => (s.setHtState .active).finish .ok none none).ResInv := by
  cases r with
  | ok _ u => exact finish_resInv _ (st := .ok) rfl
  | err u => exact finish_resInv _ (st := .transportErr) rfl

theorem exec_resInv (i : Instr) {s : State} (hb : s.busy = false) (hs : s.ResInv) : NextResInv (exec i s) := by
  have hdone (r : Reply Unit) : (r.close fun _ s => s.finish .ok none none).ResInv :=
    close_resInv r fun _ u => finish_resInv u rfl
  cases i <;> rw [exec]
  case ptInit =>
    rw [execPtInit, runCommand_idle hb]
    exact nextResInv_next (hdone _)
  case ptIdent =>
    rw [execPtIdent, runCommand_idle hb]
    exact nextResInv_next (close_resInv _ fun b u => finish_resInv u rfl)
  case ptRdtc =>
    rw [execPtRdtc, runCommand_idle hb]
    exact nextResInv_next (ptReading_resInv (f := id) (fun b => (temp_value b.1 b.2).1) sentinelC_value.1)
  case ptRdtf =>
    rw [execPtRdtf, runCommand_idle hb]
    exact nextResInv_next (ptReading_resInv (fun b => c2f_ptTempC_finite b.1 b.2) c2f_sentinelC_finite)
  case ptRdpm =>
    rw [execPtRdpm, runCommand_idle hb]
    exact nextResInv_next (ptReading_resInv (f := id) (fun b => press_finite b.1 b.2.1 b.2.2) sentinelMbar_finite)
  case htInit =>
    rw [execHtInit, runCommand_idle hb]
    exact nextResInv_next (close_resInv _ fun b u => finish_resInv _ (by split <;> rfl))
  case htPdown =>
    rw [execHtPdown, runCommand_idle hb]
    exact nextResInv_next (requireInited_resInv (hdone _))
  case htAct =>
    rw [execHtAct_eq hb]
    exact nextResInv_next (requireInited_resInv (htAct_resInv _))
  case htSetbdu a =>
    rw [execHtSetbdu, runCommand_idle hb]
    exact nextResInv_next (requireInited_resInv (hdone _))
  case htCal =>
    rw [execHtCal, hb]
    exact nextResInv_next (finish_resInv s (st := .illegalCmd) rfl)
  case htRdh =>
    rw [execHtRdh, startCommand_idle hb]
    exact readCommand_resInv .hum hs
  case htRdtc =>
    rw [execHtRdtc, startCommand_idle hb]
    exact readCommand_resInv .temp hs

theorem step_resInv {s : State} (hs : s.ResInv) : NextResInv (step s) := by
  cases hb : s.busy with
  | true =>
    rcases step_busy_cases hb with ⟨ch, h⟩ | h <;> rw [h]
    · exact pollTurn_resInv ch hs
    · exact nextResInv_fault _
  | false =>
    rw [step, hb, if_neg Bool.false_ne_true]
    rcases fetchCommand_cases s with hf | ⟨w, rest, -, ⟨i, -, hf⟩ | ⟨-, hf⟩⟩ <;> rw [hf]
    · exact nextResInv_next hs
    · exact exec_resInv i (s := s.setCmd rest) hb hs
    · exact nextResInv_next (finish_resInv _ (st := .illegalCmd) rfl)

end Sys2Proof.Machine

open Sys2Proof Sys2Proof.Machine

/-- Settles O34: every end of a command has the fields of its status and a finite value, and a poll that goes on leaves RES. -/
theorem stepKeepsResultWellFormed : Obligations.StepKeepsResultWellFormed := fun _ t hs h => step_resInv hs t h
end

section
/-! PROOFS. Command words (30_encoding.md rules R70 to R74), and the illegal commands. -/

namespace Sys2Proof.Machine

/-! ## Decoding and encoding -/

theorem decode_encode {i : Instr} (h : i.wellFormed = true) : decode (encode i) = some i := by
  cases i with
  | htCal => cases h
  | htSetbdu a => cases a <;> rfl
  | _ => rfl

/-- The decoder accepts no word but those of the encoder. -/
theorem encode_of_decode {w : Byte} {i : Instr} (h : decode w = some i) : encode i = w := by
  have hcheck : ∀ w : Byte, (decode w).all (fun i => decide (encode i = w)) = true := by decide
  have hw := hcheck w
  rw [h] at hw
  exact of_decide_eq_true hw

/-- The twelve accepted words (30_encoding.md rule R73). -/
def acceptedWords : List Byte := [0x00, 0x02, 0x04, 0x06, 0x08, 0x10, 0x12, 0x14, 0x16, 0x17, 0x1A, 0x1C]

theorem encode_mem_acceptedWords {i : Instr} (h : i ≠ .htCal) : encode i ∈ acceptedWords := by
  cases i with
  | htCal => exact absurd rfl h
  | htSetbdu a => cases a <;> decide
  | _ => decide

theorem decode_eq_none {w : Byte} (h : w ∉ acceptedWords) : decode w = none := by
  refine Option.eq_none_iff_forall_ne_some.2 fun i hi => h ?_
  rw [← encode_of_decode hi]
  exact encode_mem_acceptedWords fun hcal => decode_ne_htCal w (hcal ▸ hi)

/-! ## Illegal commands -/

/-- An exception of an idle block writes RES alone. -/
theorem raise_of_idle {s : State} (hs : s.Idle) (st : Status) : s.raise st = { s with res := ⟨some st, none, none⟩ } := by
  obtain ⟨hb, hl, hr⟩ := hs
  rw [State.raise, State.finish, hb, hl, hr]

theorem step_illegal {s : State} {w : Byte} {rest : List Byte} (hb : s.busy = false) (hc : s.cmd = w :: rest)
    (hd : decode w = none) : step s = .next (illegalCommand (s.setCmd rest)) := by
  rw [step, hb, if_neg Bool.false_ne_true, fetchCommand, hc]
  simp only [hd]

/-! ## HT.CAL -/

theorem execHtCal_of_plays {s : State} {r : CalBytes} (hb : s.busy = true) (hr : s.running = some .htAct)
    (hl : s.lock = false) (h : s.plays (calScript s.params.calMap r) = true) :
    execHtCal s = .next ((s.afterScript (calScript s.params.calMap r)).setCal (unpackCal r)) := by
  rw [execHtCal, if_pos hb, if_pos hr, calibrate_of_plays hl h]

/-- The handler of a transport error clears LOCK, whichever read failed (41_humidity_control.md rule R122). -/
theorem activationFails_setLock (s : State) (b : Bool) : activationFails (s.setLock b) = activationFails s := rfl

theorem execHtCal_of_plays_failed {s : State} {r : CalBytes} {k : Nat} (hb : s.busy = true)
    (hr : s.running = some .htAct) (hl : s.lock = false) (hk : k < 13)
    (h : s.plays (failAt (calScript s.params.calMap r) k) = true) :
    execHtCal s = .next (activationFails (s.afterScript (failAt (calScript s.params.calMap r) k))) := by
  obtain ⟨b, hcal⟩ := calibrate_of_plays_failed hl hk h
  rw [execHtCal, if_pos hb, if_pos hr, hcal]
  exact congrArg _ (activationFails_setLock _ b)

theorem activationFails_of_unlocked {s : State} (hl : s.lock = false) :
    activationFails s = { s with
      cal := Cal.empty, htState := .inited, busy := false, running := none
      res := ⟨some .transportErr, none, none⟩ } := by
  rw [activationFails, State.raise, State.finish, hl]
  rfl

theorem execHtCal_idle {s : State} (hb : s.busy = false) : execHtCal s = .next (illegalCommand s) := by
  rw [execHtCal, hb, if_neg Bool.false_ne_true]

end Sys2Proof.Machine

open Sys2Proof Sys2Proof.Machine

/-- Settles O18: the thirteen reads by `calibrate_of_plays`, the failed one by `calibrate_of_plays_failed`. -/
theorem htCalUnpacksThirteenBytes : Obligations.HtCalUnpacksThirteenBytes := by
  refine ⟨fun s r hb hr hl => ⟨fun h => execHtCal_of_plays hb hr hl h, fun k hk h => ?_⟩, fun s hs => ?_⟩
  · exact (execHtCal_of_plays_failed hb hr hl hk h).trans (congrArg _ (activationFails_of_unlocked hl))
  · exact (execHtCal_idle hs.1).trans (congrArg _ (raise_of_idle hs .illegalCmd))

/-- Settles O1. -/
theorem decodeOfEncode : Obligations.DecodeOfEncode := fun _ h => decode_encode h

/-- Settles O2: the twelve words are those the encoder gives, and the decoder accepts no other. -/
theorem decoderAcceptsTwelveWords : Obligations.DecoderAcceptsTwelveWords :=
  ⟨decode_encode (i := .ptInit) rfl, decode_encode (i := .ptIdent) rfl, decode_encode (i := .ptRdtc) rfl,
    decode_encode (i := .ptRdtf) rfl, decode_encode (i := .ptRdpm) rfl, decode_encode (i := .htInit) rfl,
    decode_encode (i := .htPdown) rfl, decode_encode (i := .htAct) rfl, decode_encode (i := .htSetbdu false) rfl,
    decode_encode (i := .htSetbdu true) rfl, decode_encode (i := .htRdh) rfl, decode_encode (i := .htRdtc) rfl,
    fun _ => decode_eq_none⟩

/-- Settles O4: `illegalCommand` raises in an idle block. -/
theorem illegalWordReportsIllegalCmd : Obligations.IllegalWordReportsIllegalCmd := fun s _ rest hs hc hd =>
  (step_illegal hs.1 hc hd).trans (congrArg _ (raise_of_idle (s := s.setCmd rest) hs .illegalCmd))
end

section
/-! PROOFS. The formulas of the PT unit (40_pressure_temp.md rules R101 to R103): their values in `NUM_Q`, where `NUM_B64` is
exact, and that no reading meets a sentinel (70_reset_and_hazards.md rule R251). -/

namespace Sys2Proof.Machine

/-! ## Celsius -/

theorem ptTempInt_bounds (lo hi : Byte) : -65536 ≤ ptTempInt lo hi ∧ ptTempInt lo hi ≤ -256 := by
  have hlo := lo.isLt
  have hhi := hi.isLt
  rw [ptTempInt, mul8]
  omega

theorem evalQ_ptTempC (lo hi : Byte) : evalQ (ptTempC lo hi) = 85 / 2 + (ptTempInt lo hi : Rat) / 480 := by
  norm_num [ptTempC, lit42p5, lit480p0, evalQ]

theorem evalQ_ptTempC_bounds (lo hi : Byte) :
    -2821 / 30 ≤ evalQ (ptTempC lo hi) ∧ evalQ (ptTempC lo hi) ≤ 1259 / 30 := by
  obtain ⟨hlow, hhigh⟩ := ptTempInt_bounds lo hi
  have hlow' : (-65536 : Rat) ≤ ptTempInt lo hi := by exact_mod_cast hlow
  have hhigh' : (ptTempInt lo hi : Rat) ≤ -256 := by exact_mod_cast hhigh
  rw [evalQ_ptTempC]
  constructor <;> linarith

/-! ## Pressure -/

theorem ptPressInt_bounds (lo mid hi : Byte) : 0 ≤ ptPressInt lo mid hi ∧ ptPressInt lo mid hi ≤ 16776705 := by
  have hlo := lo.isLt
  have hmid := mid.isLt
  have hhi := hi.isLt
  rw [ptPressInt, mul16, mul8]
  omega

theorem evalQ_ptPressMbar (lo mid hi : Byte) : evalQ (ptPressMbar lo mid hi) = (ptPressInt lo mid hi : Rat) / 4096 := by
  norm_num [ptPressMbar, lit4096p0, evalQ]

theorem evalQ_ptPressMbar_nonneg (lo mid hi : Byte) : 0 ≤ evalQ (ptPressMbar lo mid hi) := by
  have hn : (0 : Rat) ≤ ptPressInt lo mid hi := by exact_mod_cast (ptPressInt_bounds lo mid hi).1
  rw [evalQ_ptPressMbar]
  positivity

theorem lit4096p0_value : b64Finite (evalB64 lit4096p0) = true ∧ b64Value (evalB64 lit4096p0) = 4096 := by
  obtain ⟨hfin, hval⟩ := lit_value (m := 40960) (s := 1) (z := 4096) (j := 0) (by decide) (by decide) (by norm_num)
    (by norm_num [abs_le])
  exact ⟨hfin, hval.trans (by norm_num [evalQ])⟩

/-- The code has 24 bits and the divisor is 2^12, so the one division rounds nothing away. -/
theorem b64Value_ptPressMbar (lo mid hi : Byte) :
    b64Value (evalB64 (ptPressMbar lo mid hi)) = evalQ (ptPressMbar lo mid hi) := by
  have hn : (ptPressInt lo mid hi).natAbs ≤ 2 ^ 53 := by
    have := ptPressInt_bounds lo mid hi
    omega
  obtain ⟨hnfin, hnval⟩ := b64OfInt_value hn
  obtain ⟨hdfin, hdval⟩ := lit4096p0_value
  have hquot : b64Value (b64OfInt (ptPressInt lo mid hi)) / b64Value (evalB64 lit4096p0) = evalQ (ptPressMbar lo mid hi) := by
    rw [hnval, hdval, evalQ_ptPressMbar]
  have hexact : rnd (evalQ (ptPressMbar lo mid hi)) = evalQ (ptPressMbar lo mid hi) :=
    rnd_exact (ptPressInt lo mid hi) (-12) hn (by norm_num) (by rw [evalQ_ptPressMbar]; norm_num [div_eq_mul_inv])
  have hbig : |evalQ (ptPressMbar lo mid hi)| ≤ 2 ^ 200 := by
    have hle : (ptPressInt lo mid hi : Rat) ≤ 16776705 := by exact_mod_cast (ptPressInt_bounds lo mid hi).2
    rw [abs_of_nonneg (evalQ_ptPressMbar_nonneg lo mid hi), evalQ_ptPressMbar]
    linarith
  have hval := (b64Div_value hnfin hdfin (by rw [hdval]; norm_num) (hquot ▸ hbig)).2
  exact hval.trans (hquot ▸ hexact)

/-! ## Fahrenheit -/

theorem evalQ_c2f (c : FExpr) : evalQ (c2f c) = evalQ c * (9 / 5) + 32 := by
  norm_num [c2f, lit1p8, lit32, evalQ]

theorem evalQ_sentinelC : evalQ sentinelC = -27315 / 100 := by
  norm_num [sentinelC, evalQ]

theorem evalB64_c2f_sentinelC : evalB64 (c2f sentinelC) = 0xC07CBAB851EB851E := by decide

theorem b64Value_c2f_sentinelC_lt : b64Value (evalB64 (c2f sentinelC)) < -158 := by
  have hview : b64View 0xC07CBAB851EB851E = .finite true 0x1CBAB851EB851E (2 ^ 44) := by decide
  rw [evalB64_c2f_sentinelC, b64Value, hview]
  norm_num [signedInt]

/-! ## Sentinels -/

/-- Numbers in order in both instances differ under either choice of `NUMERICS`. -/
theorem evalF_ne_of_lt {a b : FExpr} (hb : b64Value (evalB64 a) < b64Value (evalB64 b)) (hq : evalQ a < evalQ b)
    (n : Numerics) : evalF n b ≠ evalF n a := by
  intro h
  cases n with
  | b64 => exact hb.ne' (congrArg FNum.value h)
  | q => exact hq.ne' (congrArg FNum.value h)

/-- The Celsius sentinel lies below every reading (40_pressure_temp.md rule R106). -/
theorem ptTempC_ne_sentinelC (n : Numerics) (lo hi : Byte) : evalF n (ptTempC lo hi) ≠ evalF n sentinelC := by
  refine evalF_ne_of_lt ?_ ?_ n
  · exact sentinelC_value.2.2.trans_lt (lt_of_lt_of_le (by norm_num) (temp_value lo hi).2.1)
  · exact lt_of_lt_of_le (by norm_num [evalQ_sentinelC]) (evalQ_ptTempC_bounds lo hi).1

/-- The converted sentinel lies below every converted reading (40_pressure_temp.md rule R107). -/
theorem c2f_ptTempC_ne_c2f_sentinelC (n : Numerics) (lo hi : Byte) :
    evalF n (c2f (ptTempC lo hi)) ≠ evalF n (c2f sentinelC) := by
  refine evalF_ne_of_lt ?_ ?_ n
  · obtain ⟨hfin, hlow, hhigh⟩ := temp_value lo hi
    exact b64Value_c2f_sentinelC_lt.trans_le ((c2f_value hfin (by linarith) (by linarith)).2 hlow)
  · have hlow := (evalQ_ptTempC_bounds lo hi).1
    rw [evalQ_c2f, evalQ_c2f, evalQ_sentinelC]
    linarith

theorem evalQ_sentinelMbar : evalQ sentinelMbar = -1 := by
  norm_num [sentinelMbar, evalQ]

theorem b64Value_sentinelMbar : b64Value (evalB64 sentinelMbar) = -1 :=
  (lit_value (z := -1) (j := 0) (by decide) (by decide) (by norm_num) (by norm_num)).2.trans evalQ_sentinelMbar

/-- The pressure sentinel is negative and no reading is (40_pressure_temp.md rule R108). -/
theorem ptPressMbar_ne_sentinelMbar (n : Numerics) (lo mid hi : Byte) :
    evalF n (ptPressMbar lo mid hi) ≠ evalF n sentinelMbar := by
  have hreading := evalQ_ptPressMbar_nonneg lo mid hi
  refine evalF_ne_of_lt ?_ ?_ n
  · rw [b64Value_ptPressMbar, b64Value_sentinelMbar]
    linarith
  · rw [evalQ_sentinelMbar]
    linarith

end Sys2Proof.Machine

open Sys2Proof Sys2Proof.Machine

/-- Settles O43: the tree by its definition, its value from the integer, its range from the integer's. -/
theorem ptTemperatureFormula : Obligations.PtTemperatureFormula := by
  refine ⟨fun lo hi => ?_, by decide, by decide, by decide, by decide⟩
  obtain ⟨hint, hint'⟩ := ptTempInt_bounds lo hi
  obtain ⟨hval, hval'⟩ := evalQ_ptTempC_bounds lo hi
  refine ⟨rfl, ?_, hint, hint', hval, hval'⟩
  rw [evalQ_ptTempC, ptTempInt, mul8]
  push_cast
  rfl

/-- Settles O44: the division by 2^12 is exact. -/
theorem ptPressureExactInBinary64 : Obligations.PtPressureExactInBinary64 := by
  refine ⟨fun lo mid hi => ?_, by decide, by decide⟩
  obtain ⟨hint, hint'⟩ := ptPressInt_bounds lo mid hi
  refine ⟨rfl, hint, hint', ?_, press_finite lo mid hi, b64Value_ptPressMbar lo mid hi⟩
  rw [evalQ_ptPressMbar, ptPressInt, mul16, mul8]
  push_cast
  rfl

/-- Settles O45: the rationals by `evalQ_c2f`, the four patterns by evaluation. -/
theorem fahrenheitOfSentinel : Obligations.FahrenheitOfSentinel := by
  refine ⟨fun c => ⟨rfl, evalQ_c2f c⟩, ?_, by decide, by decide, evalB64_c2f_sentinelC, by decide⟩
  rw [evalQ_c2f, show evalQ (.lit ⟨-27315, 2⟩) = _ from evalQ_sentinelC]
  norm_num

/-- Settles O46: in either instance every sentinel lies below every reading. -/
theorem noReadingEqualsSentinel : Obligations.NoReadingEqualsSentinel := fun n lo mid hi =>
  ⟨ptTempC_ne_sentinelC n lo hi, c2f_ptTempC_ne_c2f_sentinelC n lo hi, ptPressMbar_ne_sentinelMbar n lo mid hi⟩
end

section
/-! PROOFS. The commands of the PT unit (40_pressure_temp.md rules R100 and R104 to R108). -/

namespace Sys2Proof.Machine

/-! ## Ends of commands -/

theorem accept_lock_of_idle {s : State} (hs : s.Idle) (i : Instr) : (s.accept i).lock = false := hs.2.1

/-- A command of an idle block that has made the transactions `es` and finishes: beside the bus only RES has changed. -/
theorem finish_of_idle {s : State} (hs : s.Idle) (i : Instr) (es : List Event) (b : Bool) (st : Status)
    (byte : Option Byte) (value : Option FNum) :
    (((s.accept i).afterScript es).setLock b).finish st byte value =
      { s.afterScript es with res := ⟨some st, byte, value⟩ } := by
  obtain ⟨hbusy, hlock, hrun⟩ := hs
  simp only [State.finish, State.setLock, State.afterScript, State.accept, hbusy, hlock, hrun]

/-- A command whose sequence of transactions ends in a transport error (60_exceptions.md rule R203). -/
theorem runCommand_transportErr {α : Type} {i : Instr} {s : State} {seq : State → Reply α} {k : α → State → State}
    {es : List Event} (hs : s.Idle) (h : ∃ b, seq (s.accept i) = .err (((s.accept i).afterScript es).setLock b)) :
    runCommand i s (fun s => (seq s).close k) =
      .next { s.afterScript es with res := ⟨some .transportErr, none, none⟩ } := by
  obtain ⟨b, h⟩ := h
  rw [runCommand_idle hs.1, h, Reply.close_err]
  exact congrArg _ (finish_of_idle hs i es b .transportErr none none)

/-- A command that ends after its sequence of transactions. -/
theorem runCommand_finish {α : Type} {i : Instr} {s : State} {seq : State → Reply α} {k : α → State → State} {a : α}
    {es : List Event} {b : Bool} {st : Status} {byte : Option Byte} {value : Option FNum} (hs : s.Idle)
    (h : seq (s.accept i) = .ok a (((s.accept i).afterScript es).setLock b))
    (hk : ∀ t : State, t.params = s.params → k a t = t.finish st byte value) :
    runCommand i s (fun s => (seq s).close k) = .next { s.afterScript es with res := ⟨some st, byte, value⟩ } := by
  rw [runCommand_idle hs.1, h, Reply.close_ok, hk _ (by exact rfl)]
  exact congrArg _ (finish_of_idle hs i es b st byte value)

/-- A command that ends with a reading `f` of what its sequence gives. -/
theorem runCommand_deliver {i : Instr} {s : State} {seq : State → Reply (Status × FExpr)} {r : Status × FExpr}
    {es : List Event} (f : FExpr → FExpr) (hs : s.Idle) (h : seq (s.accept i) = .ok r ((s.accept i).afterScript es)) :
    runCommand i s (fun s => (seq s).close fun r s => s.deliver r.1 (f r.2)) =
      .next { s.afterScript es with res := ⟨some r.1, none, some (evalF s.params.numerics (f r.2))⟩ } :=
  runCommand_finish (b := s.lock) hs h fun t ht => by rw [State.deliver, ht]

/-- A command that the host may present and that answers a next state was run on a block with BUSY 0. -/
theorem busy_eq_false_of_exec_next {i : Instr} {s t : State} (hi : i ≠ .htCal) (h : exec i s = .next t) :
    s.busy = false := by
  cases hb : s.busy with
  | false => rfl
  | true => exact absurd ((exec_busy hb (.inl hi)).symm.trans h) nofun

end Sys2Proof.Machine

open Sys2Proof Sys2Proof.Machine

/-- Settles O9: the read-modify-write with set mask 0xB0, by the scripts it plays. -/
theorem ptInitSetsPowerAndOdrBits : Obligations.PtInitSetsPowerAndOdrBits := by
  refine ⟨decode_encode (i := .ptInit) rfl, fun s old w hs => ?_⟩
  rw [← show rmwByte old ptPowerOdr 0 = old ||| 0xB0 from rmwByte_set old ptPowerOdr]
  exact ⟨fun h => runCommand_finish hs (rmw_of_plays h) fun _ _ => rfl,
    fun k hk h => runCommand_transportErr hs ⟨_, rmw_of_plays_failed hk h⟩⟩

/-- Settles O10: one read outside any critical section. -/
theorem ptIdentReturnsIdentityByte : Obligations.PtIdentReturnsIdentityByte := by
  refine ⟨decode_encode (i := .ptIdent) rfl, fun s b hs => ?_⟩
  obtain ⟨-, hlock, -⟩ := id hs
  rw [← hlock]
  exact ⟨fun h => runCommand_finish (b := s.lock) hs (busRead_of_plays h) fun _ _ => rfl,
    fun h => runCommand_transportErr hs ⟨s.lock, busRead_of_plays_failed h⟩⟩

/-- Settles O11: `ptTempReading` by the three ways it can go. -/
theorem ptRdtcReadsCelsiusOrSentinel : Obligations.PtRdtcReadsCelsiusOrSentinel := by
  refine ⟨decode_encode (i := .ptRdtc) rfl, fun lo hi => (evalQ_ptTempC_bounds lo hi).1, fun s st lo hi hs => ?_⟩
  have hl := accept_lock_of_idle hs .ptRdtc
  exact ⟨fun hst h => runCommand_deliver id hs (ptTempReading_not_ready hl hst h),
    fun hst h => runCommand_deliver id hs (ptTempReading_ready hl hst h),
    fun k hk hst h => runCommand_transportErr hs (ptTempReading_failed hl hk hst h)⟩

/-- Settles O12: the transactions of PT.RDTC, its value or sentinel through `c2f`. -/
theorem ptRdtfReadsFahrenheitOrConvertedSentinel : Obligations.PtRdtfReadsFahrenheitOrConvertedSentinel := by
  refine ⟨decode_encode (i := .ptRdtf) rfl, fun s st lo hi hs => ?_⟩
  have hl := accept_lock_of_idle hs .ptRdtf
  exact ⟨fun hst h => runCommand_deliver c2f hs (ptTempReading_not_ready hl hst h),
    fun hst h => runCommand_deliver c2f hs (ptTempReading_ready hl hst h),
    fun k hk hst h => runCommand_transportErr hs (ptTempReading_failed hl hk hst h)⟩

/-- Settles O13: `ptPressReading` by the three ways it can go. -/
theorem ptRdpmReadsPressureOrSentinel : Obligations.PtRdpmReadsPressureOrSentinel := by
  have hzero : evalQ (ptPressMbar 0 0 0) = 0 := by norm_num [evalQ_ptPressMbar, ptPressInt]
  refine ⟨decode_encode (i := .ptRdpm) rfl, hzero, evalQ_ptPressMbar_nonneg, fun s st lo mid hi hs => ?_⟩
  have hl := accept_lock_of_idle hs .ptRdpm
  exact ⟨fun hst h => runCommand_deliver id hs (ptPressReading_not_ready hl hst h),
    fun hst h => runCommand_deliver id hs (ptPressReading_ready hl hst h),
    fun k hk hst h => runCommand_transportErr hs (ptPressReading_failed hl hk hst h)⟩

/-- Settles O40: these commands end by a `finish` alone, or make turns of a poll, which have `TurnOutcome.frame`. -/
theorem readsAndPtCommandsKeepHtUnit : Obligations.ReadsAndPtCommandsKeepHtUnit := by
  refine ⟨fun i s t hi h => ?_, fun ch s t hs h => ?_⟩
  · have hne : i ≠ .htCal := by
      rintro rfl
      simp at hi
    cases exec_next_outcome (busy_eq_false_of_exec_next hne h) h with
    | ended => exact ⟨rfl, rfl, rfl, rfl, fun _ _ => rfl⟩
    | turn ch ha hturn =>
      obtain ⟨hcal, hht, hcmd, hparams⟩ := hturn.frame
      refine ⟨hcal, hht, hcmd, hparams, fun hrdh hrdtc => ?_⟩
      cases ch with
      | hum => exact absurd rfl hrdh
      | temp => exact absurd rfl hrdtc
    | identified | poweredDown | activated | activationFailed => simp at hi
  · rw [step_polling hs] at h
    exact TurnOutcome.frame (h ▸ pollTurn_outcome ch s)
end

section
/-! PROOFS. The control commands of the HT unit (41_humidity_control.md rules R120 to R123 and R125). -/

namespace Sys2Proof.Machine

/-! ## Checks and ends of commands -/

/-- HT_REQUIRE in `UNINIT` (41_humidity_control.md rule R125). -/
theorem runCommand_requireInited_uninit {i : Instr} {s : State} {body : State → State} (hs : s.Idle)
    (hu : s.htState = .uninit) :
    runCommand i s (fun s => requireInited s body) = .next { s with res := ⟨some .stateErr, none, none⟩ } := by
  rw [runCommand_idle hs.1, requireInited_uninit (by exact hu)]
  exact congrArg _ (raise_of_idle hs .stateErr)

theorem runCommand_requireInited_other {i : Instr} {s : State} {body : State → State} (hb : s.busy = false)
    (hu : s.htState ≠ .uninit) : runCommand i s (fun s => requireInited s body) = runCommand i s body := by
  rw [runCommand_idle hb, runCommand_idle hb, requireInited_other (by exact hu)]

/-- A command of an idle block that has made the transactions `es`, has written CAL and HT_STATE and finishes. -/
theorem finish_htUnit_of_idle {s : State} (hs : s.Idle) (i : Instr) (es : List Event) (b : Bool) (c : Cal) (h : HtState)
    (st : Status) (byte : Option Byte) :
    (((((s.accept i).afterScript es).setLock b).setCal c).setHtState h).finish st byte none =
      { s.afterScript es with cal := c, htState := h, res := ⟨some st, byte, none⟩ } :=
  congrArg (fun t => (t.setCal c).setHtState h) (finish_of_idle hs i es b st byte none)

/-- The end of a command that writes CAL and HT_STATE between the transactions `es` and `fs`. -/
theorem finish_htUnit_between {s : State} (hs : s.Idle) (i : Instr) (es fs : List Event) (b : Bool) (c : Cal) (h : HtState)
    (st : Status) (byte : Option Byte) :
    ((((((s.accept i).afterScript es).setLock b).setCal c).setHtState h).afterScript fs).finish st byte none =
      { s.afterScript (es ++ fs) with cal := c, htState := h, res := ⟨some st, byte, none⟩ } := by
  rw [← finish_htUnit_of_idle hs i (es ++ fs) b c h st byte, ← afterScript_afterScript]
  rfl

/-- A script of two transactions, cut between them. -/
theorem plays_pair {s : State} {e f : Event} (h : s.plays [e, f] = true) :
    s.plays [e] = true ∧ (s.afterScript [e]).plays [f] = true := by
  rwa [← Bool.and_eq_true, ← plays_append]

/-! ## HT.SETBDU -/

/-- A checked read-modify-write of control register 1 that writes `new`: HT.SETBDU with either argument. -/
theorem requireInited_rmw {i : Instr} {s : State} {setm clrm old new w : Byte} (hs : s.Idle)
    (hnew : rmwByte old setm clrm = new) :
    let o := runCommand i s fun s => requireInited s fun s =>
      (rmw htDev regCtrl setm clrm s).close fun _ s => s.finish .ok none none
    let script := rmwScript 0x5F 0x20 old new w
    (s.htState = .uninit → o = .next { s with res := ⟨some .stateErr, none, none⟩ }) ∧
    (s.htState ≠ .uninit → s.plays script = true →
      o = .next { s.afterScript script with res := ⟨some .ok, none, none⟩ }) ∧
    ∀ k < 2, s.htState ≠ .uninit → s.plays (failAt script k) = true →
      o = .next { s.afterScript (failAt script k) with res := ⟨some .transportErr, none, none⟩ } := by
  subst hnew
  refine ⟨runCommand_requireInited_uninit hs, fun hu h => ?_, fun k hk hu h => ?_⟩
  · exact (runCommand_requireInited_other hs.1 hu).trans (runCommand_finish hs (rmw_of_plays h) fun _ _ => rfl)
  · exact (runCommand_requireInited_other hs.1 hu).trans (runCommand_transportErr hs ⟨_, rmw_of_plays_failed hk h⟩)

/-! ## HT.PDOWN -/

/-- The two transactions of HT.PDOWN and the ends after each; CAL and HT_STATE are written between them
(41_humidity_control.md rule R121). -/
theorem execHtPdown_eq {s : State} (hb : s.busy = false) (hu : s.htState ≠ .uninit) :
    execHtPdown s = .next ((busRead htDev regCtrl ((s.accept .htPdown).setLock true)).close fun old t =>
      (busWrite htDev regCtrl (old &&& 0x7F) ((t.setCal Cal.empty).setHtState .pdown)).close fun _ t =>
        t.finish .ok none none) := by
  rw [execHtPdown, runCommand_requireInited_other hb hu, runCommand_idle hb]
  simp only [Reply.close_andThen, rmwByte_clear]
  rfl

/-- HT.PDOWN after its read: the write stands at a block with CAL empty in `PDOWN`, and so does the end after it. -/
theorem execHtPdown_of_read {s : State} {old : Byte} (hb : s.busy = false) (hu : s.htState ≠ .uninit)
    (h : s.plays [readOk true 0x5F 0x20 old] = true) :
    execHtPdown s = .next ((busWrite htDev regCtrl (old &&& 0x7F)
      (((((s.accept .htPdown).afterScript [readOk true 0x5F 0x20 old]).setLock true).setCal Cal.empty).setHtState .pdown)).close
        fun _ t => t.finish .ok none none) := by
  rw [execHtPdown_eq hb hu, busRead_of_plays (b := old)]
  · rfl
  · exact h

/-! ## HT.ACT -/

theorem actScript_eq (m : CalMap) (old w : Byte) (r : CalBytes) :
    actScript m old w r = rmwScript htDev regCtrl old (rmwByte old htPowerOdr 0) w ++ calScript m r := by
  rw [rmwByte_set]
  rfl

/-- The fifteen transactions of HT.ACT (41_humidity_control.md rule R122). -/
theorem activation_of_plays {s : State} {old w : Byte} {r : CalBytes}
    (h : s.plays (actScript s.params.calMap old w r) = true) :
    ((rmw htDev regCtrl htPowerOdr 0 s).andThen fun _ s => calibrate s) =
      .ok () (((s.afterScript (actScript s.params.calMap old w r)).setLock false).setCal (unpackCal r)) := by
  rw [actScript_eq] at h ⊢
  rw [plays_append, Bool.and_eq_true] at h
  obtain ⟨hrmw, hcal⟩ := h
  rw [rmw_of_plays hrmw, Reply.andThen_ok, ← afterScript_afterScript]
  exact calibrate_of_plays rfl hcal

theorem activation_of_plays_failed {s : State} {old w : Byte} {r : CalBytes} {k : Nat} (hk : k < 15)
    (h : s.plays (failAt (actScript s.params.calMap old w r) k) = true) :
    ∃ b, ((rmw htDev regCtrl htPowerOdr 0 s).andThen fun _ s => calibrate s) =
      .err ((s.afterScript (failAt (actScript s.params.calMap old w r) k)).setLock b) := by
  rw [actScript_eq] at h ⊢
  rcases Nat.lt_or_ge k 2 with hlt | hge
  · rw [failAt_append_left _ _ (by exact hlt)] at h ⊢
    exact ⟨true, by rw [rmw_of_plays_failed hlt h, Reply.andThen_err]⟩
  · obtain ⟨n, rfl⟩ := Nat.exists_eq_add_of_le hge
    rw [show failAt (_ ++ _) (2 + n) = _ from failAt_append_right (rmwScript _ _ _ _ _) _ n] at h ⊢
    rw [plays_append, Bool.and_eq_true] at h
    obtain ⟨hrmw, hcal⟩ := h
    obtain ⟨b, hfail⟩ := calibrate_of_plays_failed
      (s := (s.afterScript (rmwScript htDev regCtrl old (rmwByte old htPowerOdr 0) w)).setLock false) rfl (by omega) hcal
    exact ⟨b, by rw [rmw_of_plays hrmw, Reply.andThen_ok, hfail, ← afterScript_afterScript]; rfl⟩

theorem execHtAct_of_initedState {s : State} (hb : s.busy = false) (hu : s.htState ≠ .uninit) :
    execHtAct s = .next
      (((rmw htDev regCtrl htPowerOdr 0 ((s.accept .htAct).setCal Cal.empty)).andThen fun _ s => calibrate s).closeWith
        activationFails fun _ s => (s.setHtState .active).finish .ok none none) := by
  rw [execHtAct_eq hb, requireInited_other (by exact hu)]

end Sys2Proof.Machine

open Sys2Proof Sys2Proof.Machine

/-- Settles O14: one read outside any critical section; the state it leaves is `initedFrom`. -/
theorem htInitChecksIdentity : Obligations.HtInitChecksIdentity := by
  refine ⟨decode_encode (i := .htInit) rfl, fun s b hs => ?_⟩
  obtain ⟨-, hlock, -⟩ := id hs
  rw [← hlock]
  refine ⟨fun h => ?_, fun h => runCommand_transportErr hs ⟨s.lock, busRead_of_plays_failed h⟩⟩
  show execHtInit s = _
  rw [execHtInit, runCommand_idle hs.1, busRead_of_plays (b := b)]
  · exact congrArg _ (finish_htUnit_of_idle hs .htInit _ s.lock s.cal (initedFrom s.htState) _ (some b))
  · exact h

/-- Settles O15: whatever the write answers, CAL is empty and HT_STATE `PDOWN` from the read on. -/
theorem htPdownClearsPowerBitAndCalibration : Obligations.HtPdownClearsPowerBitAndCalibration := by
  refine ⟨decode_encode (i := .htPdown) rfl, fun s old w hs => ⟨runCommand_requireInited_uninit hs,
    fun hu h => ?_, fun hu h => ?_, fun hu h => ?_⟩⟩
  · obtain ⟨hread, hwrite⟩ := plays_pair h
    refine (execHtPdown_of_read hs.1 hu hread).trans (congrArg _ ?_)
    rw [busWrite_of_plays (w := w)]
    · exact finish_htUnit_between hs .htPdown [_] [_] true Cal.empty .pdown .ok none
    · exact hwrite
  · refine (execHtPdown_eq hs.1 hu).trans (congrArg _ ?_)
    rw [busRead_of_plays_failed (b := old)]
    · exact finish_of_idle hs .htPdown _ true .transportErr none none
    · exact h
  · obtain ⟨hread, hwrite⟩ := plays_pair h
    refine (execHtPdown_of_read hs.1 hu hread).trans (congrArg _ ?_)
    rw [busWrite_of_plays_failed (w := w)]
    · exact finish_htUnit_between hs .htPdown [_] [_] true Cal.empty .pdown .transportErr none
    · exact hwrite

/-- Settles O16: the read-modify-write and the calibration as one script, and the error handler at each transaction. -/
theorem htActPowersUpAndCalibrates : Obligations.HtActPowersUpAndCalibrates := by
  refine ⟨decode_encode (i := .htAct) rfl, fun s old w r hs => ⟨runCommand_requireInited_uninit hs,
    fun hu h => ?_, fun k hk hu h => ?_⟩⟩
  · refine (execHtAct_of_initedState hs.1 hu).trans (congrArg _ ?_)
    rw [activation_of_plays (s := (s.accept .htAct).setCal Cal.empty) h]
    exact finish_htUnit_of_idle hs .htAct _ false (unpackCal r) .active .ok none
  · refine (execHtAct_of_initedState hs.1 hu).trans (congrArg _ ?_)
    obtain ⟨b, hfail⟩ := activation_of_plays_failed (s := (s.accept .htAct).setCal Cal.empty) hk h
    rw [hfail]
    exact finish_htUnit_of_idle hs .htAct _ b Cal.empty .inited .transportErr none

/-- Settles O17: either argument is a read-modify-write, one with a set mask and one with a clear mask. -/
theorem htSetbduSetsOrClearsBduBit : Obligations.HtSetbduSetsOrClearsBduBit := by
  refine ⟨decode_encode (i := .htSetbdu false) rfl, decode_encode (i := .htSetbdu true) rfl, fun s a old w hs => ?_⟩
  cases a with
  | false => exact requireInited_rmw hs (rmwByte_clear old htBdu)
  | true => exact requireInited_rmw hs (rmwByte_set old htBdu)
end

section
/-! PROOFS. The unpacking of the calibration bytes (42_calibration_unpack.md rules R141 to R144 and R147). -/

namespace Sys2Proof.Machine

/-! ## Codes as integers -/

/-- A high field shifted over a low one, without overlap: the two widths fit the word. -/
theorem toNat_setWidth_shiftLeft_or {n k w : Nat} (hi : BitVec k) (lo : BitVec n) (hw : k + n ≤ w) :
    ((hi.setWidth w <<< n) ||| lo.setWidth w).toNat = 2 ^ n * hi.toNat + lo.toNat := by
  have hlo : lo.toNat < 2 ^ w := lo.isLt.trans_le (Nat.pow_le_pow_right two_pos (by omega))
  have hhi : hi.toNat < 2 ^ w := hi.isLt.trans_le (Nat.pow_le_pow_right two_pos (by omega))
  have hshift : hi.toNat <<< n < 2 ^ w := by
    calc hi.toNat <<< n = hi.toNat * 2 ^ n := Nat.shiftLeft_eq _ _
      _ < 2 ^ k * 2 ^ n := Nat.mul_lt_mul_of_pos_right hi.isLt (Nat.two_pow_pos n)
      _ = 2 ^ (k + n) := (Nat.pow_add 2 k n).symm
      _ ≤ 2 ^ w := Nat.pow_le_pow_right two_pos hw
  rw [BitVec.toNat_or, BitVec.toNat_shiftLeft, BitVec.toNat_setWidth, BitVec.toNat_setWidth, Nat.mod_eq_of_lt hlo,
    Nat.mod_eq_of_lt hhi, Nat.mod_eq_of_lt hshift, ← Nat.shiftLeft_add_eq_or_of_lt lo.isLt, Nat.shiftLeft_eq, Nat.mul_comm]

@[simp] theorem toNat_compose16 (lo hi : Byte) : (compose16 lo hi).toNat = lo.toNat + 256 * hi.toNat := by
  rw [compose16, BitVec.or_comm]
  exact (toNat_setWidth_shiftLeft_or hi lo le_rfl).trans (Nat.add_comm _ _)

@[simp] theorem toNat_assemble10 (lo8 : Byte) (msb2 : BitVec 2) :
    (assemble10 lo8 msb2).toNat = 256 * msb2.toNat + lo8.toNat :=
  toNat_setWidth_shiftLeft_or msb2 lo8 le_rfl

@[simp] theorem toNat_msb0 (m : Byte) : (msb0 m).toNat = m.toNat % 4 := BitVec.extractLsb'_toNat 0 2 m

@[simp] theorem toNat_msb1 (m : Byte) : (msb1 m).toNat = m.toNat / 4 % 4 := by
  rw [msb1, BitVec.extractLsb'_toNat, Nat.shiftRight_eq_div_pow]

@[simp] theorem toNat_low8 (r : Code16) : (low8 r).toNat = r.toNat % 256 := BitVec.extractLsb'_toNat 0 8 r

@[simp] theorem toNat_high8 (r : Code16) : (high8 r).toNat = r.toNat / 256 := by
  have hr := r.isLt
  rw [high8, BitVec.extractLsb'_toNat, Nat.shiftRight_eq_div_pow]
  omega

/-! ## The bytes that TP0 and TP1 see -/

/-- TP0 sees two bits of the shared byte. -/
theorem unpackCal_tp0_congr {r r' : CalBytes} (ht : r.t0 = r'.t0) (hm : r.m.toNat % 4 = r'.m.toNat % 4) :
    (unpackCal r).tp0 = (unpackCal r').tp0 := by
  have hmsb : msb0 r.m = msb0 r'.m := BitVec.eq_of_toNat_eq (by rwa [toNat_msb0, toNat_msb0])
  rw [unpackCal, unpackCal, ht, hmsb]

/-- TP1 sees the next two. -/
theorem unpackCal_tp1_congr {r r' : CalBytes} (ht : r.t1 = r'.t1) (hm : r.m.toNat / 4 % 4 = r'.m.toNat / 4 % 4) :
    (unpackCal r).tp1 = (unpackCal r').tp1 := by
  have hmsb : msb1 r.m = msb1 r'.m := BitVec.eq_of_toNat_eq (by rwa [toNat_msb1, toNat_msb1])
  rw [unpackCal, unpackCal, ht, hmsb]

/-! ## HT.ACT under any environment -/

/-- Every environment plays the fifteen transactions of HT.ACT for some bytes, or makes one of them fail. -/
theorem activation_cases (s : State) :
    (∃ old w r, s.plays (actScript s.params.calMap old w r) = true) ∨
    (∃ old w r k, k < 15 ∧ s.plays (failAt (actScript s.params.calMap old w r) k) = true) := by
  simp only [actScript_eq]
  rcases rmw_cases htDev regCtrl htPowerOdr 0 s with ⟨old, w, hrmw⟩ | ⟨old, w, k, hk, hrmw⟩
  · rcases calibrate_cases
      (s := (s.afterScript (rmwScript htDev regCtrl old (rmwByte old htPowerOdr 0) w)).setLock false) rfl
      with ⟨r, hcal⟩ | ⟨r, k, hk, hcal⟩
    · exact .inl ⟨old, w, r, by rw [plays_append, hrmw]; exact hcal⟩
    · refine .inr ⟨old, w, r, 2 + k, by omega, ?_⟩
      rw [show failAt (_ ++ _) (2 + k) = _ from failAt_append_right (rmwScript _ _ _ _ _) _ k, plays_append, hrmw]
      exact hcal
  · exact .inr ⟨old, w, noCalBytes, k, by omega, by rwa [failAt_append_left _ _ (by exact hk)]⟩

end Sys2Proof.Machine

open Sys2Proof Sys2Proof.Machine

/-- Settles O21: of the ends of HT.ACT only the one after all fifteen transactions has status `OK`. -/
theorem calDependsOnlyOnBytesRead : Obligations.CalDependsOnlyOnBytesRead := by
  refine ⟨fun s t hs h hok => ?_, fun _ _ => unpackCal_tp0_congr, fun _ _ => unpackCal_tp1_congr⟩
  obtain ⟨-, hact⟩ := htActPowersUpAndCalibrates
  by_cases hu : s.htState = .uninit
  · obtain ⟨huninit, -⟩ := hact s 0 0 noCalBytes hs
    cases h.symm.trans (huninit hu)
    cases hok
  · rcases activation_cases s with ⟨old, w, r, hplays⟩ | ⟨old, w, r, k, hk, hfails⟩
    · obtain ⟨-, hsuccess, -⟩ := hact s old w r hs
      cases h.symm.trans (hsuccess hu hplays)
      exact ⟨old, w, r, rfl, rfl, rfl⟩
    · obtain ⟨-, -, hfailure⟩ := hact s old w r hs
      cases h.symm.trans (hfailure k hk hu hfails)
      cases hok

/-- Settles O22: each code by its value as an integer. -/
theorem codesAreUnsignedCompositions : Obligations.CodesAreUnsignedCompositions :=
  ⟨toNat_compose16, toNat_assemble10, fun m => ⟨toNat_msb0 m, toNat_msb1 m⟩⟩

/-- Settles O23: the round trips are equalities of the values, by division with remainder. -/
theorem compose16RoundTrips : Obligations.Compose16RoundTrips := by
  refine ⟨fun r => ⟨toNat_low8 r, toNat_high8 r⟩, fun r => BitVec.eq_of_toNat_eq ?_, fun lo hi => ?_⟩
  · rw [toNat_compose16, toNat_low8, toNat_high8]
    exact Nat.mod_add_div r.toNat 256
  · have hlo := lo.isLt
    have hlow : (low8 (compose16 lo hi)).toNat = lo.toNat := by
      rw [toNat_low8, toNat_compose16]
      omega
    have hhigh : (high8 (compose16 lo hi)).toNat = hi.toNat := by
      rw [toNat_high8, toNat_compose16]
      omega
    exact ⟨BitVec.eq_of_toNat_eq hlow, BitVec.eq_of_toNat_eq hhigh⟩
end

section
/-! PROOFS. The read commands of the HT unit (43_interpolation.md rules R165 to R167): one turn of the poll, a command's first
turn, and whole polls. -/

namespace Sys2Proof.Machine

/-! ## One turn -/

/-- RES after the conversion of a fetched sample (43_interpolation.md rules R160, R166 and R167). -/
def conversionRes (n : Numerics) (ch : Channel) (k : ChannelCal) (raw : Code16) : Res :=
  if k.out1 - k.out0 = 0 then ⟨some .calErr, none, none⟩ else ⟨some .ok, none, some (evalF n (interpChannel ch k raw))⟩

theorem toNat_sub_eq_zero_iff (a b : Code16) : (a.toNat : Int) - b.toNat = 0 ↔ a = b := by
  rw [sub_eq_zero, Nat.cast_inj, BitVec.toNat_inj]

/-- On codes the span check compares the two output codes. -/
theorem conversionRes_codes (n : Numerics) (ch : Channel) (o0 o1 : Code16) (p0 p1 : Int) (raw : Code16) :
    conversionRes n ch ⟨o0.toNat, o1.toNat, p0, p1⟩ raw =
      if o1 = o0 then ⟨some .calErr, none, none⟩
      else ⟨some .ok, none, some (evalF n (interp2 raw.toNat o0.toNat o1.toNat p0 p1 (channelScale ch)))⟩ := by
  simp only [conversionRes, toNat_sub_eq_zero_iff, interpChannel]

/-- The end of a command outside a critical section writes `BUSY`, the command in execution and RES alone. -/
theorem finish_of_unlocked {s : State} (hl : s.lock = false) (st : Status) (byte : Option Byte) (value : Option FNum) :
    s.finish st byte value = { s with busy := false, running := none, res := ⟨some st, byte, value⟩ } := by
  simp only [State.finish, hl]

theorem convertSample_next {ch : Channel} {raw : Code16} {s : State} {k : ChannelCal} (hl : s.lock = false)
    (h : channelCal ch s.cal = some k) :
    convertSample ch raw s = .next { s with
      busy := false, running := none, res := conversionRes s.params.numerics ch k raw } := by
  rw [convertSample_of_cal h, conversionRes, ChannelCal.span]
  split
  · rw [State.raise, finish_of_unlocked hl]
  · rw [State.deliver, finish_of_unlocked hl]

section
variable {ch : Channel} {s : State} {st lo hi : Byte} (hl : s.lock = false)
include hl

theorem pollTurn_timesOut (hp : s.params.pollLimit = .reads s.pollCnt) :
    pollTurn ch s = .next { s with busy := false, running := none, res := ⟨some .timeout, none, none⟩ } := by
  rw [pollTurn_exhausted hp, State.raise, finish_of_unlocked hl]

theorem pollTurn_converts {k : ChannelCal} (hp : s.params.pollLimit ≠ .reads s.pollCnt) (hst : channelReady ch st = true)
    (h : s.plays (readOk false 0x5F 0x27 st :: sampleScript ch lo hi) = true) (hk : channelCal ch s.cal = some k) :
    pollTurn ch s = .next { s.afterScript (readOk false 0x5F 0x27 st :: sampleScript ch lo hi) with
      pollCnt := s.pollCnt + 1, busy := false, running := none
      res := conversionRes s.params.numerics ch k (compose16 lo hi) } := by
  rw [pollTurn_ready hl hp hst h, convertSample_next (by exact hl) (by exact hk)]
  rfl

theorem pollTurn_transportErr {k : Nat} (hp : s.params.pollLimit ≠ .reads s.pollCnt) (hk : k < 3)
    (hst : 0 < k → channelReady ch st = true)
    (h : s.plays (failAt (readOk false 0x5F 0x27 st :: sampleScript ch lo hi) k) = true) :
    pollTurn ch s = .next { s.afterScript (failAt (readOk false 0x5F 0x27 st :: sampleScript ch lo hi) k) with
      pollCnt := if k = 0 then s.pollCnt else s.pollCnt + 1, busy := false, running := none
      res := ⟨some .transportErr, none, none⟩ } := by
  rw [pollTurn_failed hl hp hk hst h, State.raise, finish_of_unlocked (by exact hl)]
  rfl

end

/-! ## The command's first turn -/

/-- The block at the head of a poll: the command accepted, the count 0. -/
def State.beginPoll (ch : Channel) (s : State) : State := (s.accept (channelInstr ch)).setPollCnt 0

theorem beginPoll_polling {s : State} (hs : s.Idle) (ch : Channel) : (s.beginPoll ch).Polling ch := ⟨rfl, hs.2.1, rfl⟩

theorem beginPoll_lock {s : State} (hs : s.Idle) (ch : Channel) : (s.beginPoll ch).lock = false := hs.2.1

/-- A read command of an idle block that has made the transactions `es` and ends: beside the bus only POLLCNT and RES have
changed. -/
theorem end_beginPoll_of_idle {s : State} (hs : s.Idle) (ch : Channel) (es : List Event) (n : Nat) (r : Res) :
    { (s.beginPoll ch).afterScript es with pollCnt := n, busy := false, running := none, res := r } =
      { s.afterScript es with pollCnt := n, res := r } := by
  obtain ⟨hbusy, -, hrun⟩ := hs
  simp only [State.beginPoll, State.setPollCnt, State.accept, State.afterScript, hbusy, hrun]

theorem exec_read {s : State} (hb : s.busy = false) (ch : Channel) :
    exec (channelInstr ch) s = requireActive (s.accept (channelInstr ch)) fun s => pollTurn ch (s.setPollCnt 0) := by
  cases ch with
  | hum => rw [channelInstr, exec, execHtRdh, startCommand_idle hb]
  | temp => rw [channelInstr, exec, execHtRdtc, startCommand_idle hb]

section
variable {ch : Channel} {s : State} (hs : s.Idle)
include hs

theorem exec_read_inactive (h : s.htState ≠ .active) :
    exec (channelInstr ch) s = .next { s with res := ⟨some .stateErr, none, none⟩ } := by
  rw [exec_read hs.1, requireActive_other (by exact h)]
  exact congrArg _ (raise_of_idle hs .stateErr)

theorem exec_read_active (h : s.htState = .active) : exec (channelInstr ch) s = pollTurn ch (s.beginPoll ch) := by
  rw [exec_read hs.1, requireActive_active (by exact h), State.beginPoll]

variable {st lo hi : Byte} (ha : s.htState = .active) (hp : s.params.pollLimit ≠ .reads 0)
include ha hp

theorem exec_read_not_ready (hst : channelReady ch st = false) (h : s.plays [readOk false 0x5F 0x27 st] = true) :
    exec (channelInstr ch) s = .next { s.afterScript [readOk false 0x5F 0x27 st] with
      pollCnt := 1, busy := true, running := some (channelInstr ch) } := by
  rw [exec_read_active hs ha, pollTurn_not_ready (beginPoll_lock hs ch) hp hst h]
  rfl

theorem exec_read_converts {k : ChannelCal} (hst : channelReady ch st = true)
    (h : s.plays (readOk false 0x5F 0x27 st :: sampleScript ch lo hi) = true) (hk : channelCal ch s.cal = some k) :
    exec (channelInstr ch) s = .next { s.afterScript (readOk false 0x5F 0x27 st :: sampleScript ch lo hi) with
      pollCnt := 1, res := conversionRes s.params.numerics ch k (compose16 lo hi) } := by
  rw [exec_read_active hs ha, pollTurn_converts (beginPoll_lock hs ch) hp hst h hk]
  exact congrArg _ (end_beginPoll_of_idle hs ch _ 1 _)

theorem exec_read_transportErr {k : Nat} (hk : k < 3) (hst : 0 < k → channelReady ch st = true)
    (h : s.plays (failAt (readOk false 0x5F 0x27 st :: sampleScript ch lo hi) k) = true) :
    exec (channelInstr ch) s = .next { s.afterScript (failAt (readOk false 0x5F 0x27 st :: sampleScript ch lo hi) k) with
      pollCnt := if k = 0 then 0 else 1, res := ⟨some .transportErr, none, none⟩ } := by
  rw [exec_read_active hs ha, pollTurn_transportErr (beginPoll_lock hs ch) hp hk hst h]
  exact congrArg _ (end_beginPoll_of_idle hs ch _ (if k = 0 then 0 else 1) _)

theorem exec_read_ready {o0 o1 : Code16} {p0 p1 : Int} (hst : channelReady ch st = true)
    (h : s.plays (readOk false 0x5F 0x27 st :: sampleScript ch lo hi) = true)
    (hk : channelCal ch s.cal = some ⟨o0.toNat, o1.toNat, p0, p1⟩) :
    exec (channelInstr ch) s = .next { s.afterScript (readOk false 0x5F 0x27 st :: sampleScript ch lo hi) with
      pollCnt := 1
      res := if o1 = o0 then ⟨some .calErr, none, none⟩
        else ⟨some .ok, none, some (evalF s.params.numerics
          (interp2 (compose16 lo hi).toNat o0.toNat o1.toNat p0 p1 (channelScale ch)))⟩ } := by
  rw [exec_read_converts hs ha hp hst h hk, conversionRes_codes]

end

/-! ## Whole polls -/

theorem run_one {s t : State} (h : step s = .next t) : Sys2Proof.core.run 1 s = .next t := run_succ h 0

/-- A read command and the turns of its poll without the ready bit leave the block at the head of the next turn. -/
theorem run_read_command {ch : Channel} {s : State} {w : Byte} {rest sts : List Byte} (hs : s.Idle)
    (ha : s.htState = .active) (hc : s.cmd = w :: rest) (hd : decode w = some (channelInstr ch))
    (hst : ∀ b ∈ sts, channelReady ch b = false) (hn : ∀ n, s.params.pollLimit = .reads n → sts.length ≤ n)
    (h : s.plays (statusScript sts) = true) :
    ((((s.setCmd rest).beginPoll ch).afterScript (statusScript sts)).setPollCnt sts.length).Polling ch ∧
    Sys2Proof.core.run (sts.length + 1) s = Sys2Proof.core.run 1
      ((((s.setCmd rest).beginPoll ch).afterScript (statusScript sts)).setPollCnt sts.length) := by
  have hpolling : ((s.setCmd rest).beginPoll ch).Polling ch := beginPoll_polling hs ch
  have hstep : step s = step ((s.setCmd rest).beginPoll ch) :=
    (step_read_command hs ha hc hd).trans (step_polling hpolling).symm
  have hrun := run_statusScript ch 1 sts _ hpolling (fun n hp => (Nat.zero_add _).trans_le (hn n hp)) hst h
  refine ⟨hpolling, (run_congr hstep _).trans (hrun.trans ?_)⟩
  exact congrArg (fun n => Sys2Proof.core.run 1 (State.setPollCnt n _)) (Nat.zero_add _)

theorem statusScript_append_sample (ch : Channel) (sts : List Byte) (st lo hi : Byte) :
    statusScript (sts ++ [st]) ++ sampleScript ch lo hi =
      statusScript sts ++ readOk false 0x5F 0x27 st :: sampleScript ch lo hi := by
  rw [statusScript, List.map_append, List.append_assoc]
  rfl

theorem le_of_pollWithin {p : PollLimit} {n c : Nat} (hp : p = .reads n) (h : pollWithin p c = true) : c ≤ n := by
  subst hp
  exact of_decide_eq_true h

/-- Every turn of a poll ends it or brings it nearer to its limit. -/
theorem bounded_poll_finishes {n m : Nat} : ∀ {s : State}, s.Inv → s.busy = true → s.params.pollLimit = .reads n →
    n - s.pollCnt = m → ∃ (j : Nat) (t : State), j ≤ m + 1 ∧ Sys2Proof.core.run j s = .next t ∧
      t.Idle ∧ t.res.status.isSome = true ∧ t.cmd = s.cmd := by
  induction m with
  | zero =>
    intro s hs hb hlimit hm
    obtain ⟨⟨ch, hp⟩, -, hwithin⟩ := polling_of_inv hs hb
    have hle := le_of_pollWithin hlimit hwithin
    have hturn := pollTurn_exhausted (ch := ch) (s := s) (by rw [hlimit, show n = s.pollCnt by omega])
    exact ⟨1, _, le_refl 1, run_one ((step_polling hp).trans hturn), finish_idle .timeout none none s, rfl, rfl⟩
  | succ m ih =>
    intro s hs hb hlimit hm
    obtain ⟨t, hstep, htinv⟩ := step_inv hs
    obtain ⟨⟨ch, hp⟩, -⟩ := polling_of_inv hs hb
    have hturn : TurnOutcome ch s (.next t) := by
      rw [← hstep, step_polling hp]
      exact pollTurn_outcome ch s
    cases hturn with
    | ended es c st byte value => exact ⟨1, _, by omega, run_one hstep, finish_idle st byte value _, rfl, rfl⟩
    | again es hne =>
      obtain ⟨j, u, hj, hrun, hidle, hstatus, hcmd⟩ := ih htinv hb hlimit (show n - (s.pollCnt + 1) = m by omega)
      exact ⟨j + 1, u, by omega, (run_succ hstep j).trans hrun, hidle, hstatus, hcmd⟩

end Sys2Proof.Machine

open Sys2Proof Sys2Proof.Machine

/-- Settles O24: the first turn of the poll of the humidity channel. -/
theorem htRdhReadsHumidity : Obligations.HtRdhReadsHumidity := fun _ _ _ _ hs =>
  ⟨exec_read_inactive (ch := .hum) hs, fun ha hp => ⟨
    fun hst h _ _ _ _ ho0 ho1 hp0 hp1 =>
      exec_read_ready (ch := .hum) hs ha hp hst h (by rw [channelCal, ho0, ho1, hp0, hp1]),
    exec_read_not_ready (ch := .hum) hs ha hp,
    fun _ hk hst h => exec_read_transportErr (ch := .hum) hs ha hp hk hst h⟩⟩

/-- Settles O25: the first turn of the poll of the temperature channel. -/
theorem htRdtcReadsTemperature : Obligations.HtRdtcReadsTemperature := fun _ _ _ _ hs =>
  ⟨exec_read_inactive (ch := .temp) hs, fun ha hp => ⟨
    fun hst h _ _ _ _ to0 to1 tp0 tp1 =>
      exec_read_ready (ch := .temp) hs ha hp hst h (by rw [channelCal, to0, to1, tp0, tp1]),
    exec_read_not_ready (ch := .temp) hs ha hp,
    fun _ hk hst h => exec_read_transportErr (ch := .temp) hs ha hp hk hst h⟩⟩

/-- Settles O26: a step of a polling block is a turn, which goes one of four ways. -/
theorem pollTurnsUntilReady : Obligations.PollTurnsUntilReady := by
  intro ch s st lo hi hs
  obtain ⟨-, hlock, -⟩ := id hs
  rw [getLsbD_readyBit, step_polling hs]
  exact ⟨pollTurn_timesOut hlock, fun hp => ⟨pollTurn_not_ready hlock hp,
    fun hst h _ hk => pollTurn_converts hlock hp hst h hk,
    fun _ hk hst h => pollTurn_transportErr hlock hp hk hst h⟩⟩

/-- Settles O27: the turns without the bit by `run_read_command`, the last one converts. -/
theorem readyAtKthPollMakesExactlyKReads : Obligations.ReadyAtKthPollMakesExactlyKReads := by
  intro ch s w rest sts st lo hi k hs ha hc hd hk hsts hst hn h
  simp only [getLsbD_readyBit] at hsts hst
  rw [statusScript_append_sample, plays_append, Bool.and_eq_true] at h
  obtain ⟨hstatus, hlast⟩ := h
  obtain ⟨hpolling, hrun⟩ := run_read_command hs ha hc hd hsts (fun n hp => (hn n hp).le) hstatus
  obtain ⟨-, hlock, -⟩ := id hpolling
  have hlimit : s.params.pollLimit ≠ .reads sts.length := fun hp => absurd (hn _ hp) (lt_irrefl _)
  have hturn := pollTurn_converts hlock hlimit hst hlast hk
  rw [hrun, run_one ((step_polling hpolling).trans hturn), statusScript_append_sample, ← afterScript_afterScript]
  exact congrArg _ (end_beginPoll_of_idle (s := (s.setCmd rest).afterScript (statusScript sts)) hs ch
    (readOk false 0x5F 0x27 st :: sampleScript ch lo hi) (sts.length + 1) _)

/-- Settles O28: the turns without the bit by `run_read_command`, the next one finds the limit reached. -/
theorem timeoutAfterExactlyPollLimitReads : Obligations.TimeoutAfterExactlyPollLimitReads := by
  intro ch s w rest sts hs ha hc hd hsts hlimit _ h
  simp only [getLsbD_readyBit] at hsts
  have hn : ∀ n, s.params.pollLimit = .reads n → sts.length ≤ n := by
    intro n hp
    cases hlimit.symm.trans hp
    exact le_refl _
  obtain ⟨hpolling, hrun⟩ := run_read_command hs ha hc hd hsts hn h
  obtain ⟨-, hlock, -⟩ := id hpolling
  rw [hrun, run_one ((step_polling hpolling).trans (pollTurn_timesOut hlock hlimit))]
  exact congrArg _ (end_beginPoll_of_idle (s := s.setCmd rest) hs ch _ sts.length _)

/-- Settles O29: `run_statusScript`, with no limit to meet. -/
theorem unboundedPollKeepsRunning : Obligations.UnboundedPollKeepsRunning := by
  intro ch s sts hs hlimit hsts h
  simp only [getLsbD_readyBit] at hsts
  exact run_statusScript ch 0 sts s hs (fun n hn => nomatch hlimit.symm.trans hn) hsts h

/-- Settles O30: `bounded_poll_finishes`, with the reads that are left. -/
theorem boundedPollFinishes : Obligations.BoundedPollFinishes := fun _ _ hs hb hlimit =>
  bounded_poll_finishes hs hb hlimit rfl
end

section
/-! PROOFS. The interpolation of the HT unit (43_interpolation.md rules R161 and R164): its value in `NUM_Q`, and in `NUM_B64`
the pattern it has. -/

namespace Sys2Proof.Machine

section
variable {raw raw' out0 out1 p0 p1 : Int} {scale : Decimal}

/-! ## Operands in range -/

theorem InterpOperands.scaleFacts (h : InterpOperands raw out0 out1 p0 p1 scale) : ∃ P, ScaleFacts scale P := by
  obtain ⟨-, -, -, -, -, -, -, -, -, hscale⟩ := h
  obtain ⟨P, -, -, -, hfacts⟩ := scale_facts hscale
  exact ⟨P, hfacts⟩

theorem InterpOperands.scaleValue_pos (h : InterpOperands raw out0 out1 p0 p1 scale) : 0 < scaleValue scale := by
  obtain ⟨P, hfacts⟩ := h.scaleFacts
  exact one_pos.trans_le hfacts.one

theorem InterpOperands.span_ne_zero (h : InterpOperands raw out0 out1 p0 p1 scale) : (out1 : Rat) - out0 ≠ 0 := by
  obtain ⟨-, -, -, -, -, -, hne, -⟩ := h
  exact sub_ne_zero.2 (Int.cast_injective.ne hne)

/-- The second calibration code is itself a sample in range. -/
theorem InterpOperands.at_out1 (h : InterpOperands raw out0 out1 p0 p1 scale) :
    InterpOperands out1 out0 out1 p0 p1 scale := by
  obtain ⟨-, -, h0, h0', h1, h1', hrest⟩ := h
  exact ⟨h1, h1', h0, h0', h1, h1', hrest⟩

theorem InterpOperands.point_bounds (h : InterpOperands raw out0 out1 p0 p1 scale) :
    (0 ≤ p0 ∧ p0 ≤ 1023) ∧ 0 ≤ p1 ∧ p1 ≤ 1023 := by
  obtain ⟨-, -, -, -, -, -, -, h0, h1, hscale⟩ := h
  omega

/-! ## In `NUM_Q` -/

theorem evalQ_div_lit (p : Int) (scale : Decimal) : evalQ (.div (.ofInt p) (.lit scale)) = p / scaleValue scale := rfl

theorem evalQ_interp2 (raw out0 out1 p0 p1 : Int) (scale : Decimal) :
    evalQ (interp2 raw out0 out1 p0 p1 scale) =
      ((raw : Rat) - out0) * ((p1 : Rat) - p0) / (scaleValue scale * ((out1 : Rat) - out0)) + p0 / scaleValue scale := by
  rw [interp_evalQ, mul_div_assoc', div_div]

theorem evalQ_interp2_out0 : evalQ (interp2 out0 out0 out1 p0 p1 scale) = p0 / scaleValue scale := by
  rw [evalQ_interp2, sub_self, zero_mul, zero_div, zero_add]

theorem evalQ_interp2_out1 (h : InterpOperands raw out0 out1 p0 p1 scale) :
    evalQ (interp2 out1 out0 out1 p0 p1 scale) = p1 / scaleValue scale := by
  have hspan := h.span_ne_zero
  have hscale := h.scaleValue_pos.ne'
  rw [evalQ_interp2]
  field_simp
  ring

/-- The result is affine in `raw`, and its slope has the sign of `(p1 - p0) * (out1 - out0)`. -/
theorem evalQ_interp2_sub (h : InterpOperands raw out0 out1 p0 p1 scale) :
    evalQ (interp2 raw' out0 out1 p0 p1 scale) - evalQ (interp2 raw out0 out1 p0 p1 scale) =
      ((raw' - raw : Int) : Rat) * (((p1 - p0) * (out1 - out0) : Int) : Rat) /
        (scaleValue scale * ((out1 : Rat) - out0) ^ 2) := by
  have hspan := h.span_ne_zero
  have hscale := h.scaleValue_pos.ne'
  rw [evalQ_interp2, evalQ_interp2]
  push_cast
  field_simp
  ring

theorem InterpOperands.slope_den_pos (h : InterpOperands raw out0 out1 p0 p1 scale) :
    0 < scaleValue scale * ((out1 : Rat) - out0) ^ 2 :=
  mul_pos h.scaleValue_pos (sq_pos_of_ne_zero h.span_ne_zero)

theorem evalQ_interp2_lt (h : InterpOperands raw out0 out1 p0 p1 scale) (hr : raw < raw') :
    (0 < (p1 - p0) * (out1 - out0) →
      evalQ (interp2 raw out0 out1 p0 p1 scale) < evalQ (interp2 raw' out0 out1 p0 p1 scale)) ∧
    ((p1 - p0) * (out1 - out0) < 0 →
      evalQ (interp2 raw' out0 out1 p0 p1 scale) < evalQ (interp2 raw out0 out1 p0 p1 scale)) := by
  have hr' : (0 : Rat) < ((raw' - raw : Int) : Rat) := Int.cast_pos.2 (sub_pos.2 hr)
  constructor <;> intro hsign
  · rw [← sub_pos, evalQ_interp2_sub h]
    exact div_pos (mul_pos hr' (Int.cast_pos.2 hsign)) h.slope_den_pos
  · rw [← sub_neg, evalQ_interp2_sub h]
    exact div_neg_of_neg_of_pos (mul_neg_of_pos_of_neg hr' (Int.cast_lt_zero.2 hsign)) h.slope_den_pos

theorem evalQ_interp2_le (h : InterpOperands raw out0 out1 p0 p1 scale) (hr : raw ≤ raw') :
    (0 ≤ (p1 - p0) * (out1 - out0) →
      evalQ (interp2 raw out0 out1 p0 p1 scale) ≤ evalQ (interp2 raw' out0 out1 p0 p1 scale)) ∧
    ((p1 - p0) * (out1 - out0) ≤ 0 →
      evalQ (interp2 raw' out0 out1 p0 p1 scale) ≤ evalQ (interp2 raw out0 out1 p0 p1 scale)) := by
  have hr' : (0 : Rat) ≤ ((raw' - raw : Int) : Rat) := Int.cast_nonneg (sub_nonneg.2 hr)
  constructor <;> intro hsign
  · rw [← sub_nonneg, evalQ_interp2_sub h]
    exact div_nonneg (mul_nonneg hr' (Int.cast_nonneg hsign)) h.slope_den_pos.le
  · rw [← sub_nonpos, evalQ_interp2_sub h]
    exact div_nonpos_of_nonpos_of_nonneg (mul_nonpos_of_nonneg_of_nonpos hr' (Int.cast_nonpos.2 hsign)) h.slope_den_pos.le

theorem evalQ_interp2_flat (raw out0 out1 p : Int) (scale : Decimal) :
    evalQ (interp2 raw out0 out1 p p scale) = p / scaleValue scale := by
  rw [evalQ_interp2, sub_self, mul_zero, zero_div, zero_add]

/-! ## In `NUM_B64` -/

/-- A sum whose second summand is not negative has the pattern of the rounded sum: an exact zero is `+0`. -/
theorem b64Add_eq_ofRat {x : B64} {q : Rat} (hx : b64Finite x = true) (hq : 0 ≤ q) (hbound : |q| ≤ 2 ^ 200)
    (hexact : rnd q = q) : b64Add x (b64OfRat q) = b64OfRat (b64Value x + q) := by
  obtain ⟨hfin, hval⟩ := b64OfRat_value hbound
  have hsign : b64Sign (b64OfRat q) = false := by
    rw [b64OfRat_sign hbound]
    exact decide_eq_false hq.not_gt
  rw [b64Add_eq hx hfin, hval, hexact, hsign, Bool.and_false]
  split
  · rename_i hzero
    rw [hzero, b64Zero_false_ofRat]
  · rfl

/-- A calibration point, or a difference of two, divided by its scale is not rounded. -/
theorem rnd_div_scale (h : InterpOperands raw out0 out1 p0 p1 scale) {p : Int} (hp : p.natAbs ≤ 1023) :
    rnd (p / scaleValue scale) = p / scaleValue scale := by
  obtain ⟨P, hfacts⟩ := h.scaleFacts
  obtain ⟨j, hj, -, hpow⟩ := hfacts.sh
  exact rnd_exact p j (by omega) (by omega) (by rw [div_eq_mul_inv, hpow])

/-- Two roundings, at the division by the span and at the last addition. -/
theorem evalB64_interp2 (h : InterpOperands raw out0 out1 p0 p1 scale) :
    evalB64 (interp2 raw out0 out1 p0 p1 scale) =
      b64OfRat (rnd (evalQ (interp2 raw out0 out1 p0 p1 scale) - p0 / scaleValue scale) + p0 / scaleValue scale) := by
  obtain ⟨-, -, hoff, hoff', hfin, hval, -, -⟩ := interp_value h
  obtain ⟨⟨h0, h0'⟩, -⟩ := h.point_bounds
  have hexact := rnd_div_scale h (p := p0) (by omega)
  obtain ⟨P, hfacts⟩ := h.scaleFacts
  have hbound : |(p0 : Rat) / scaleValue scale| ≤ 2 ^ 200 := by
    rw [abs_of_nonneg hoff]
    exact hoff'.trans (by norm_num)
  rw [interp_evalQ, add_sub_cancel_right, ← hval, ← b64Add_eq_ofRat hfin hoff hbound hexact,
    ← divScale_bits hfacts h0 h0']
  rfl

theorem b64Value_interp2 (h : InterpOperands raw out0 out1 p0 p1 scale) :
    b64Value (evalB64 (interp2 raw out0 out1 p0 p1 scale)) =
      rnd (rnd (evalQ (interp2 raw out0 out1 p0 p1 scale) - p0 / scaleValue scale) + p0 / scaleValue scale) := by
  obtain ⟨-, -, -, -, -, -, -, hval⟩ := interp_value h
  rw [hval, interp_evalQ, add_sub_cancel_right]

/-- Rounding keeps the order of two results on one line. -/
theorem b64Value_interp2_mono (h : InterpOperands raw out0 out1 p0 p1 scale) (h' : InterpOperands raw' out0 out1 p0 p1 scale)
    (hle : evalQ (interp2 raw out0 out1 p0 p1 scale) ≤ evalQ (interp2 raw' out0 out1 p0 p1 scale)) :
    b64Value (evalB64 (interp2 raw out0 out1 p0 p1 scale)) ≤ b64Value (evalB64 (interp2 raw' out0 out1 p0 p1 scale)) := by
  rw [b64Value_interp2 h, b64Value_interp2 h']
  exact rnd_mono (add_le_add_left (rnd_mono (sub_le_sub_right hle _)) _)

/-- Where the exact result is a calibration point over the scale, neither rounding changes anything. -/
theorem evalF_interp2_of_point (h : InterpOperands raw out0 out1 p0 p1 scale) {p : Int} (hp : 0 ≤ p) (hp' : p ≤ 1023)
    (hq : evalQ (interp2 raw out0 out1 p0 p1 scale) = p / scaleValue scale) (n : Numerics) :
    evalF n (interp2 raw out0 out1 p0 p1 scale) = evalF n (.div (.ofInt p) (.lit scale)) := by
  cases n with
  | q => rw [evalF, evalF, hq, evalQ_div_lit]
  | b64 =>
    obtain ⟨⟨h0, h0'⟩, -⟩ := h.point_bounds
    have hexact : rnd ((p : Rat) / scaleValue scale - p0 / scaleValue scale) =
        p / scaleValue scale - p0 / scaleValue scale := by
      rw [← sub_div, ← Int.cast_sub, rnd_div_scale h (by omega)]
    obtain ⟨P, hfacts⟩ := h.scaleFacts
    rw [evalF, evalF, evalB64_interp2 h, hq, hexact, sub_add_cancel, divScale_bits hfacts hp hp']

theorem evalF_div_scale_value (h : InterpOperands raw out0 out1 p0 p1 scale) {p : Int} (hp : p.natAbs ≤ 1023)
    (n : Numerics) : (evalF n (.div (.ofInt p) (.lit scale))).value = p / scaleValue scale := by
  obtain ⟨P, hfacts⟩ := h.scaleFacts
  cases n with
  | q => rfl
  | b64 => exact (divScale_value hfacts (by omega)).2

/-- The two roundings are at most 2^-31 and 2^-30 (43_interpolation.md rule R161). -/
theorem interp2_rounding_bound (h : InterpOperands raw out0 out1 p0 p1 scale) :
    |b64Value (evalB64 (interp2 raw out0 out1 p0 p1 scale)) - evalQ (interp2 raw out0 out1 p0 p1 scale)| < 1 / 2 ^ 29 := by
  obtain ⟨hquo, hrnd, hoff, hoff', -, -, -, hval⟩ := interp_value h
  rw [hval, interp_evalQ]
  generalize ((raw : Rat) - out0) * (((p1 : Rat) - p0) / scaleValue scale) / ((out1 : Rat) - out0) = quo at *
  generalize (p0 : Rat) / scaleValue scale = off at *
  have hsum : |rnd quo + off| < 2 ^ 24 := by
    rw [← abs_of_nonneg hoff] at hoff'
    exact (abs_add_le _ _).trans_lt ((add_le_add hrnd hoff').trans_lt (by norm_num))
  have hfirst : |rnd quo - quo| ≤ 2 ^ (-31 : Int) := rnd_error (t := 23) (by norm_num) hquo
  have hsecond : |rnd (rnd quo + off) - (rnd quo + off)| ≤ 2 ^ (-30 : Int) := rnd_error (t := 24) (by norm_num) hsum
  calc |rnd (rnd quo + off) - (quo + off)|
      = |(rnd (rnd quo + off) - (rnd quo + off)) + (rnd quo - quo)| := by congr 1; ring
    _ ≤ 2 ^ (-30 : Int) + 2 ^ (-31 : Int) := (abs_add_le _ _).trans (add_le_add hsecond hfirst)
    _ < 1 / 2 ^ 29 := by norm_num

end

end Sys2Proof.Machine

open Sys2Proof Sys2Proof.Machine

/-- Settles O48: both points are exact in `NUM_Q`, and nothing is rounded there. -/
theorem interpolationExactAtPoints : Obligations.InterpolationExactAtPoints := by
  intro n out0 out1 p0 p1 scale h
  obtain ⟨⟨h0, h0'⟩, h1, h1'⟩ := h.point_bounds
  exact ⟨evalF_interp2_of_point h h0 h0' evalQ_interp2_out0 n,
    evalF_interp2_of_point h.at_out1 h1 h1' (evalQ_interp2_out1 h) n,
    evalF_div_scale_value h (by omega) n, evalF_div_scale_value h (by omega) n⟩

/-- Settles O49: the difference of two results has the sign of the slope. -/
theorem interpolationStrictlyMonotoneInRationals : Obligations.InterpolationStrictlyMonotoneInRationals := by
  intro raw raw' out0 out1 p0 p1 scale h hr
  obtain ⟨hincreasing, hdecreasing⟩ := evalQ_interp2_lt h hr
  refine ⟨hincreasing, hdecreasing, ?_⟩
  rintro rfl
  exact evalQ_interp2_flat raw out0 out1 p1 scale

/-- Settles O50: the exact results are in order, and each rounding keeps it. -/
theorem interpolationMonotoneInBinary64 : Obligations.InterpolationMonotoneInBinary64 := by
  intro raw raw' out0 out1 p0 p1 scale h h' hr
  obtain ⟨hincreasing, hdecreasing⟩ := evalQ_interp2_le h hr
  exact ⟨fun hsign => b64Value_interp2_mono h h' (hincreasing hsign),
    fun hsign => b64Value_interp2_mono h' h (hdecreasing hsign)⟩

/-- Settles O51: both are the line through the two points. -/
theorem interpolationPointsMaySwap : Obligations.InterpolationPointsMaySwap := by
  intro raw out0 out1 p0 p1 scale h
  have hspan := h.span_ne_zero
  have hspan' : (out0 : Rat) - out1 ≠ 0 := by rwa [← neg_sub, neg_ne_zero]
  have hscale := h.scaleValue_pos.ne'
  rw [evalQ_interp2, evalQ_interp2]
  field_simp
  ring

/-- Settles O52: the two roundings by `rnd_error`. -/
theorem interpolationRoundingBound : Obligations.InterpolationRoundingBound := by
  intro raw out0 out1 p0 p1 scale h
  obtain ⟨-, -, -, -, -, -, hfin, -⟩ := interp_value h
  exact ⟨hfin, interp2_rounding_bound h⟩

/-- Settles O47: the tree's own order of operations, as one fraction. -/
theorem interpolationInRationals : Obligations.InterpolationInRationals :=
  fun raw out0 out1 p0 p1 scale _ => evalQ_interp2 raw out0 out1 p0 p1 scale
end

section
/-! PROOFS. Which commands end with `STATE_ERR` (60_exceptions.md rule R206): only the two checks of the HT state raise it. -/

namespace Sys2Proof.Machine

/-- The commands that R206 does not allow in a state of the HT unit. -/
def refusedIn (i : Instr) (h : HtState) : Prop :=
  match i with
  | .htPdown | .htAct | .htSetbdu _ => h = .uninit
  | .htRdh | .htRdtc => h ≠ .active
  | _ => False

/-- The check comes before any transaction, so nothing but RES changes. -/
theorem exec_refused {i : Instr} {s : State} (hs : s.Idle) (h : refusedIn i s.htState) :
    exec i s = .next { s with res := ⟨some .stateErr, none, none⟩ } := by
  cases i with
  | htPdown | htAct | htSetbdu => exact runCommand_requireInited_uninit hs h
  | htRdh => exact exec_read_inactive (ch := .hum) hs h
  | htRdtc => exact exec_read_inactive (ch := .temp) hs h
  | _ => exact h.elim

/-! ## Ends of commands with another status -/

theorem finish_status_ne {s : State} {st : Status} {byte : Option Byte} {value : Option FNum} (h : st ≠ .stateErr) :
    (s.finish st byte value).res.status ≠ some .stateErr := mt Option.some.inj h

theorem close_status_ne {α : Type} (r : Reply α) {k : α → State → State}
    (hk : ∀ a u, (k a u).res.status ≠ some .stateErr) : (r.close k).res.status ≠ some .stateErr := by
  cases r with
  | ok a u => exact hk a u
  | err u => exact finish_status_ne (st := .transportErr) nofun

/-- The PT readings: `OK` with the fetched value, or `NOT_READY` with the sentinel. -/
theorem ptReading_status_ne {β : Type} {s : State} {ready : Byte → Bool} {fetch : State → Reply β} {value : β → FExpr}
    {sentinel : FExpr} {f : FExpr → FExpr} :
    (((busRead ptDev regStatus s).andThen fun st s =>
      if ready st then (fetch s).andThen fun b s => .ok (Status.ok, value b) s
      else .ok (.notReady, sentinel) s).close fun r s => s.deliver r.1 (f r.2)).res.status ≠ some .stateErr := by
  rw [Reply.close_andThen]
  refine close_status_ne _ fun st u => ?_
  split
  · rw [Reply.close_andThen]
    exact close_status_ne _ fun b v => finish_status_ne (st := .ok) nofun
  · exact finish_status_ne (st := .notReady) nofun

/-- HT.ACT once its state is checked. -/
theorem htAct_status_ne (r : Reply Unit) :
    (r.closeWith activationFails fun _ s => (s.setHtState .active).finish .ok none none).res.status ≠ some .stateErr := by
  cases r with
  | ok _ u => exact finish_status_ne (st := .ok) nofun
  | err u => exact finish_status_ne (st := .transportErr) nofun

/-! ## Outcomes -/

/-- If `o` is the end of a command, its status is not `STATE_ERR`. -/
def NoStateErr (o : Host.Outcome State Fault Refusal) : Prop :=
  ∀ t, o = .next t → t.busy = false → t.res.status ≠ some .stateErr

theorem noStateErr_next {t : State} (h : t.res.status ≠ some .stateErr) : NoStateErr (.next t) := by
  rintro _ ⟨⟩ -
  exact h

/-- A poll that goes on has not ended. -/
theorem noStateErr_busy {t : State} (h : t.busy = true) : NoStateErr (.next t) := by
  rintro _ ⟨⟩ hb
  exact absurd (h.symm.trans hb) nofun

theorem noStateErr_fault (f : Fault) : NoStateErr (.fault f) := by
  rintro t ⟨⟩

theorem convertSample_noStateErr (ch : Channel) (raw : Code16) (s : State) : NoStateErr (convertSample ch raw s) := by
  cases hk : channelCal ch s.cal with
  | none =>
    rw [convertSample_empty hk]
    exact noStateErr_fault _
  | some k =>
    rw [convertSample_of_cal hk]
    refine noStateErr_next ?_
    split
    · exact finish_status_ne (st := .calErr) nofun
    · exact finish_status_ne (st := .ok) nofun

theorem fetchSample_noStateErr (ch : Channel) (s : State) : NoStateErr (fetchSample ch s) := by
  rw [fetchSample]
  cases fetch2 htDev (channelLo ch) (channelHi ch) s with
  | ok b u => exact convertSample_noStateErr ch _ u
  | err u => exact noStateErr_next (finish_status_ne (st := .transportErr) nofun)

theorem pollTurn_noStateErr (ch : Channel) {s : State} (hb : s.busy = true) : NoStateErr (pollTurn ch s) := by
  rw [pollTurn]
  split
  · exact noStateErr_next (finish_status_ne (st := .timeout) nofun)
  · rcases busRead_cases htDev regStatus s with ⟨st, -, h⟩ | ⟨-, h⟩ <;> rw [h] <;> dsimp only
    · split
      · exact fetchSample_noStateErr ch _
      · exact noStateErr_busy hb
    · exact noStateErr_next (finish_status_ne (st := .transportErr) nofun)

/-- HT.RDH and HT.RDTC in `ACTIVE`: the command's first turn. -/
theorem exec_read_noStateErr (ch : Channel) {s : State} (hs : s.Idle) (ha : s.htState = .active) :
    NoStateErr (exec (channelInstr ch) s) := by
  rw [exec_read_active hs ha]
  exact pollTurn_noStateErr ch rfl

theorem exec_noStateErr {i : Instr} {s : State} (hs : s.Idle) (h : ¬ refusedIn i s.htState) :
    NoStateErr (exec i s) := by
  have hdone (r : Reply Unit) : (r.close fun _ s => s.finish .ok none none).res.status ≠ some .stateErr :=
    close_status_ne r fun _ _ => finish_status_ne (st := .ok) nofun
  cases i
  case ptInit =>
    rw [exec, execPtInit, runCommand_idle hs.1]
    exact noStateErr_next (hdone _)
  case ptIdent =>
    rw [exec, execPtIdent, runCommand_idle hs.1]
    exact noStateErr_next (close_status_ne _ fun b u => finish_status_ne (st := .ok) nofun)
  case ptRdtc =>
    rw [exec, execPtRdtc, runCommand_idle hs.1]
    exact noStateErr_next (ptReading_status_ne (f := id))
  case ptRdtf =>
    rw [exec, execPtRdtf, runCommand_idle hs.1]
    exact noStateErr_next ptReading_status_ne
  case ptRdpm =>
    rw [exec, execPtRdpm, runCommand_idle hs.1]
    exact noStateErr_next (ptReading_status_ne (f := id))
  case htInit =>
    rw [exec, execHtInit, runCommand_idle hs.1]
    exact noStateErr_next (close_status_ne _ fun b u => finish_status_ne (by split <;> nofun))
  case htPdown =>
    rw [exec, execHtPdown, runCommand_requireInited_other hs.1 h, runCommand_idle hs.1]
    exact noStateErr_next (hdone _)
  case htAct =>
    rw [exec, execHtAct_of_initedState hs.1 h]
    exact noStateErr_next (htAct_status_ne _)
  case htSetbdu a =>
    rw [exec, execHtSetbdu, runCommand_requireInited_other hs.1 h, runCommand_idle hs.1]
    exact noStateErr_next (hdone _)
  case htCal =>
    rw [exec, execHtCal_idle hs.1]
    exact noStateErr_next (finish_status_ne (st := .illegalCmd) nofun)
  case htRdh => exact exec_read_noStateErr .hum hs (not_not.1 h)
  case htRdtc => exact exec_read_noStateErr .temp hs (not_not.1 h)

end Sys2Proof.Machine

open Sys2Proof Sys2Proof.Machine

/-- Settles O37: a refused command by `exec_refused`, every other one by `exec_noStateErr`. -/
theorem stateErrChangesOnlyRes : Obligations.StateErrChangesOnlyRes := fun _ _ hs =>
  ⟨exec_refused hs, exec_noStateErr hs⟩
end
